-- ==== Sys2Proof/Word.lean ====
section
/-! DEFINITION. The words of the model: bytes, binary32 patterns, 64-bit addresses and the container of a vector
register. Only names and the plainest packing stand here. -/

namespace Sys2Proof

/-- The unit of addressing (R55). -/
abbrev Byte := BitVec 8

/-- A binary32 pattern, held as an unsigned 32-bit word wherever it is moved (R10, R140). -/
abbrev Single := BitVec 32

/-- A general register, the program counter or a linear address (R25, R26, R55). -/
abbrev Word64 := BitVec 64

/-- The container of one vector register (R20): as wide as the widest MAXVL. Where MAXVL is smaller the bits from MAXVL up
are zero (`Sys2Proof.Machine.State.wf`, log entry 4). -/
abbrev VecReg := BitVec 512

end Sys2Proof
end

