-- ==== Sys2Proof/Config.lean ====
section
/-! DEFINITION. What an implementation fixes (the parameters of rule R5 and the switches of rule R166, held as plain data in
State) and the free values (opaque, no body). -/

namespace Sys2Proof

/-- Switch `NAN_RULE` of R166: which NaN an operation with a NaN operand delivers. -/
inductive NanRule where
  /-- The value R146 uses: the first NaN among x, y, z, made quiet. -/
  | firstQuieted
  /-- The alternative of R166: any quiet NaN (`Config.anyQuietNaN`, a free value). -/
  | anyQuiet
  deriving DecidableEq, Repr

/-- Switch `TININESS` of R166. -/
inductive Tininess where
  /-- The value R156 uses: the value rounded to 24 bits is compared with 2^-126. -/
  | afterRounding
  /-- The alternative of R166: the exact value is compared with 2^-126. -/
  | beforeRounding
  deriving DecidableEq, Repr

/-- The five switches of R166; R5 makes them fields of the configuration. -/
structure Switches where
  nanRule : NanRule
  infZeroQnanInvalid : Bool
  tininess : Tininess
  deSuppressedByNan : Bool
  peWithUnmaskedOu : Bool
  deriving DecidableEq, Repr

/-- The column "Value used" of R166. -/
def Switches.ofSpec : Switches where
  nanRule := .firstQuieted
  infZeroQnanInvalid := false
  tininess := .afterRounding
  deSuppressedByNan := true
  peWithUnmaskedOu := false

/-- The three values of the parameter `MAXVL` (R5). -/
inductive VecWidth where
  | v128 | v256 | v512
  deriving DecidableEq, Repr

/-- `MAXVL` in bits. -/
def VecWidth.bits : VecWidth → Nat
  | .v128 => 128
  | .v256 => 256
  | .v512 => 512

/-- The two values of the parameter `LA_BITS` (R5, D27). -/
inductive LinearWidth where
  | la48 | la57
  deriving DecidableEq, Repr

/-- `LA_BITS` in bits. -/
def LinearWidth.bits : LinearWidth → Nat
  | .la48 => 48
  | .la57 => 57

/-- The implementation parameters of R5 that the spec leaves OPEN. A launch fixes them (R223) and no instruction changes
them; they stand in State, so that a statement about every state holds for every value of them. -/
structure Params where
  /-- `MAXVL`, the width of a vector register. -/
  maxvl : VecWidth
  /-- `KW`, the width of an opmask register. -/
  kw : Nat
  /-- `LA_BITS`, the number of implemented linear-address bits. -/
  laBits : LinearWidth
  /-- `HAS_FMA`, the CPUID feature flag of forms 1 to 3 (R33). -/
  hasFma : Bool
  /-- `HAS_AVX512F`, the CPUID feature flag of forms 4 to 6 (R33). -/
  hasAvx512f : Bool
  /-- Whether #AC or #PF is reported where one access raises both: R198 orders #AC first, D5 and U17 say that no claim may
  depend on it (log entry 14). -/
  acBeforePf : Bool
  /-- The numerics switches. -/
  switches : Switches
  deriving DecidableEq, Repr

/-- `NVREG` in 64-bit mode (R5, D3): 32 with AVX512F, else 16. -/
def Params.nvreg (p : Params) : Nat := if p.hasAvx512f then 32 else 16

/-- FREE VALUE (log entry 12): the sign and payload of the quiet NaN delivered for operands x, y, z under the alternative
value of `NAN_RULE`. No body: nothing is known of it. -/
opaque Config.anyQuietNaN : Single → Single → Single → Single

/-- FREE VALUE (log entry 13): whether an unmasked underflow with operands x, y, z also reports inexactness, under the
alternative value of `PE_WITH_UNMASKED_OU`, where the 24-bit rounding is exact and the denormal rounding is not. -/
opaque Config.tinyFaultInexact : Single → Single → Single → Bool

/-- FREE VALUE (log entry 9): which of the four bytes of an operand that straddles two pages a page fault reports (R189: "it
may be an address in either page"). -/
opaque Config.straddleOffset : Word64 → BitVec 2

end Sys2Proof
end

