-- ==== Sys2Proof/Syntax.lean ====
section
/-! DEFINITION. The instructions: one constructor per row of spec/opcode_table.json, with every operand field of the
encoding. No bit of an encoding is lost: the bits that the spec ignores (LIG, an unused X or B, null segment overrides) are
kept, so that encoding and decoding are inverse. -/

namespace Sys2Proof

/-- The legacy prefix bytes that may stand before the VEX or EVEX prefix (R71, R83). -/
inductive LegacyByte where
  /-- 26H, ignored in 64-bit mode. -/
  | es
  /-- 2EH, ignored in 64-bit mode. -/
  | cs
  /-- 36H, ignored in 64-bit mode. -/
  | ss
  /-- 3EH, ignored in 64-bit mode. -/
  | ds
  /-- 64H: the linear address is FS.base + EA. -/
  | fs
  /-- 65H: the linear address is GS.base + EA. -/
  | gs
  /-- 67H: the address size is 32 bits in 64-bit mode. -/
  | addrSize
  deriving DecidableEq, Repr

/-- A displacement of a memory form with a base register (R81, R82). -/
inductive Disp where
  /-- mod = 00b. -/
  | none
  /-- mod = 01b: one byte, unscaled in a VEX form, times 4 in an EVEX form. -/
  | disp8 (d : BitVec 8)
  /-- mod = 10b: four bytes, never scaled. -/
  | disp32 (d : BitVec 32)
  deriving DecidableEq, Repr

/-- The memory forms of ModRM and SIB (R81). The register fields are the 3-bit fields; the prefix bits X and B that extend
them stand in `Operand3.mem`. -/
inductive Addr where
  /-- mod = 00b, rm = 101b: RIP-relative (a bare disp32 outside 64-bit mode, R96). -/
  | ripRel (disp : BitVec 32)
  /-- rm other than 100b: base register B ++ rm. -/
  | base (rm : BitVec 3) (disp : Disp)
  /-- rm = 100b: SIB with a base register B ++ base. -/
  | sib (scale : BitVec 2) (index base : BitVec 3) (disp : Disp)
  /-- rm = 100b, mod = 00b, SIB.base = 101b: no base, a disp32. -/
  | sibNoBase (scale : BitVec 2) (index : BitVec 3) (disp : BitVec 32)
  deriving DecidableEq, Repr

/-- Operand 3, "ModRM:r/m (r)" (R88), with the prefix bits X and B (not inverted). -/
inductive Operand3 where
  /-- mod = 11b: a vector register, B ++ rm (VEX, X ignored) or X ++ B ++ rm (EVEX). -/
  | reg (x b : Bool) (rm : BitVec 3)
  /-- mod other than 11b: a 32-bit memory location. -/
  | mem (x b : Bool) (addr : Addr)
  deriving DecidableEq, Repr

/-- The decoded fields of a VEX form (R72, R74, R79). -/
structure VexForm where
  /-- The legacy prefix bytes, first in memory first. -/
  legacy : List LegacyByte
  /-- P2 bit 2, `L`: ignored (LIG, R76). -/
  l : Bool
  /-- n1 = R ++ ModRM.reg. -/
  dst : BitVec 4
  /-- n2 = vvvv. -/
  src2 : BitVec 4
  /-- Operand 3. -/
  op3 : Operand3
  deriving DecidableEq, Repr

/-- The decoded fields of an EVEX form (R77, R78, R80, R84, R85). -/
structure EvexForm where
  /-- The legacy prefix bytes, first in memory first. -/
  legacy : List LegacyByte
  /-- n1 = R' ++ R ++ ModRM.reg. -/
  dst : BitVec 5
  /-- n2 = V' ++ vvvv. -/
  src2 : BitVec 5
  /-- Operand 3. -/
  op3 : Operand3
  /-- The opmask register number; 000b is "no writemask". -/
  aaa : BitVec 3
  /-- Zeroing-masking. -/
  z : Bool
  /-- `EVEX.b`: with a register as operand 3, static rounding. -/
  b : Bool
  /-- P2[6:5]: `EVEX.RC` under static rounding, else `L'L`. -/
  ll : BitVec 2
  deriving DecidableEq, Repr

/-- The instructions: one constructor per row of spec/opcode_table.json. -/
inductive Instr where
  /-- VEX.LIG.66.0F38.W0 99 /r (R111). -/
  | vfmadd132ssVex (f : VexForm)
  /-- VEX.LIG.66.0F38.W0 A9 /r (R112). -/
  | vfmadd213ssVex (f : VexForm)
  /-- VEX.LIG.66.0F38.W0 B9 /r (R113). -/
  | vfmadd231ssVex (f : VexForm)
  /-- EVEX.LIG.66.0F38.W0 99 /r (R123). -/
  | vfmadd132ssEvex (f : EvexForm)
  /-- EVEX.LIG.66.0F38.W0 A9 /r (R124). -/
  | vfmadd213ssEvex (f : EvexForm)
  /-- EVEX.LIG.66.0F38.W0 B9 /r (R125). -/
  | vfmadd231ssEvex (f : EvexForm)
  deriving DecidableEq, Repr

end Sys2Proof
end

