-- ==== Sys2Proof/WellFormed.lean ====
section
/-! DEFINITION. Which terms of the syntax an encoding can stand for: the exclusions of the ModRM and SIB tables (R81), the
illegal EVEX settings (R84, R85) and the 15-byte limit (R71). -/

namespace Sys2Proof

/-- The exclusions of the table of R81: rm = 100b means a SIB byte follows, and mod = 00b with rm or SIB.base = 101b means
that there is no base register. -/
def Addr.wf : Addr → Bool
  | .ripRel _ => true
  | .base rm disp => rm != 4#3 && !(disp == .none && rm == 5#3)
  | .sib _ _ bs disp => !(disp == .none && bs == 5#3)
  | .sibNoBase _ _ _ => true

/-- Operand 3 has an encoding. -/
def Operand3.wf : Operand3 → Bool
  | .reg _ _ _ => true
  | .mem _ _ addr => addr.wf

/-- Operand 3 is a register (mod = 11b). -/
def Operand3.isReg : Operand3 → Bool
  | .reg _ _ _ => true
  | .mem _ _ _ => false

/-- The number of displacement bytes (R71, R82). -/
def Disp.size : Disp → Nat
  | .none => 0
  | .disp8 _ => 1
  | .disp32 _ => 4

/-- The number of bytes after ModRM (R81). -/
def Operand3.size : Operand3 → Nat
  | .reg _ _ _ => 0
  | .mem _ _ (.ripRel _) => 4
  | .mem _ _ (.base _ d) => d.size
  | .mem _ _ (.sib _ _ _ d) => 1 + d.size
  | .mem _ _ (.sibNoBase _ _ _) => 5

/-- The number of bytes of a VEX form (R71): legacy bytes, 3, opcode and ModRM, SIB and displacement. -/
def VexForm.size (f : VexForm) : Nat := f.legacy.length + 5 + f.op3.size

/-- The number of bytes of an EVEX form (R71). -/
def EvexForm.size (f : EvexForm) : Nat := f.legacy.length + 6 + f.op3.size

/-- The settings of the EVEX controls that are not #UD (R84, R85): `b` only with a register, `L'L` other than 11b unless it
is the rounding control, and zeroing only with a writemask. -/
def EvexForm.legal (f : EvexForm) : Bool :=
  (if f.b then f.op3.isReg else f.ll != 3#2) && !(f.z && f.aaa == 0#3)

/-- A VEX form that an encoding stands for. -/
def VexForm.wf (f : VexForm) : Bool := f.op3.wf && decide (f.size ≤ 15)

/-- An EVEX form that an encoding stands for. -/
def EvexForm.wf (f : EvexForm) : Bool := f.op3.wf && f.legal && decide (f.size ≤ 15)

/-- The legacy prefix bytes of an instruction. -/
def Instr.legacy : Instr → List LegacyByte
  | .vfmadd132ssVex f => f.legacy
  | .vfmadd213ssVex f => f.legacy
  | .vfmadd231ssVex f => f.legacy
  | .vfmadd132ssEvex f => f.legacy
  | .vfmadd213ssEvex f => f.legacy
  | .vfmadd231ssEvex f => f.legacy

/-- The number of bytes of an instruction, L of R26 and R71. -/
def Instr.size : Instr → Nat
  | .vfmadd132ssVex f => f.size
  | .vfmadd213ssVex f => f.size
  | .vfmadd231ssVex f => f.size
  | .vfmadd132ssEvex f => f.size
  | .vfmadd213ssEvex f => f.size
  | .vfmadd231ssEvex f => f.size

/-- An instruction that an encoding stands for. -/
def Instr.wf : Instr → Bool
  | .vfmadd132ssVex f => f.wf
  | .vfmadd213ssVex f => f.wf
  | .vfmadd231ssVex f => f.wf
  | .vfmadd132ssEvex f => f.wf
  | .vfmadd213ssEvex f => f.wf
  | .vfmadd231ssEvex f => f.wf

end Sys2Proof
end

