-- ==== Sys2Proof/Decode.lean ====
section
/-! DEFINITION. The decoder (R71 to R98), total on byte strings and rejecting by name; after it the encoder, written from the
same tables; after that the reading of a row of spec/opcode_table.json. -/

namespace Sys2Proof

/-- What the operating mode changes in decoding (R4, R96, R97). -/
inductive CodeMode where
  /-- 64-bit mode. -/
  | long64
  /-- 32-bit protected or compatibility mode; `addr16` says that the code segment's default address size is 16 bits. -/
  | prot (addr16 : Bool)
  /-- Real-address or virtual-8086 mode. -/
  | legacy
  deriving DecidableEq, Repr

/-- Why a byte string is not one of the six forms. -/
inductive DecodeError where
  /-- The bytes end before the instruction does. -/
  | truncated
  /-- More than 15 bytes: #GP(0) (R71). -/
  | tooLong
  /-- One of the six forms preceded by F0H, 66H, F2H, F3H or REX: #UD (R92). -/
  | forbiddenLegacy
  /-- One of the EVEX forms with P0 bit 3 set or P1 bit 2 clear: #UD (R91). -/
  | reservedBit
  /-- One of the EVEX forms with an illegal setting of b, L'L or z: #UD (R84, R85). -/
  | evexSetting
  /-- Neither C4H nor 62H after the legacy bytes (R87 step 2, R73). -/
  | notVexEvex
  /-- Outside 64-bit mode, C4H or 62H followed by a byte whose two top bits are not 11b: LES or BOUND (R96). -/
  | lesOrBound
  /-- A REX byte that does not stand immediately before C4H or 62H, and nothing before them that R92 forbids (log entry 16). -/
  | strayRex
  /-- Another opcode map (R90). -/
  | otherMap
  /-- W = 1, the double-precision instructions (R75, R78). -/
  | doublePrecision
  /-- pp other than 01b (R90). -/
  | otherPp
  /-- Another opcode byte (R86, R98). -/
  | otherOpcode
  /-- A memory form with the 16-bit ModRM table (R97). -/
  | addressing16
  /-- The prefix and opcode bytes of one of the six forms in real-address or virtual-8086 mode, where VEX and EVEX encodings are
  not recognised: #UD (R186, R190, R205). -/
  | notRecognised
  deriving DecidableEq, Repr

/-- The two prefix bytes C4H and 62H (R71). -/
def isVexOrEvex (b : Byte) : Bool := b == 0xC4#8 || b == 0x62#8

/-- The REX bytes 40H to 4FH (R92). -/
def isRex (b : Byte) : Bool := b.extractLsb' 4 4 == 4#4

/-- LOCK, operand-size, REPNE, REP (R92). -/
def isForbiddenByte (b : Byte) : Bool := b == 0xF0#8 || b == 0x66#8 || b == 0xF2#8 || b == 0xF3#8

/-- The legacy bytes of R83. -/
def LegacyByte.ofByte (b : Byte) : Option LegacyByte :=
  if b = 0x26#8 then some .es
  else if b = 0x2E#8 then some .cs
  else if b = 0x36#8 then some .ss
  else if b = 0x3E#8 then some .ds
  else if b = 0x64#8 then some .fs
  else if b = 0x65#8 then some .gs
  else if b = 0x67#8 then some .addrSize
  else none

/-- What the bytes before the VEX or EVEX prefix say of the instruction (R87 step 1, R92). -/
inductive PrefixCheck where
  /-- Legacy bytes of R83 only. -/
  | clean
  /-- A REX byte among them that is not the last, and nothing that R87 step 1 forbids (log entry 16). -/
  | strayRex
  /-- F0H, 66H, F2H or F3H among them, or a REX byte the last of them: #UD. -/
  | forbidden
  deriving DecidableEq, Repr

/-- The same with a REX byte before it; `last` says that C4H or 62H follows that byte. -/
def PrefixCheck.afterRex (last : Bool) : PrefixCheck → PrefixCheck
  | .forbidden => .forbidden
  | _ => if last then .forbidden else .strayRex

/-- The bytes begin with C4H or 62H. -/
def startsVexOrEvex : List Byte → Bool
  | [] => false
  | c :: _ => isVexOrEvex c

/-- Step 1 of R87: the legacy bytes, what the bytes passed over say, and the bytes from the first other byte on. -/
def takeLegacy (long : Bool) : List Byte → List LegacyByte × PrefixCheck × List Byte
  | [] => ([], .clean, [])
  | b :: bs =>
    match LegacyByte.ofByte b with
    | some p =>
      match takeLegacy long bs with
      | (ps, found, rest) => (p :: ps, found, rest)
    | none =>
      if isForbiddenByte b then
        match takeLegacy long bs with
        | (ps, _, rest) => (ps, .forbidden, rest)
      else if long && isRex b then
        match takeLegacy long bs with
        | (ps, found, rest) => (ps, found.afterRex (startsVexOrEvex bs), rest)
      else ([], .clean, b :: bs)

/-- disp32, least significant byte first (R82). -/
def takeDisp32 : List Byte → Except DecodeError (BitVec 32 × List Byte)
  | a :: b :: c :: d :: rest => .ok (d ++ c ++ b ++ a, rest)
  | _ => .error .truncated

/-- The displacement that `mod` = 00b, 01b or 10b asks for (R81, R82). -/
def takeDisp (mod : BitVec 2) (bs : List Byte) : Except DecodeError (Disp × List Byte) :=
  if mod = 0#2 then .ok (.none, bs)
  else if mod = 1#2 then
    match bs with
    | d :: rest => .ok (.disp8 d, rest)
    | [] => .error .truncated
  else
    match takeDisp32 bs with
    | .ok (d, rest) => .ok (.disp32 d, rest)
    | .error e => .error e

/-- The memory form that `mod` and `rm` select (R81). -/
def takeAddr (mod : BitVec 2) (rm : BitVec 3) (bs : List Byte) : Except DecodeError (Addr × List Byte) :=
  if rm = 4#3 then
    match bs with
    | [] => .error .truncated
    | sib :: bs' =>
      if mod = 0#2 ∧ sib.extractLsb' 0 3 = 5#3 then
        match takeDisp32 bs' with
        | .ok (d, rest) => .ok (.sibNoBase (sib.extractLsb' 6 2) (sib.extractLsb' 3 3) d, rest)
        | .error e => .error e
      else
        match takeDisp mod bs' with
        | .ok (d, rest) => .ok (.sib (sib.extractLsb' 6 2) (sib.extractLsb' 3 3) (sib.extractLsb' 0 3) d, rest)
        | .error e => .error e
  else if mod = 0#2 ∧ rm = 5#3 then
    match takeDisp32 bs with
    | .ok (d, rest) => .ok (.ripRel d, rest)
    | .error e => .error e
  else
    match takeDisp mod bs with
    | .ok (d, rest) => .ok (.base rm d, rest)
    | .error e => .error e

/-- ModRM and what follows it (R81): the reg field, operand 3 and the rest. Where memory forms use the 16-bit table (`a16`) one
is rejected at its ModRM byte: what follows it is not the table's of R81 (R97). -/
def takeModRM (a16 x b : Bool) : List Byte → Except DecodeError (BitVec 3 × Operand3 × List Byte)
  | [] => .error .truncated
  | m :: bs =>
    if m.extractLsb' 6 2 = 3#2 then .ok (m.extractLsb' 3 3, .reg x b (m.extractLsb' 0 3), bs)
    else if a16 then .error .addressing16
    else
      match takeAddr (m.extractLsb' 6 2) (m.extractLsb' 0 3) bs with
      | .ok (a, rest) => .ok (m.extractLsb' 3 3, .mem x b a, rest)
      | .error e => .error e

/-- Which of the three instructions an opcode byte names (R86). -/
inductive Opcode where
  /-- 99H. -/
  | op132
  /-- A9H. -/
  | op213
  /-- B9H. -/
  | op231
  deriving DecidableEq, Repr

/-- R86, read. -/
def Opcode.ofByte (b : Byte) : Option Opcode :=
  if b = 0x99#8 then some .op132
  else if b = 0xA9#8 then some .op213
  else if b = 0xB9#8 then some .op231
  else none

/-- R86, written. -/
def Opcode.toByte : Opcode → Byte
  | .op132 => 0x99#8
  | .op213 => 0xA9#8
  | .op231 => 0xB9#8

/-- Forms 1 to 3 of R3. -/
def Instr.ofVex : Opcode → VexForm → Instr
  | .op132, f => .vfmadd132ssVex f
  | .op213, f => .vfmadd213ssVex f
  | .op231, f => .vfmadd231ssVex f

/-- Forms 4 to 6 of R3. -/
def Instr.ofEvex : Opcode → EvexForm → Instr
  | .op132, f => .vfmadd132ssEvex f
  | .op213, f => .vfmadd213ssEvex f
  | .op231, f => .vfmadd231ssEvex f

/-- Whether memory forms use the 16-bit ModRM table (R97). PRESUMED, log entry 36: outside 64-bit mode 67H toggles the default
size of the code segment, so that 67H in a 16-bit segment selects the 32-bit table. -/
def uses16BitTable (m : CodeMode) (legacy : List LegacyByte) : Bool :=
  match m with
  | .prot addr16 => addr16 != legacy.contains .addrSize
  | _ => false

/-- Outside 64-bit mode C4H and 62H are LES and BOUND, unless the two top bits of the next byte are 11b (R96). -/
def isLesOrBound (m : CodeMode) (next : Byte) : Bool := m != .long64 && next.extractLsb' 6 2 != 3#2

/-- Step 3 of R87 for a VEX prefix: the first fixed field that is not as R74 says. -/
def vexMismatch (p1 p2 : Byte) : Option DecodeError :=
  if p1.extractLsb' 0 5 ≠ 2#5 then some .otherMap
  else if p2.extractLsb' 7 1 ≠ 0#1 then some .doublePrecision
  else if p2.extractLsb' 0 2 ≠ 1#2 then some .otherPp
  else none

/-- Step 3 of R87 for an EVEX prefix: the first fixed field that is not as R78 says, but for the reserved bits of R91. -/
def evexMismatch (p0 p1 : Byte) : Option DecodeError :=
  if p0.extractLsb' 0 3 ≠ 2#3 then some .otherMap
  else if p1.extractLsb' 7 1 ≠ 0#1 then some .doublePrecision
  else if p1.extractLsb' 0 2 ≠ 1#2 then some .otherPp
  else none

/-- Steps 4 and 5 of R87: the opcode byte, then ModRM and what follows it. In real-address and virtual-8086 mode the opcode
byte is the last that is read: the form is not recognised, and how many bytes would follow is not given (R4, R186, log
entry 28). -/
def takeOpcode (m : CodeMode) (legacy : List LegacyByte) (x b : Bool) :
    List Byte → Except DecodeError (Opcode × BitVec 3 × Operand3 × List Byte)
  | [] => .error .truncated
  | op :: bs =>
    match Opcode.ofByte op with
    | none => .error .otherOpcode
    | some o =>
      if m = .legacy then .error .notRecognised
      else
        match takeModRM (uses16BitTable m legacy) x b bs with
        | .error e => .error e
        | .ok (reg, op3, rest) => .ok (o, reg, op3, rest)

/-- The VEX form of the prefix bytes P1 and P2 (R72, R79). -/
def vexFormOf (legacy : List LegacyByte) (p1 p2 : Byte) (reg : BitVec 3) (op3 : Operand3) : VexForm where
  legacy := legacy
  l := p2.getLsbD 2
  dst := ~~~(p1.extractLsb' 7 1) ++ reg
  src2 := ~~~(p2.extractLsb' 3 4)
  op3 := op3

/-- The EVEX form of the prefix bytes P0, P1 and P2 (R77, R80, R84, R85). -/
def evexFormOf (legacy : List LegacyByte) (p0 p1 p2 : Byte) (reg : BitVec 3) (op3 : Operand3) : EvexForm where
  legacy := legacy
  dst := ~~~(p0.extractLsb' 4 1) ++ ~~~(p0.extractLsb' 7 1) ++ reg
  src2 := ~~~(p2.extractLsb' 3 1) ++ ~~~(p1.extractLsb' 3 4)
  op3 := op3
  aaa := p2.extractLsb' 0 3
  z := p2.getLsbD 7
  b := p2.getLsbD 4
  ll := p2.extractLsb' 5 2

/-- What is left to check of a VEX form whose bytes have all been read (R71, R92). -/
def vexChecks (bad : Bool) (f : VexForm) : Option DecodeError :=
  if 15 < f.size then some .tooLong else if bad then some .forbiddenLegacy else none

/-- What is left to check of an EVEX form whose bytes have all been read (R71, R92, and step 6 of R87: R91, R84, R85). -/
def evexChecks (bad : Bool) (p0 p1 : Byte) (f : EvexForm) : Option DecodeError :=
  if 15 < f.size then some .tooLong
  else if bad then some .forbiddenLegacy
  else if p0.getLsbD 3 || !p1.getLsbD 2 then some .reservedBit
  else if !f.legal then some .evexSetting
  else none

/-- Steps 3 to 7 of R87 after C4H and P1. The fixed fields are checked before the opcode byte is asked for. -/
def decodeVex (m : CodeMode) (legacy : List LegacyByte) (bad : Bool) (p1 : Byte) :
    List Byte → Except DecodeError (Instr × List Byte)
  | [] => .error .truncated
  | p2 :: bs =>
    match vexMismatch p1 p2 with
    | some e => .error e
    | none =>
      match takeOpcode m legacy (!p1.getLsbD 6) (!p1.getLsbD 5) bs with
      | .error e => .error e
      | .ok (o, reg, op3, rest) =>
        match vexChecks bad (vexFormOf legacy p1 p2 reg op3) with
        | some e => .error e
        | none => .ok (.ofVex o (vexFormOf legacy p1 p2 reg op3), rest)

/-- Steps 3 to 7 of R87 after 62H and P0. -/
def decodeEvex (m : CodeMode) (legacy : List LegacyByte) (bad : Bool) (p0 : Byte) :
    List Byte → Except DecodeError (Instr × List Byte)
  | p1 :: p2 :: bs =>
    match evexMismatch p0 p1 with
    | some e => .error e
    | none =>
      match takeOpcode m legacy (!p0.getLsbD 6) (!p0.getLsbD 5) bs with
      | .error e => .error e
      | .ok (o, reg, op3, rest) =>
        match evexChecks bad p0 p1 (evexFormOf legacy p0 p1 p2 reg op3) with
        | some e => .error e
        | none => .ok (.ofEvex o (evexFormOf legacy p0 p1 p2 reg op3), rest)
  | _ => .error .truncated

/-- The decoder of R87: the instruction at the start of a byte string and the bytes after it. It asks for a byte only where
every reading of the bytes before it needs one (R98): LES and BOUND are told apart by the first byte after C4H or 62H (R96). -/
def decode (m : CodeMode) (bytes : List Byte) : Except DecodeError (Instr × List Byte) :=
  match takeLegacy (m == .long64) bytes with
  | (_, _, []) => .error .truncated
  | (legacy, found, c :: bs) =>
    if !isVexOrEvex c then .error .notVexEvex
    else if found = .strayRex then .error .strayRex
    else
      match bs with
      | [] => .error .truncated
      | p :: bs' =>
        if isLesOrBound m p then .error .lesOrBound
        else if c = 0xC4#8 then decodeVex m legacy (found == .forbidden) p bs'
        else decodeEvex m legacy (found == .forbidden) p bs'

/-! ### The encoder -/

/-- The legacy bytes of R83, written. -/
def LegacyByte.toByte : LegacyByte → Byte
  | .es => 0x26#8
  | .cs => 0x2E#8
  | .ss => 0x36#8
  | .ds => 0x3E#8
  | .fs => 0x64#8
  | .gs => 0x65#8
  | .addrSize => 0x67#8

/-- disp32, least significant byte first (R82). -/
def disp32Bytes (d : BitVec 32) : List Byte :=
  [d.extractLsb' 0 8, d.extractLsb' 8 8, d.extractLsb' 16 8, d.extractLsb' 24 8]

/-- `mod` of a displacement (R81). -/
def Disp.mod : Disp → BitVec 2
  | .none => 0#2
  | .disp8 _ => 1#2
  | .disp32 _ => 2#2

/-- The displacement bytes (R82). -/
def Disp.bytes : Disp → List Byte
  | .none => []
  | .disp8 d => [d]
  | .disp32 d => disp32Bytes d

/-- A ModRM or SIB byte: 2, 3 and 3 bits (R81). -/
def pack233 (hi : BitVec 2) (mid lo : BitVec 3) : Byte := hi ++ mid ++ lo

/-- ModRM, SIB and displacement (R81). -/
def modRMBytes (reg : BitVec 3) : Operand3 → List Byte
  | .reg _ _ rm => [pack233 3#2 reg rm]
  | .mem _ _ (.ripRel d) => pack233 0#2 reg 5#3 :: disp32Bytes d
  | .mem _ _ (.base rm d) => pack233 d.mod reg rm :: d.bytes
  | .mem _ _ (.sib s i b d) => pack233 d.mod reg 4#3 :: pack233 s i b :: d.bytes
  | .mem _ _ (.sibNoBase s i d) => pack233 0#2 reg 4#3 :: pack233 s i 5#3 :: disp32Bytes d

/-- The prefix bit X of operand 3. -/
def Operand3.x : Operand3 → Bool
  | .reg x _ _ => x
  | .mem x _ _ => x

/-- The prefix bit B of operand 3. -/
def Operand3.b : Operand3 → Bool
  | .reg _ b _ => b
  | .mem _ b _ => b

/-- VEX byte P1 (R72, R74): R, X, B inverted, map 00010b. -/
def VexForm.p1 (f : VexForm) : Byte :=
  ~~~(f.dst.extractLsb' 3 1) ++ BitVec.ofBool (!f.op3.x) ++ BitVec.ofBool (!f.op3.b) ++ 2#5

/-- VEX byte P2 (R72, R74): W = 0, vvvv inverted, L, pp = 01b. -/
def VexForm.p2 (f : VexForm) : Byte := 0#1 ++ ~~~f.src2 ++ BitVec.ofBool f.l ++ 1#2

/-- A VEX form in memory order (R71, R74). -/
def encodeVex (op : Byte) (f : VexForm) : List Byte :=
  f.legacy.map LegacyByte.toByte ++ 0xC4#8 :: f.p1 :: f.p2 :: op :: modRMBytes (f.dst.extractLsb' 0 3) f.op3

/-- EVEX byte P0 (R77, R78): R, X, B, R' inverted, 0, map 010b. -/
def EvexForm.p0 (f : EvexForm) : Byte :=
  ~~~(f.dst.extractLsb' 3 1) ++ BitVec.ofBool (!f.op3.x) ++ BitVec.ofBool (!f.op3.b) ++ ~~~(f.dst.extractLsb' 4 1) ++ 2#4

/-- EVEX byte P1 (R77, R78): W = 0, vvvv inverted, 1, pp = 01b. -/
def EvexForm.p1 (f : EvexForm) : Byte := 0#1 ++ ~~~(f.src2.extractLsb' 0 4) ++ 1#1 ++ 1#2

/-- EVEX byte P2 (R77, R84, R85): z, L'L or RC, b, V' inverted, aaa. -/
def EvexForm.p2 (f : EvexForm) : Byte :=
  BitVec.ofBool f.z ++ f.ll ++ BitVec.ofBool f.b ++ ~~~(f.src2.extractLsb' 4 1) ++ f.aaa

/-- An EVEX form in memory order (R71, R78). -/
def encodeEvex (op : Byte) (f : EvexForm) : List Byte :=
  f.legacy.map LegacyByte.toByte ++
    0x62#8 :: f.p0 :: f.p1 :: f.p2 :: op :: modRMBytes (f.dst.extractLsb' 0 3) f.op3

/-- The bytes of an instruction, in memory order. -/
def encode : Instr → List Byte
  | .vfmadd132ssVex f => encodeVex 0x99#8 f
  | .vfmadd213ssVex f => encodeVex 0xA9#8 f
  | .vfmadd231ssVex f => encodeVex 0xB9#8 f
  | .vfmadd132ssEvex f => encodeEvex 0x99#8 f
  | .vfmadd213ssEvex f => encodeEvex 0xA9#8 f
  | .vfmadd231ssEvex f => encodeEvex 0xB9#8 f

/-- L of R26 and R71 for a VEX form: the number of its bytes, whichever of the three opcode bytes it has. -/
def VexForm.length (f : VexForm) : Nat := (encodeVex 0x99#8 f).length

/-- L of R26 and R71 for an EVEX form. -/
def EvexForm.length (f : EvexForm) : Nat := (encodeEvex 0x99#8 f).length

/-! ### Rows of spec/opcode_table.json -/

/-- The low `8 * n` bits of `w` as bytes, the least significant first. -/
def bytesLow : Nat → Nat → List Byte
  | 0, _ => []
  | n + 1, w => BitVec.ofNat 8 w :: bytesLow n (w / 256)

/-- The bytes of an instruction that the table gives as the number `w` of `nbits` bits, followed by zero bytes up to the
longest instruction. Bit 0 is the least significant bit of the first byte; a number that is no instruction read so is read
as `match_mask_over` of the table writes it, the first byte most significant. No number of the table's six rows is an
instruction both ways (log entry 25). -/
def tableBytes (nbits w : Nat) : List Byte :=
  let bs := bytesLow (nbits / 8) w
  let pad := List.replicate (15 - nbits / 8) 0#8
  match decode .long64 (bs ++ pad) with
  | .ok _ => bs ++ pad
  | .error _ => bs.reverse ++ pad

/-- The instruction that the decoder reads from the number `w` of the table's numbering, in 64-bit mode. -/
def decodeTableWord (nbits w : Nat) : Option Instr :=
  match decode .long64 (tableBytes nbits w) with
  | .ok (i, _) => some i
  | .error _ => none

end Sys2Proof
end

