-- ==== Sys2Proof/Machine/State.lean ====
section
/-! DEFINITION. The state of the machine as plain data, the exceptions, faults and refusals, and the state after reset. -/

namespace Sys2Proof.Machine

/-- Memory: (address, byte) pairs with addresses strictly rising and no entry equal to what an unlisted address reads as
(`Memory.wf`). -/
abbrev Memory := List Host.Cell

/-- The two access kinds of the instructions in scope (R57). -/
inductive AccessKind where
  | fetch
  | read
  deriving DecidableEq, Repr

/-- An answer of the access oracle (R57): the bytes of memory, a page fault with the error code and the faulting address that
are passed on as they are, or a refusal. -/
inductive OracleAnswer where
  /-- `Ok(bytes)`: the access is allowed; the bytes are those of memory. -/
  | ok
  /-- `Fault(#PF, code, la_fault)`; `none` stands for the address of the access. -/
  | fault (code : BitVec 32) (addr : Option Word64)
  /-- `Refuse(reason)`. -/
  | refuse (reason : String)
  deriving DecidableEq, Repr

/-- An answer that the access oracle of R57 gives outright, to accesses of one kind whose first address lies in a range, at
the privilege levels whose bits are set in `cpls`. -/
structure OracleEntry where
  base : Nat
  size : Nat
  kind : AccessKind
  /-- Bit n: the entry speaks for CPL n. -/
  cpls : BitVec 4
  answer : OracleAnswer
  deriving DecidableEq, Repr

/-- What the access oracle of R57 knows of a range of linear addresses for which it gives no answer outright: the reasons of
R57 and R189, from which the answer is computed (log entries 7 and 8). -/
structure PageAttr where
  /-- The page is present. -/
  present : Bool
  /-- The page is user-accessible (needed at CPL 3). -/
  user : Bool
  /-- The page is marked execute-disable (no instruction fetch). -/
  execDisable : Bool
  /-- A reserved bit is set in its paging structure (error-code bit 3, R189). -/
  reservedSet : Bool
  /-- Its protection key denies data reads (error-code bit 5, R189). -/
  keyDenied : Bool
  /-- SGX denies the access (error-code bit 15, R189). -/
  sgxDenied : Bool
  /-- It holds device registers (R54). -/
  device : Bool
  deriving DecidableEq, Repr

/-- A range of linear addresses with its attributes. -/
structure Region where
  base : Nat
  size : Nat
  attr : PageAttr
  deriving DecidableEq, Repr

/-- A range of supplied program bytes (R61, R207): `size` bytes from `base` upward, modulo 2^64. -/
structure ProgramRange where
  base : Word64
  size : Nat
  deriving DecidableEq, Repr

/-- The read events that R58 asks the model to record, each with its linear address and value; each is 4 bytes long. -/
inductive ReadEvent where
  /-- An aligned read: one event of 4 bytes (R53). -/
  | word (addr : Word64) (value : Single)
  /-- A misaligned read: up to 4 separate byte reads, in an order that is not fixed (R53). -/
  | split (addr : Word64) (value : Single)
  deriving DecidableEq, Repr

/-- The machine. No instruction writes memory, a general, opmask, control or segment register or RFLAGS; they are state that
a launch sets and the instructions read (R25, R24, R32, R223). -/
structure State where
  /-- The parameters of R5 and the switches of R166. -/
  cfg : Params
  /-- V[0] to V[31], 512-bit containers of the MAXVL-bit vector registers (R20, R21, R22). -/
  v : Vector VecReg 32
  /-- K[0] to K[7], containers of the KW-bit opmask registers (R24). -/
  k : Vector Word64 8
  /-- x[0] RAX to x[15] R15 (R25). -/
  x : Vector Word64 16
  /-- RIP; outside 64-bit mode its low 32 bits are EIP (R26). -/
  pc : Word64
  /-- RFLAGS; AC is bit 18 (R27). -/
  rflags : Word64
  /-- MXCSR (R29). -/
  mxcsr : BitVec 32
  /-- CR0 (R32). -/
  cr0 : Word64
  /-- CR2, the faulting linear address of a page fault (R180, R189). -/
  cr2 : Word64
  /-- CR4 (R32). -/
  cr4 : Word64
  /-- XCR0 (R32). -/
  xcr0 : Word64
  /-- IA32_EFER; LMA is read (R32). -/
  efer : Word64
  /-- The CS selector; its two low bits are CPL (R204, R222). -/
  csSel : BitVec 16
  /-- CS base, used outside 64-bit mode (R66, R222). -/
  csBase : Word64
  /-- CS.L: with LMA, the code segment is 64-bit (R32). -/
  csL : Bool
  /-- The code segment's default address size is 16 bits (R97). -/
  cs16 : Bool
  /-- FS.base (R28). -/
  fsBase : Word64
  /-- GS.base (R28). -/
  gsBase : Word64
  /-- Memory, instructions and data in one linear address space (R55). -/
  mem : Memory
  /-- Where the program bytes are that the launch supplied (R61, R223): nothing outside is fetched (R207, log entry 34). -/
  program : List ProgramRange
  /-- The access oracle of R57 as data, the answers it gives outright: the first entry that speaks for an access decides
  (log entry 7). -/
  answers : List OracleEntry
  /-- The access oracle of R57 as data, for accesses without an answer outright: the first region that holds an address
  speaks for it, and an address in no region is ordinary accessible memory (log entry 7). -/
  oracle : List Region
  /-- The read events so far, oldest first (R58): the model's own field. -/
  reads : List ReadEvent
  deriving DecidableEq, Repr

/-- The exceptions of R180, and #DB of R209. Each is raised as R200 says: the step ends with the fault outcome. All are safe:
the model stops where the processor would enter a handler. -/
inductive Exception where
  /-- #UD, vector 6, invalid opcode (R186): raised by the decoder, by the state checks of every form, and by an unmasked
  SIMD floating-point condition with CR4.OSXMMEXCPT = 0. Safe. -/
  | ud
  /-- #NM, vector 7, device not available (R187): raised by every form when CR0.TS = 1. Safe. -/
  | nm
  /-- #SS(0), vector 12 (R188): raised by a memory operand at a non-canonical address through RSP or RBP. Safe. -/
  | ss
  /-- #GP(0), vector 13 (R188, R66, R71): raised by another non-canonical memory operand, by a fetch at a non-canonical
  address and by an instruction longer than 15 bytes. Safe. -/
  | gp
  /-- #PF(code), vector 14 (R189): raised by a fetch or a memory operand that the access oracle denies; `addr` goes to CR2.
  Safe. -/
  | pf (code : BitVec 32) (addr : Word64)
  /-- #AC(0), vector 17 (R192): raised by a misaligned memory operand under alignment checking. Safe. -/
  | ac
  /-- #XM, vector 19 (R182): raised by an unmasked SIMD floating-point condition. Safe. -/
  | xm
  /-- #DB, vector 1 (R209): the single-step trap after a completed instruction when RFLAGS.TF = 1. Safe. -/
  | db
  deriving DecidableEq, Repr

/-- The fault outcome of R200. -/
inductive Fault where
  /-- Raised by `Sys2Proof.Machine.raise`, the one operation that takes an exception: the exception with its error code and
  address, and the state at the fault. Terminal (D7). Safe: the model stops where the processor would enter a handler. -/
  | exception (e : Exception) (at_ : State)
  deriving DecidableEq, Repr

/-- Why a step has no meaning in the spec. -/
inductive Refusal where
  /-- Raised by `exec`'s arm of an instruction without a meaning; no arm is left. Safe. -/
  | notModelled (mnemonic : String)
  /-- Raised by the fetch: the bytes are not one of the six forms and not one of the #UD patterns of R90 (R98). Safe. -/
  | notInSpec (why : DecodeError)
  /-- Raised by the fetch of a byte outside the supplied program bytes: the end of the run (R207, U33). Safe. -/
  | endOfProgram
  /-- Raised by a fetch or a memory operand that the access oracle refuses: `Refuse(reason)` of R57. Safe. -/
  | oracleRefuses (reason : String)
  /-- Raised by a fetch or a memory operand in a region that holds device registers (R54, D30). Safe. -/
  | deviceMemory
  /-- Raised at the end of an instruction whose next address wraps or is not canonical (R26, D24). Safe. -/
  | pcOutOfRange
  /-- Raised by a memory operand outside 64-bit mode, which goes through a segment the spec does not describe (R28, R4); it
  carries the effective address (R96), the offset in that segment. Safe. -/
  | segmentedOperand (offset : BitVec 32)
  deriving DecidableEq, Repr

/-- What stops an instruction before it has a result. -/
inductive Stop where
  /-- An exception. -/
  | raises (e : Exception)
  /-- A refusal. -/
  | refuses (r : Refusal)
  deriving DecidableEq, Repr

/-- The outcome of a step or an instruction. -/
abbrev Result := Host.Outcome State Fault Refusal

/-- The parameters of the reset state. The spec leaves each OPEN (R5): DESIGN CHOICE, log entry 4. -/
def resetParams : Params where
  maxvl := .v512
  kw := 64
  laBits := .la48
  hasFma := true
  hasAvx512f := true
  acBeforePf := true
  switches := .ofSpec

/-- The machine after RESET: the table of R36 and R222. RDX holds the processor signature (log entry 2); IA32_EFER, the CS
attributes and CR2 have the family's values (log entry 3). -/
def State.reset : State where
  cfg := resetParams
  v := Vector.replicate 32 0#512
  k := Vector.replicate 8 0#64
  x := (Vector.replicate 16 0#64).set 2 0x000806F8#64
  pc := 0x0000FFF0#64
  rflags := 0x00000002#64
  mxcsr := 0x00001F80#32
  cr0 := 0x60000010#64
  cr2 := 0#64
  cr4 := 0#64
  xcr0 := 1#64
  efer := 0#64
  csSel := 0xF000#16
  csBase := 0xFFFF0000#64
  csL := false
  cs16 := true
  fsBase := 0#64
  gsBase := 0#64
  mem := []
  program := []
  answers := []
  oracle := []
  reads := []

end Sys2Proof.Machine
end

