-- ==== Sys2Proof/Machine/Ops.lean ====
section
/-! DEFINITION. The named operations on the state: memory, registers, the operating mode, the access oracle, taking an
exception and advancing the program counter. Every meaning goes through them. -/

namespace Sys2Proof.Machine

/-! ### Memory (R51, R55) -/

/-- What an address that memory does not list reads as. DESIGN CHOICE, log entry 6. -/
def Memory.unlisted : Byte := 0#8

/-- The byte at an address. -/
def Memory.read : Memory → Nat → Byte
  | [], _ => Memory.unlisted
  | (a', b) :: rest, a => if a' = a then b else Memory.read rest a

/-- Set the byte at an address, keeping the canonical form. -/
def Memory.write : Memory → Nat → Byte → Memory
  | [], a, b => if b = Memory.unlisted then [] else [(a, b)]
  | (a', b') :: rest, a, b =>
    if a < a' then (if b = Memory.unlisted then (a', b') :: rest else (a, b) :: (a', b') :: rest)
    else if a = a' then (if b = Memory.unlisted then rest else (a, b) :: rest)
    else (a', b') :: Memory.write rest a b

/-- The entries from address `lo` up are in canonical form: strictly rising, below 2^64, none equal to what an unlisted
address reads as. -/
def Memory.wfFrom (lo : Nat) : Memory → Bool
  | [] => true
  | (a, b) :: rest => decide (lo ≤ a) && decide (a < 2 ^ 64) && b != Memory.unlisted && Memory.wfFrom (a + 1) rest

/-- Memory is in its one canonical form. -/
def Memory.wf (m : Memory) : Bool := Memory.wfFrom 0 m

/-- Store bytes at rising addresses, modulo 2^64. No instruction in scope stores (R50); a launch does (R223). -/
def Memory.writeBytes : Memory → Word64 → List Byte → Memory
  | m, _, [] => m
  | m, a, b :: bs => Memory.writeBytes (Memory.write m a.toNat b) (a + 1#64) bs

/-- The four bytes at a linear address as a 32-bit word, the byte at the lowest address lowest (R51). -/
def Memory.read32 (m : Memory) (la : Word64) : Single :=
  m.read (la + 3#64).toNat ++ m.read (la + 2#64).toNat ++ m.read (la + 1#64).toNat ++ m.read la.toNat

/-! ### Updates of the state -/

/-- Set the program counter. -/
def State.setPc (s : State) (a : Word64) : State := { s with pc := a }

/-- Set MXCSR. -/
def State.setMxcsr (s : State) (w : BitVec 32) : State := { s with mxcsr := w }

/-- Set CR2. -/
def State.setCr2 (s : State) (a : Word64) : State := { s with cr2 := a }

/-- Set all bits of a vector register. -/
def State.setV (s : State) (n : BitVec 5) (w : VecReg) : State := { s with v := s.v.set n.toNat w n.isLt }

/-- Set memory. -/
def State.setMem (s : State) (m : Memory) : State := { s with mem := m }

/-- Record a read event, where there is one (R58). -/
def State.noteRead (s : State) (e : Option ReadEvent) : State := { s with reads := s.reads ++ e.toList }

/-! ### Registers -/

/-- Vector register n (R20). -/
def State.vreg (s : State) (n : BitVec 5) : VecReg := s.v.get ⟨n.toNat, n.isLt⟩

/-- Bits 31:0 of vector register n, all that a source operand gives (R23). -/
def State.low (s : State) (n : BitVec 5) : Single := (s.vreg n).extractLsb' 0 32

/-- General register n, or its low 32 bits zero-extended when the address size is 32 bits (R25, R83). -/
def State.gpr (s : State) (addr32 : Bool) (n : BitVec 4) : Word64 :=
  let w := s.x.get ⟨n.toNat, n.isLt⟩
  if addr32 then (w.extractLsb' 0 32).setWidth 64 else w

/-- Bit 0 of the opmask register that aaa selects (R24, R122). -/
def State.maskBit (s : State) (aaa : BitVec 3) : Bool := (s.k.get ⟨aaa.toNat, aaa.isLt⟩).getLsbD 0

/-- The write of R110 step 7: bits 31:0 are the result, bits 127:32 are kept, bits MAXVL-1:128 become 0. Every form
writes its destination so, whatever the element does (R228: "always zero bits MAXVL-1:128 of their destination"). -/
def mergeLow (old : VecReg) (res : Single) : VecReg := (old.extractLsb' 32 96 ++ res).setWidth 512

/-- `V[n] <- zext_MAXVL(V[n][127:32] ++ res)`, one write of the whole register (R110). -/
def State.writeLow (s : State) (n : BitVec 5) (res : Single) : State := s.setV n (mergeLow (s.vreg n) res)

/-! ### The operating mode and the enabling state (R32) -/

/-- The operating modes that R32 and R204 tell apart. -/
inductive Mode where
  | realAddress
  | virtual8086
  /-- 32-bit mode: protected mode or compatibility mode. -/
  | protected32
  | long64
  deriving DecidableEq, Repr

/-- CR0.PE (bit 0, log entry 5). -/
def State.pe (s : State) : Bool := s.cr0.getLsbD 0

/-- CR0.TS, bit 3 (R32). -/
def State.ts (s : State) : Bool := s.cr0.getLsbD 3

/-- CR0.AM, bit 18 (R32). -/
def State.am (s : State) : Bool := s.cr0.getLsbD 18

/-- CR4.OSXMMEXCPT, bit 10 (R32). -/
def State.osxmmexcpt (s : State) : Bool := s.cr4.getLsbD 10

/-- CR4.OSXSAVE, bit 18 (R32). -/
def State.osxsave (s : State) : Bool := s.cr4.getLsbD 18

/-- RFLAGS.AC, bit 18 (R27). -/
def State.ac (s : State) : Bool := s.rflags.getLsbD 18

/-- RFLAGS.VM (bit 17, log entry 5). -/
def State.vm (s : State) : Bool := s.rflags.getLsbD 17

/-- RFLAGS.TF (bit 8, log entry 5). -/
def State.tf (s : State) : Bool := s.rflags.getLsbD 8

/-- IA32_EFER.LMA (bit 10, log entry 5). -/
def State.lma (s : State) : Bool := s.efer.getLsbD 10

/-- The operating mode, from CR0.PE, IA32_EFER.LMA, CS.L and RFLAGS.VM, the bits that R32 and R204 name. How they combine is
PRESUMED, log entry 33: CR0.PE = 0 is real-address mode whatever LMA is, and with LMA = 1 RFLAGS.VM is not looked at. -/
def State.mode (s : State) : Mode :=
  if !s.pe then .realAddress
  else if s.lma then (if s.csL then .long64 else .protected32)
  else if s.vm then .virtual8086
  else .protected32

/-- 64-bit mode. -/
def State.is64 (s : State) : Bool := s.mode == .long64

/-- The modes in which VEX and EVEX encodings are recognised (R186, R205). -/
def State.recognises (s : State) : Bool := s.mode == .long64 || s.mode == .protected32

/-- CPL (R204): the low two bits of the CS selector; 0 in real-address and 3 in virtual-8086 mode (log entry 31). -/
def State.cpl (s : State) : BitVec 2 :=
  match s.mode with
  | .realAddress => 0#2
  | .virtual8086 => 3#2
  | _ => s.csSel.extractLsb' 0 2

/-- What the mode changes in decoding. -/
def State.codeMode (s : State) : CodeMode :=
  match s.mode with
  | .long64 => .long64
  | .protected32 => .prot s.cs16
  | _ => .legacy

/-- `XCR0[2:1] = 11b`: SSE and AVX state enabled (R32). -/
def State.avxEnabled (s : State) : Bool := s.xcr0.extractLsb' 1 2 == 3#2

/-- `XCR0[7:5] = 111b`: opmask, ZMM_Hi256 and Hi16_ZMM state enabled (R32). -/
def State.avx512Enabled (s : State) : Bool := s.xcr0.extractLsb' 5 3 == 7#3

/-- `vex_usable` of D21: no state-time #UD for forms 1 to 3 (R186, R190). -/
def State.vexUsable (s : State) : Bool := s.recognises && s.osxsave && s.avxEnabled && s.cfg.hasFma

/-- `evex_usable` of D21: no state-time #UD for forms 4 to 6 (R186, R191). -/
def State.evexUsable (s : State) : Bool :=
  s.recognises && s.osxsave && s.avxEnabled && s.avx512Enabled && s.cfg.hasAvx512f

/-- A vector register number as the mode reads it: outside 64-bit mode only registers 0 to 7 exist and the extension bits
are ignored (R96, R186, log entry 15). -/
def State.regNumber (s : State) (n : BitVec 5) : BitVec 5 := if s.is64 then n else n &&& 7#5

/-! ### Taking an exception (R180, R200) -/

/-- The vector number (R180, R209). -/
def Exception.vector : Exception → Nat
  | .ud => 6
  | .nm => 7
  | .ss => 12
  | .gp => 13
  | .pf _ _ => 14
  | .ac => 17
  | .xm => 19
  | .db => 1

/-- The error code, where the exception has one (R180). -/
def Exception.errorCode : Exception → Option (BitVec 32)
  | .ss | .gp | .ac => some 0#32
  | .pf code _ => some code
  | .ud | .nm | .xm | .db => none

/-- The faulting linear address, where one is recorded (R180, R200). -/
def Exception.address : Exception → Option Word64
  | .pf _ addr => some addr
  | _ => none

/-- What an exception records in the state: a page fault leaves the faulting address in CR2 (R57, R180, R189). -/
def Exception.record (e : Exception) (s : State) : State :=
  match e.address with
  | some addr => s.setCr2 addr
  | none => s

/-- TAKING AN EXCEPTION, the one shared operation: the step ends with the fault outcome of R200, which carries the exception
(vector, error code, address) and the state at the fault; the handler is not modelled (D7). -/
def raise (e : Exception) (s : State) : Result := .fault (.exception e (e.record s))

/-- The outcome of an instruction that is stopped. -/
def Stop.outcome (st : Stop) (s : State) : Result :=
  match st with
  | .raises e => raise e s
  | .refuses r => .refused r

/-! ### Linear addresses and the access oracle (R55 to R57) -/

/-- An address is canonical when bits 63:LA_BITS-1 are all equal (R55): it lies in the lowest or the highest 2^(LA_BITS-1)
addresses. -/
def State.canonical (s : State) (a : Word64) : Bool :=
  decide (a.toNat < 2 ^ (s.cfg.laBits.bits - 1)) || decide (2 ^ 64 - 2 ^ (s.cfg.laBits.bits - 1) ≤ a.toNat)

/-- An address in no region: ordinary accessible memory (log entry 7). -/
def PageAttr.ordinary : PageAttr where
  present := true
  user := true
  execDisable := false
  reservedSet := false
  keyDenied := false
  sgxDenied := false
  device := false

/-- The attributes of an address in a list of regions: the first region that holds it speaks for it. -/
def oracleAttr : List Region → Nat → PageAttr
  | [], _ => .ordinary
  | r :: rs, a => if r.base ≤ a ∧ a < r.base + r.size then r.attr else oracleAttr rs a

/-- The attributes of a linear address. -/
def State.attrAt (s : State) (a : Word64) : PageAttr := oracleAttr s.oracle a.toNat

/-- Whether a present page denies an access (R57, R189). -/
def PageAttr.violates (p : PageAttr) (kind : AccessKind) (cpl3 : Bool) : Bool :=
  p.reservedSet || (cpl3 && !p.user) || (kind == .fetch && p.execDisable) || (kind == .read && p.keyDenied) || p.sgxDenied

/-- The page-fault error code (R189): P bit 0, W/R bit 1 (0), U/S bit 2, RSVD bit 3, I/D bit 4, PK bit 5, SGX bit 15. -/
def PageAttr.faultCode (p : PageAttr) (kind : AccessKind) (cpl3 : Bool) : BitVec 32 :=
  (BitVec.ofBool (p.present && p.sgxDenied) ++ 0#9 ++ BitVec.ofBool (p.present && kind == .read && p.keyDenied) ++
    BitVec.ofBool (kind == .fetch) ++ BitVec.ofBool (p.present && p.reservedSet) ++ BitVec.ofBool cpl3 ++ 0#1 ++
    BitVec.ofBool p.present).setWidth 32

/-- The answer that an oracle gives outright to an access: that of the first entry that speaks for it. -/
def oracleAnswer : List OracleEntry → AccessKind → BitVec 2 → Nat → Option OracleAnswer
  | [], _, _, _ => none
  | e :: es, kind, cpl, a =>
    if e.kind = kind ∧ e.cpls.getLsbD cpl.toNat = true ∧ e.base ≤ a ∧ a < e.base + e.size then some e.answer
    else oracleAnswer es kind cpl a

/-- The answer that the oracle of the state gives outright to an access at `la`. -/
def State.answerAt (s : State) (kind : AccessKind) (la : Word64) : Option OracleAnswer :=
  oracleAnswer s.answers kind s.cpl la.toNat

/-- The page fault of an access to one byte, if its page denies it. -/
def State.pageFaultAt (s : State) (kind : AccessKind) (a : Word64) : Option (BitVec 32) :=
  let p := s.attrAt a
  let cpl3 := s.cpl == 3#2
  if !p.present || p.violates kind cpl3 then some (p.faultCode kind cpl3) else none

/-- The addresses of the four bytes of an operand. -/
def operandBytes (la : Word64) : List Word64 := [la, la + 1#64, la + 2#64, la + 3#64]

/-- The four bytes may lie in two pages: they cross a multiple of 4096 or have different attributes (log entry 9). -/
def State.straddles (s : State) (la : Word64) : Bool :=
  decide (4092 < la.toNat % 4096) || (operandBytes la).any fun a => s.attrAt a != s.attrAt la

/-- The page fault of a 4-byte read, if the page of one of its bytes denies it: error code and faulting address (R57, R189).
For an operand in one page the address is the operand's; for one that straddles two pages it may be an address in either
page, a free value, and the code is that of the page of this address if that page denies the read, else that of the first byte
that is denied (DESIGN CHOICE, log entry 9). -/
def State.readPageFault (s : State) (la : Word64) : Option (BitVec 32 × Word64) :=
  match (operandBytes la).findSome? (s.pageFaultAt .read) with
  | none => none
  | some code =>
    if s.straddles la then
      let a := la + (Config.straddleOffset la).setWidth 64
      some ((s.pageFaultAt .read a).getD code, a)
    else some (code, la)

/-- The page fault of a fetch of one byte, if its page denies it. -/
def State.fetchPageFault (s : State) (la : Word64) : Option (BitVec 32 × Word64) :=
  match s.pageFaultAt .fetch la with
  | some code => some (code, la)
  | none => none

/-- The refusal of an access to the bytes `bs`, where one of them lies in a device region (R54; log entry 24 for a fetch, log
entry 35 for an operand that lies in it in part). -/
def State.deviceStop (s : State) (bs : List Word64) : Option Stop :=
  if bs.any fun a => (s.attrAt a).device then some (.refuses .deviceMemory) else none

/-- `Access(kind, la, n, CPL)` of R57, the one operation that asks the oracle: what speaks against the access, if anything.
An answer given outright is passed on as it is; without one `pageFault` says what the pages answer. `bs` are the bytes. DESIGN
CHOICE, log entry 35: the refusal of a device (R54) comes last, after any fault or refusal that the oracle answers. -/
def State.accessStop (s : State) (kind : AccessKind) (la : Word64) (bs : List Word64)
    (pageFault : Option (BitVec 32 × Word64)) : Option Stop :=
  match s.answerAt kind la with
  | some (.fault code addr) => some (.raises (.pf code (addr.getD la)))
  | some (.refuse reason) => some (.refuses (.oracleRefuses reason))
  | some .ok => s.deviceStop bs
  | none =>
    match pageFault with
    | some (code, addr) => some (.raises (.pf code addr))
    | none => s.deviceStop bs

/-- `Access(read, la, 4, CPL)`. -/
def State.readStop (s : State) (la : Word64) : Option Stop :=
  s.accessStop .read la (operandBytes la) (s.readPageFault la)

/-- `Access(fetch, la, 1, CPL)`. -/
def State.fetchStop (s : State) (la : Word64) : Option Stop :=
  s.accessStop .fetch la [la] (s.fetchPageFault la)

/-! ### The program counter (R26) -/

/-- `pc + L` after a completed instruction; a result that wraps or is not canonical has no meaning (D24). -/
def advance (len : Nat) (s : State) : Result :=
  if s.is64 then
    (if s.pc.toNat + len < 2 ^ 64 ∧ s.canonical (s.pc + BitVec.ofNat 64 len) then
      .next (s.setPc (s.pc + BitVec.ofNat 64 len))
    else .refused .pcOutOfRange)
  else
    (if (s.pc.setWidth 32).toNat + len < 2 ^ 32 then
      .next (s.setPc ((s.pc.setWidth 32 + BitVec.ofNat 32 len).setWidth 64))
    else .refused .pcOutOfRange)

end Sys2Proof.Machine
end

