-- ==== Sys2Proof/Machine/Flags.lean ====
section
/-! DEFINITION. MXCSR: the status flags, the masks and the control fields (R29, R30, R160). -/

namespace Sys2Proof.Machine

/-- The four rounding modes (R29, R157). -/
inductive Rounding where
  /-- To nearest, ties to even. -/
  | rne
  /-- Down, toward minus infinity. -/
  | rd
  /-- Up, toward plus infinity. -/
  | ru
  /-- Toward zero. -/
  | rz
  deriving DecidableEq, Repr

/-- The codes of MXCSR.RC and EVEX.RC (R29, R84). -/
def Rounding.ofBits (c : BitVec 2) : Rounding :=
  if c = 0#2 then .rne else if c = 1#2 then .rd else if c = 2#2 then .ru else .rz

/-- The conditions that one operation detects (R159, R160); ZE is never among them. -/
structure FpFlags where
  ie : Bool := false
  de : Bool := false
  oe : Bool := false
  ue : Bool := false
  pe : Bool := false
  deriving DecidableEq, Repr

/-- The flags at their places in MXCSR[5:0]: IE 0, DE 1, ZE 2, OE 3, UE 4, PE 5 (R29). -/
def FpFlags.bits (f : FpFlags) : BitVec 6 :=
  BitVec.ofBool f.pe ++ BitVec.ofBool f.ue ++ BitVec.ofBool f.oe ++ 0#1 ++ BitVec.ofBool f.de ++ BitVec.ofBool f.ie

/-- The mask bits of the five conditions, true for masked (R29). ZM has no effect here (R160). -/
structure FpMasks where
  im : Bool
  dm : Bool
  om : Bool
  um : Bool
  pm : Bool
  deriving DecidableEq, Repr

/-- Every exception masked: the masks under SAE (R127). -/
def FpMasks.all : FpMasks := ⟨true, true, true, true, true⟩

/-- The masks of MXCSR: IM 7, DM 8, OM 10, UM 11, PM 12 (R29). -/
def FpMasks.ofMxcsr (w : BitVec 32) : FpMasks where
  im := w.getLsbD 7
  dm := w.getLsbD 8
  om := w.getLsbD 10
  um := w.getLsbD 11
  pm := w.getLsbD 12

/-- Some flag of the set is not masked (`deliver` of R150). -/
def FpFlags.unmasked (f : FpFlags) (m : FpMasks) : Bool :=
  (f.ie && !m.im) || (f.de && !m.dm) || (f.oe && !m.om) || (f.ue && !m.um) || (f.pe && !m.pm)

/-- MXCSR.RC, bits 14:13 (R29). -/
def mxcsrRounding (w : BitVec 32) : Rounding := .ofBits (w.extractLsb' 13 2)

/-- MXCSR.DAZ, bit 6 (R29). -/
def mxcsrDaz (w : BitVec 32) : Bool := w.getLsbD 6

/-- MXCSR.FTZ, bit 15 (R29). -/
def mxcsrFtz (w : BitVec 32) : Bool := w.getLsbD 15

/-- `MXCSR[5:0] <- MXCSR[5:0] | flags` (R30): a flag already set stays set and no other bit changes. -/
def orFlags (w : BitVec 32) (f : FpFlags) : BitVec 32 := w ||| f.bits.setWidth 32

/-- R30 on the state. -/
def State.orFlags (s : State) (f : FpFlags) : State := s.setMxcsr (Machine.orFlags s.mxcsr f)

/-- What `fma32` reads besides its operands (R150). -/
structure FpControl where
  rounding : Rounding
  daz : Bool
  ftz : Bool
  masks : FpMasks
  deriving DecidableEq, Repr

/-- The control of a form that rounds by MXCSR (R110 step 3, R120 step 5). -/
def FpControl.ofMxcsr (w : BitVec 32) : FpControl where
  rounding := mxcsrRounding w
  daz := mxcsrDaz w
  ftz := mxcsrFtz w
  masks := .ofMxcsr w

/-- The control of a form with static rounding: the mode is EVEX.RC, every exception counts as masked, DAZ and FTZ apply
(R121, R127). -/
def FpControl.static (w : BitVec 32) (rc : BitVec 2) : FpControl where
  rounding := .ofBits rc
  daz := mxcsrDaz w
  ftz := mxcsrFtz w
  masks := .all

end Sys2Proof.Machine
end

