-- ==== Sys2Proof/Machine/Numerics.lean ====
section
/-! DEFINITION. The arithmetic `fma32` that all six forms share (R140 to R166). Exact values are integers: a binary32 value
is an integer multiple of 2^-149, and a product plus an addend an integer multiple of 2^-298 (R142). -/

namespace Sys2Proof.Machine

/-! ### The format (R140, R141) -/

/-- The sign. -/
def signOf (p : Single) : Bool := p.getLsbD 31

/-- The biased exponent field. -/
def expOf (p : Single) : BitVec 8 := p.extractLsb' 23 8

/-- The fraction field. -/
def fracOf (p : Single) : BitVec 23 := p.extractLsb' 0 23

/-- `p[30:0] = 0`. -/
def isZero (p : Single) : Bool := p.extractLsb' 0 31 == 0#31

/-- Exponent field 0, fraction not 0. -/
def isDen (p : Single) : Bool := expOf p == 0#8 && fracOf p != 0#23

/-- `p[30:0] = 7F800000H`. -/
def isInf (p : Single) : Bool := p.extractLsb' 0 31 == 0x7F800000#31

/-- Exponent field 255, fraction not 0. -/
def isNaN (p : Single) : Bool := expOf p == 255#8 && fracOf p != 0#23

/-- A NaN with bit 22 clear. -/
def isSNaN (p : Single) : Bool := isNaN p && !p.getLsbD 22

/-- `p | 00400000H`. -/
def quiet (p : Single) : Single := p ||| 0x00400000#32

/-- A sign and 31 more bits. -/
def withSign (neg : Bool) (rest : BitVec 31) : Single := BitVec.ofBool neg ++ rest

/-- The QNaN floating-point indefinite. -/
def indefinite : Single := 0xFFC00000#32

/-- The largest finite magnitude, 7F7FFFFFH, without its sign. -/
def maxFinite : BitVec 31 := 0x7F7FFFFF#31

/-- Infinity, 7F800000H, without its sign. -/
def infinity : BitVec 31 := 0x7F800000#31

/-- `|val(p)| * 2^149` of a zero, denormal or normal pattern (R140). -/
def magnitude (p : Single) : Nat :=
  if expOf p = 0#8 then (fracOf p).toNat else (2 ^ 23 + (fracOf p).toNat) * 2 ^ ((expOf p).toNat - 1)

/-- `val(p) * 2^149`. -/
def scaledVal (p : Single) : Int := if signOf p then -(magnitude p : Int) else (magnitude p : Int)

/-- `(val(x)*val(y) + val(z)) * 2^298`, exact (R142). -/
def exactFma (x y z : Single) : Int := scaledVal x * scaledVal y + scaledVal z * 2 ^ 149

/-! ### Rounding (R152, R153, R157). Magnitudes are in units of 2^-298. -/

/-- Whether the rounding of R157 goes to the upper neighbour: `n` is the floor of the magnitude in units of 2^k, `rem` the
rest, `neg` the sign. -/
def roundsUp (rm : Rounding) (neg : Bool) (k n rem : Nat) : Bool :=
  match rm with
  | .rne => decide (2 ^ k < 2 * rem) || (2 * rem == 2 ^ k && n % 2 == 1)
  | .rd => neg
  | .ru => !neg
  | .rz => false

/-- `roundTo` of R157 with unit 2^k. -/
def roundTo (rm : Rounding) (neg : Bool) (m k : Nat) : Nat :=
  if m % 2 ^ k = 0 then m
  else (if roundsUp rm neg k (m / 2 ^ k) (m % 2 ^ k) then m / 2 ^ k + 1 else m / 2 ^ k) * 2 ^ k

/-- `round24` of R153: to a 24-bit significand, with no bound on the exponent. -/
def round24 (rm : Rounding) (neg : Bool) (m : Nat) : Nat := roundTo rm neg m (Nat.log2 m - 23)

/-- The rounding of R156 to a multiple of 2^-149. -/
def roundDenormal (rm : Rounding) (neg : Bool) (m : Nat) : Nat := roundTo rm neg m 149

/-- `enc` of R152: a multiple of 2^-149 below 2^-126, or a value of 24 significant bits. -/
def encodeMagnitude (neg : Bool) (q : Nat) : Single :=
  if q < 2 ^ 172 then withSign neg (BitVec.ofNat 31 (q / 2 ^ 149))
  else
    withSign neg (BitVec.ofNat 31 ((Nat.log2 q - 171) * 2 ^ 23 + (q / 2 ^ (Nat.log2 q - 23) - 2 ^ 23)))

/-! ### The function (R150) -/

/-- What `fma32` answers: a result with the flags to OR into MXCSR, or the flags of an unmasked exception that ends the
instruction. -/
inductive FmaOutcome where
  | done (res : Single) (flags : FpFlags)
  | stopped (flags : FpFlags)
  deriving DecidableEq, Repr

/-- The flags of either outcome. -/
def FmaOutcome.flags : FmaOutcome → FpFlags
  | .done _ fl => fl
  | .stopped fl => fl

/-- `deliver` of R150 step 0. -/
def deliver (m : FpMasks) (res : Single) (fl : FpFlags) : FmaOutcome :=
  if fl.unmasked m then .stopped fl else .done res fl

/-- DAZ replaces a denormal by the zero of its sign (R144, step 1). -/
def applyDaz (daz : Bool) (p : Single) : Single := if daz && isDen p then withSign (signOf p) 0#31 else p

/-- Some operand is denormal. -/
def anyDen (x y z : Single) : Bool := isDen x || isDen y || isDen z

/-- Some operand is a NaN. -/
def anyNaN (x y z : Single) : Bool := isNaN x || isNaN y || isNaN z

/-- Some operand is a signalling NaN. -/
def anySNaN (x y z : Single) : Bool := isSNaN x || isSNaN y || isSNaN z

/-- The product is infinity times zero (R147). -/
def infTimesZero (x y : Single) : Bool := (isInf x && isZero y) || (isZero x && isInf y)

/-- The sign of the product (step 3). -/
def productSign (x y : Single) : Bool := signOf x != signOf y

/-- An invalid operation without a NaN operand (R147, step 3). -/
def invalidOp (x y z : Single) : Bool :=
  infTimesZero x y || ((isInf x || isInf y) && isInf z && signOf z != productSign x y)

/-- The NaN that is delivered (R146): the first of x, y, z that is one, quieted; under the alternative switch any quiet NaN
(R166). -/
def nanResult (rule : NanRule) (x y z : Single) : Single :=
  match rule with
  | .firstQuieted => quiet (if isNaN x then x else if isNaN y then y else z)
  | .anyQuiet => Config.anyQuietNaN x y z ||| 0x7FC00000#32

/-- Step 2 (R146): a NaN operand. -/
def nanOutcome (sw : Switches) (m : FpMasks) (x y z : Single) : FmaOutcome :=
  deliver m (nanResult sw.nanRule x y z)
    { ie := anySNaN x y z || (sw.infZeroQnanInvalid && infTimesZero x y)
      de := !sw.deSuppressedByNan && anyDen x y z }

/-- Step 3 (R147): the masked result of an invalid operation. -/
def invalidOutcome (sw : Switches) (m : FpMasks) (x y z : Single) : FmaOutcome :=
  deliver m indefinite { ie := true, de := !sw.deSuppressedByNan && anyDen x y z }

/-- Step 5 (R149): an infinite operand. -/
def infiniteOutcome (m : FpMasks) (x y z : Single) (fl : FpFlags) : FmaOutcome :=
  deliver m (if isInf x || isInf y then withSign (productSign x y) infinity else z) fl

/-- The sign of an exact zero result (R151, step 6). -/
def zeroSign (rm : Rounding) (x y z : Single) : Bool :=
  if (isZero x || isZero y) && isZero z && productSign x y == signOf z then productSign x y else rm == .rd

/-- The masked overflow result (R154, step 8). -/
def overflowResult (rm : Rounding) (neg : Bool) : Single :=
  withSign neg (if rm == .rne || (rm == .rd && neg) || (rm == .ru && !neg) then infinity else maxFinite)

/-- Step 8 (R154): the rounded magnitude is 2^128 or more. DESIGN CHOICE, log entry 13: under the alternative of
`PE_WITH_UNMASKED_OU` (R166) an unmasked overflow sets PE only where the 24-bit rounding, with no bound on the exponent, is
inexact. -/
def overflowOutcome (sw : Switches) (c : FpControl) (neg : Bool) (m r : Nat) (fl : FpFlags) : FmaOutcome :=
  if !c.masks.om then .stopped { fl with oe := true, pe := sw.peWithUnmaskedOu && r != m }
  else deliver c.masks (overflowResult c.rounding neg) { fl with oe := true, pe := true }

/-- Step 10 (R156, R158): a tiny result. `tinyInexact` is the free value of log entry 13. A
denormal result is a value like any other: a microcode assist gives "the same architectural result" (R228). -/
def tinyOutcome (sw : Switches) (c : FpControl) (neg : Bool) (m r : Nat) (fl : FpFlags) (tinyInexact : Bool) : FmaOutcome :=
  let rd := roundDenormal c.rounding neg m
  if !c.masks.um then
    .stopped { fl with ue := true, pe := sw.peWithUnmaskedOu && (r != m || (rd != m && tinyInexact)) }
  else if c.ftz then deliver c.masks (withSign neg 0#31) { fl with ue := true, pe := true }
  else deliver c.masks (encodeMagnitude neg rd) { fl with ue := rd != m, pe := rd != m }

/-- Whether a non-zero magnitude is tiny (R156 and the switch `TININESS`). -/
def isTiny (t : Tininess) (m r : Nat) : Bool :=
  match t with
  | .afterRounding => decide (r < 2 ^ 172)
  | .beforeRounding => decide (m < 2 ^ 172)

/-- Steps 7 to 10: rounding a non-zero exact value of magnitude `m` (R153 to R158). -/
def roundOutcome (sw : Switches) (c : FpControl) (neg : Bool) (m : Nat) (fl : FpFlags) (tinyInexact : Bool) : FmaOutcome :=
  let r := round24 c.rounding neg m
  if 2 ^ 426 ≤ r then overflowOutcome sw c neg m r fl
  else if isTiny sw.tininess m r then tinyOutcome sw c neg m r fl tinyInexact
  else deliver c.masks (encodeMagnitude neg r) { fl with pe := r != m }

/-- Steps 6 to 10: finite operands. -/
def finiteOutcome (sw : Switches) (c : FpControl) (x y z : Single) (fl : FpFlags) : FmaOutcome :=
  let v := exactFma x y z
  if v = 0 then deliver c.masks (withSign (zeroSign c.rounding x y z) 0#31) fl
  else roundOutcome sw c (decide (v < 0)) v.natAbs fl (Config.tinyFaultInexact x y z)

/-- Steps 2 to 10, on operands that DAZ has been applied to. -/
def fmaAfterDaz (sw : Switches) (c : FpControl) (x y z : Single) : FmaOutcome :=
  if anyNaN x y z then nanOutcome sw c.masks x y z
  else if invalidOp x y z then invalidOutcome sw c.masks x y z
  else if anyDen x y z && !c.masks.dm then .stopped { de := true }
  else if isInf x || isInf y || isInf z then infiniteOutcome c.masks x y z { de := anyDen x y z }
  else finiteOutcome sw c x y z { de := anyDen x y z }

/-- `fma32(RM, x, y, z)` of R150: x*y + z with one rounding. A denormal operand that a microcode assist handles has
"the same architectural result" (R228). Time is not modelled (D31). -/
def fma32 (sw : Switches) (c : FpControl) (x y z : Single) : FmaOutcome :=
  fmaAfterDaz sw c (applyDaz c.daz x) (applyDaz c.daz y) (applyDaz c.daz z)

end Sys2Proof.Machine
end

