-- ==== Sys2Proof/Machine/Operands.lean ====
section
/-! DEFINITION. The operand forms: the effective and the linear address of a memory operand (R81 to R83, R99), its read
(R50 to R57) and the value of operand 3. -/

namespace Sys2Proof.Machine

/-- disp8 of a VEX form is not scaled; disp8 of an EVEX form is times 4, Tuple1 Scalar with a 32-bit element (R82). -/
def dispValue (evex : Bool) : Disp → Word64
  | .none => 0#64
  | .disp8 d => if evex then d.signExtend 64 * 4#64 else d.signExtend 64
  | .disp32 d => d.signExtend 64

/-- A general register number of an address as the mode reads it: outside 64-bit mode only registers 0 to 7 exist and the
extension bits X and B are ignored (R96, log entry 15). -/
def State.gprNumber (s : State) (n : BitVec 4) : BitVec 4 := if s.is64 then n else n &&& 7#4

/-- `basepart` of R81 where there is a base: register B ++ base. -/
def basePart (s : State) (a32 b : Bool) (base : BitVec 3) : Word64 := s.gpr a32 (s.gprNumber (BitVec.ofBool b ++ base))

/-- `indexpart` of R81: register 4 (X = 0, index 100b) is no index. -/
def indexPart (s : State) (a32 x : Bool) (scale : BitVec 2) (index : BitVec 3) : Word64 :=
  let n := s.gprNumber (BitVec.ofBool x ++ index)
  if n = 4#4 then 0#64 else s.gpr a32 n <<< scale.toNat

/-- The sum of R81 before the address size cuts it, on 64-bit unsigned integers that wrap. `next` is `pc + L`. Outside 64-bit
mode there is no RIP-relative form: mod 00b with rm 101b is a bare disp32 (R96). -/
def addressSum (s : State) (evex a32 x b : Bool) (next : Word64) : Addr → Word64
  | .ripRel d => (if s.is64 then next else 0#64) + d.signExtend 64
  | .base rm d => basePart s a32 b rm + dispValue evex d
  | .sib sc i bs d => basePart s a32 b bs + indexPart s a32 x sc i + dispValue evex d
  | .sibNoBase sc i d => indexPart s a32 x sc i + d.signExtend 64

/-- 67H among the legacy bytes. -/
def hasAddr32 (legacy : List LegacyByte) : Bool := legacy.contains .addrSize

/-- The address size is 32 bits: with 67H in 64-bit mode (R83); always outside it, where 32 bits is the default (R96) and the
16-bit forms are refused by the decoder (R97, log entry 36). -/
def State.addressSize32 (s : State) (legacy : List LegacyByte) : Bool := !s.is64 || hasAddr32 legacy

/-- The effective address (R81, R96); with an address size of 32 bits modulo 2^32, zero-extended (R83, R99). -/
def effectiveAddress (s : State) (evex : Bool) (legacy : List LegacyByte) (x b : Bool) (len : Nat) (a : Addr) : Word64 :=
  let a32 := s.addressSize32 legacy
  let sum := addressSum s evex a32 x b (s.pc + BitVec.ofNat 64 len) a
  if a32 then (sum.extractLsb' 0 32).setWidth 64 else sum

/-- The segment base that is added (R83): the last of 64H and 65H counts; the null overrides have no effect (log entry 17). -/
def segmentBase (s : State) (legacy : List LegacyByte) : Word64 :=
  legacy.foldl (fun base p => match p with
    | .fs => s.fsBase
    | .gs => s.gsBase
    | _ => base) 0#64

/-- FS or GS overrides the default segment. -/
def hasOverride (legacy : List LegacyByte) : Bool := legacy.contains .fs || legacy.contains .gs

/-- The base register actually used is RSP or RBP, so that the default segment is SS (R83). -/
def baseIsStack (b : Bool) : Addr → Bool
  | .ripRel _ => false
  | .base rm _ => !b && (rm == 4#3 || rm == 5#3)
  | .sib _ _ bs _ => !b && (bs == 4#3 || bs == 5#3)
  | .sibNoBase _ _ _ => false

/-- The access uses the SS segment (R56, R83). -/
def usesStack (legacy : List LegacyByte) (b : Bool) (a : Addr) : Bool := baseIsStack b a && !hasOverride legacy

/-- The linear address of a memory operand: segment base plus effective address, modulo 2^64 (R83). -/
def linearAddress (s : State) (evex : Bool) (legacy : List LegacyByte) (x b : Bool) (len : Nat) (a : Addr) : Word64 :=
  segmentBase s legacy + effectiveAddress s evex legacy x b len a

/-- Alignment checking is on: CR0.AM = 1, RFLAGS.AC = 1 and CPL = 3 (R52, R192). -/
def State.alignmentChecked (s : State) : Bool := s.am && s.ac && s.cpl == 3#2

/-- All four bytes of the operand have canonical addresses (R56). -/
def State.operandCanonical (s : State) (la : Word64) : Bool := (operandBytes la).all s.canonical

/-- What a 4-byte read gives: the value and the event it leaves (R53, R58). -/
structure Loaded where
  value : Single
  event : Option ReadEvent
  deriving DecidableEq, Repr

/-- The event of a completed 4-byte read (R53). -/
def readEvent (la : Word64) (w : Single) : ReadEvent :=
  if la.toNat % 4 = 0 then .word la w else .split la w

/-- The access of a canonical operand: alignment, then the oracle (R57, R192, R189, R54, R198 step 4). Where both #AC and #PF
apply the parameter `acBeforePf` says which is reported (log entry 14). -/
def accessOperand (s : State) (la : Word64) : Except Stop Loaded :=
  let misaligned := s.alignmentChecked && la.toNat % 4 != 0
  match s.readStop la with
  | some (.raises e) => if misaligned && s.cfg.acBeforePf then .error (.raises .ac) else .error (.raises e)
  | some (.refuses r) => if misaligned then .error (.raises .ac) else .error (.refuses r)
  | none =>
    if misaligned then .error (.raises .ac)
    else .ok { value := s.mem.read32 la, event := some (readEvent la (s.mem.read32 la)) }

/-- `MemRead(la, 4)` (R57) in 64-bit mode: the canonical check first, #SS(0) for the SS segment and #GP(0) otherwise (R56,
R188). -/
def memRead (s : State) (stack : Bool) (la : Word64) : Except Stop Loaded :=
  if !s.operandCanonical la then .error (.raises (if stack then .ss else .gp))
  else accessOperand s la

/-- The register number of operand 3: B ++ rm in a VEX form (R79), X ++ B ++ rm in an EVEX form (R80). -/
def operand3Number (evex x b : Bool) (rm : BitVec 3) : BitVec 5 := BitVec.ofBool (evex && x) ++ BitVec.ofBool b ++ rm

/-- Bits 31:0 of operand 3: of a vector register, or the 32-bit memory location (R23, R50, R110 step 2). Outside 64-bit mode the
effective address goes through a segment with base, limit and rights that the spec does not describe (R28, R188): refused. -/
def readOperand3 (s : State) (evex : Bool) (legacy : List LegacyByte) (len : Nat) : Operand3 → Except Stop Loaded
  | .reg x b rm => .ok { value := s.low (s.regNumber (operand3Number evex x b rm)), event := none }
  | .mem x b a =>
    if s.is64 then memRead s (usesStack legacy b a) (linearAddress s evex legacy x b len a)
    else .error (.refuses (.segmentedOperand ((effectiveAddress s evex legacy x b len a).setWidth 32)))

end Sys2Proof.Machine
end

