-- ==== Sys2Proof/Machine/Forms.lean ====
section
/-! DEFINITION. What the six forms share: the operand orders of R145, the end of an instruction, and the execution rules R110
(VEX) and R120 (EVEX). -/

namespace Sys2Proof.Machine

/-- The two factors and the addend, in the order that NaN selection uses (R145). -/
structure Factors where
  x : Single
  y : Single
  z : Single
  deriving DecidableEq, Repr

/-- 132: DEST * SRC3 + SRC2 (R111, R123). -/
def factors132 (d s2 s3 : Single) : Factors := ⟨d, s3, s2⟩

/-- 213: SRC2 * DEST + SRC3 (R112, R124). -/
def factors213 (d s2 s3 : Single) : Factors := ⟨s2, d, s3⟩

/-- 231: SRC2 * SRC3 + DEST (R113, R125). -/
def factors231 (d s2 s3 : Single) : Factors := ⟨s2, s3, d⟩

/-- The factors from the registers n1 and n2 and the value of operand 3. -/
def State.factorsOf (s : State) (op : Opcode) (n1 n2 : BitVec 5) (s3 : Single) : Factors :=
  match op with
  | .op132 => factors132 (s.low n1) (s.low n2) s3
  | .op213 => factors213 (s.low n1) (s.low n2) s3
  | .op231 => factors231 (s.low n1) (s.low n2) s3

/-- A SIMD floating-point exception (R182, R184): the flags are in MXCSR, nothing else changes; #XM, or #UD when
CR4.OSXMMEXCPT = 0. -/
def raiseSimd (fl : FpFlags) (s : State) : Result :=
  raise (if s.osxmmexcpt then .xm else .ud) (s.orFlags fl)

/-- Steps 5 to 8 of R110: flags, then the fault, or the destination and the program counter. -/
def finishMxcsr (out : FmaOutcome) (event : Option ReadEvent) (n1 : BitVec 5) (len : Nat) (s : State) : Result :=
  match out with
  | .stopped fl => raiseSimd fl s
  | .done res fl => advance len (((s.orFlags fl).noteRead event).writeLow n1 res)

/-- Steps 7 to 10 of R120 under SAE (R127): no flag is set. Every exception counts as masked, so the outcome is never
`stopped`; that arm stands for R182 all the same. -/
def finishSae (out : FmaOutcome) (event : Option ReadEvent) (n1 : BitVec 5) (len : Nat) (s : State) : Result :=
  match out with
  | .stopped fl => raiseSimd fl s
  | .done res _ => advance len ((s.noteRead event).writeLow n1 res)

/-- R110, given the operand order of R111 to R113. -/
def runVex (op : Opcode) (f : VexForm) (s : State) : Result :=
  if !s.vexUsable then raise .ud s
  else if s.ts then raise .nm s
  else
    match readOperand3 s false f.legacy f.length f.op3 with
    | .error st => st.outcome s
    | .ok ld =>
      let n1 := s.regNumber (f.dst.setWidth 5)
      let fs := s.factorsOf op n1 (s.regNumber (f.src2.setWidth 5)) ld.value
      finishMxcsr (fma32 s.cfg.switches (.ofMxcsr s.mxcsr) fs.x fs.y fs.z) ld.event n1 f.length s

/-- The element is active (R120 step 2, R122): no writemask, or bit 0 of the opmask register is 1. -/
def State.isActive (s : State) (f : EvexForm) : Bool := f.aaa == 0#3 || s.maskBit f.aaa

/-- The masked-off element (R120 step 3, R126): merging keeps bits 31:0, zeroing clears them; the upper bits as always. -/
def finishMaskedOff (f : EvexForm) (n1 : BitVec 5) (s : State) : Result :=
  advance f.length (s.writeLow n1 (if f.z then 0#32 else s.low n1))

/-- R120, given the operand order of R123 to R125. -/
def runEvex (op : Opcode) (f : EvexForm) (s : State) : Result :=
  if !f.legal || !s.evexUsable then raise .ud s
  else if s.ts then raise .nm s
  else
    let n1 := s.regNumber f.dst
    if !s.isActive f then finishMaskedOff f n1 s
    else
      match readOperand3 s true f.legacy f.length f.op3 with
      | .error st => st.outcome s
      | .ok ld =>
        let fs := s.factorsOf op n1 (s.regNumber f.src2) ld.value
        if f.b then
          finishSae (fma32 s.cfg.switches (.static s.mxcsr f.ll) fs.x fs.y fs.z) ld.event n1 f.length s
        else
          finishMxcsr (fma32 s.cfg.switches (.ofMxcsr s.mxcsr) fs.x fs.y fs.z) ld.event n1 f.length s

end Sys2Proof.Machine
end

