-- ==== Sys2Proof/Machine/EvexForms.lean ====
section
/-! DEFINITION. The meanings of the three EVEX-encoded forms (R120 to R129). -/

namespace Sys2Proof.Machine

/-- VFMADD132SS xmm1 with writemask and zeroing, xmm2, xmm3/m32 with embedded rounding (R123). -/
def execVfmadd132ssEvex (f : EvexForm) (s : State) : Result := runEvex .op132 f s

/-- VFMADD213SS, the same (R124). -/
def execVfmadd213ssEvex (f : EvexForm) (s : State) : Result := runEvex .op213 f s

/-- VFMADD231SS, the same (R125). -/
def execVfmadd231ssEvex (f : EvexForm) (s : State) : Result := runEvex .op231 f s

end Sys2Proof.Machine
end

