-- ==== Sys2Proof/Machine/VexForms.lean ====
section
/-! DEFINITION. The meanings of the three VEX-encoded forms (R110 to R114). -/

namespace Sys2Proof.Machine

/-- VFMADD132SS xmm1, xmm2, xmm3/m32 (R111). -/
def execVfmadd132ssVex (f : VexForm) (s : State) : Result := runVex .op132 f s

/-- VFMADD213SS xmm1, xmm2, xmm3/m32 (R112). -/
def execVfmadd213ssVex (f : VexForm) (s : State) : Result := runVex .op213 f s

/-- VFMADD231SS xmm1, xmm2, xmm3/m32 (R113). -/
def execVfmadd231ssVex (f : VexForm) (s : State) : Result := runVex .op231 f s

end Sys2Proof.Machine
end

