-- ==== Sys2Proof/Machine/Dispatch.lean ====
section
/-! DEFINITION. The dispatch: one arm per constructor of Instr, each a direct call of its meaning. -/

namespace Sys2Proof.Machine

/-- The meaning of an instruction. -/
def exec (i : Instr) (s : State) : Host.Outcome State Fault Refusal :=
  match i with
  | .vfmadd132ssVex f => Sys2Proof.Machine.execVfmadd132ssVex f s
  | .vfmadd213ssVex f => Sys2Proof.Machine.execVfmadd213ssVex f s
  | .vfmadd231ssVex f => Sys2Proof.Machine.execVfmadd231ssVex f s
  | .vfmadd132ssEvex f => Sys2Proof.Machine.execVfmadd132ssEvex f s
  | .vfmadd213ssEvex f => Sys2Proof.Machine.execVfmadd213ssEvex f s
  | .vfmadd231ssEvex f => Sys2Proof.Machine.execVfmadd231ssEvex f s

end Sys2Proof.Machine
end

