-- ==== Sys2Proof/Machine/Fetch.lean ====
section
/-! DEFINITION. Fetching an instruction's bytes (R66, R71) and the single-step trap (R209). -/

namespace Sys2Proof.Machine

/-- The linear address of byte `i` of the instruction: the CS base is zero in 64-bit mode (R66) and is added to EIP outside it
(R222). DESIGN CHOICE, log entry 32: an instruction whose bytes pass the last address goes on at address 0, that is `pc + i`
modulo 2^64, and modulo 2^32 outside 64-bit mode. -/
def State.fetchAddress (s : State) (i : Nat) : Word64 :=
  if s.is64 then s.pc + BitVec.ofNat 64 i
  else ((s.csBase + (s.pc.setWidth 32).setWidth 64 + BitVec.ofNat 64 i).setWidth 32).setWidth 64

/-- An address of a range of program bytes. -/
def ProgramRange.contains (r : ProgramRange) (a : Word64) : Bool := decide ((a - r.base).toNat < r.size)

/-- A byte of the supplied program (R61, R207). -/
def State.inProgram (s : State) (a : Word64) : Bool := s.program.any fun r => r.contains a

/-- One instruction byte through the access oracle (R57, R66): the canonical check, then the end of the supplied program bytes
(R207, log entry 34), then the oracle. -/
def fetchByte (s : State) (i : Nat) : Except Stop Byte :=
  let la := s.fetchAddress i
  if s.is64 && !s.canonical la then .error (.raises .gp)
  else if !s.inProgram la then .error (.refuses .endOfProgram)
  else
    match s.fetchStop la with
    | some st => .error st
    | none => .ok (s.mem.read la.toNat)

/-- Up to `n` instruction bytes from byte `i` on, and what stops the fetch before that many. -/
def fetchBytes (s : State) : Nat → Nat → List Byte × Option Stop
  | 0, _ => ([], none)
  | n + 1, i =>
    match fetchByte s i with
    | .error st => ([], some st)
    | .ok b => (b :: (fetchBytes s n (i + 1)).1, (fetchBytes s n (i + 1)).2)

/-- What the machine does with bytes that are not a legal instruction (R87, R90, R98). `stop` is what stopped the fetch: an
instruction that needs a byte beyond it stops there, and one that needs more than 15 bytes raises #GP(0) (R71). DESIGN CHOICE,
log entry 37: so do 15 bytes that do not tell yet whether they are one of the forms (15 legacy bytes, or 14 and C4H). -/
def decodeStop (stop : Option Stop) : DecodeError → Stop
  | .truncated => stop.getD (.raises .gp)
  | .tooLong => .raises .gp
  | .forbiddenLegacy => .raises .ud
  | .reservedBit => .raises .ud
  | .evexSetting => .raises .ud
  | .notRecognised => .raises .ud
  | e => .refuses (.notInSpec e)

/-- The instruction at the program counter: at most 15 bytes, decoded by R87 in the mode of the state. -/
def fetchInstr (s : State) : Except Stop Instr :=
  let fetched := fetchBytes s 15 0
  match decode s.codeMode fetched.1 with
  | .ok (i, _) => .ok i
  | .error e => .error (decodeStop fetched.2 e)

/-- What a step adds around an instruction: with RFLAGS.TF = 1 the single-step trap after it has completed (R209, log entry
11). -/
def afterInstr (tf : Bool) (r : Result) : Result :=
  match r with
  | .next s' => if tf then raise .db s' else .next s'
  | .fault f => .fault f
  | .refused e => .refused e

/-- One step (R12): fetch, decode, execute. -/
def stepOnce (s : State) : Result :=
  match fetchInstr s with
  | .ok i => afterInstr s.tf (exec i s)
  | .error st => st.outcome s

end Sys2Proof.Machine
end

