-- ==== Sys2Proof/Machine/Launch.lean ====
section
/-! DEFINITION. The launch of a program (R221, R223): the premises of a launch state, what system software has done before,
and the placing of an instruction where the machine fetches. -/

namespace Sys2Proof.Machine

/-- Every vector register fits in MAXVL bits (R20). -/
def State.vectorsFit (s : State) : Bool := s.v.toList.all fun w => decide (w.toNat < 2 ^ s.cfg.maxvl.bits)

/-- Every opmask register fits in KW bits (R24). -/
def State.masksFit (s : State) : Bool := s.k.toList.all fun w => decide (w.toNat < 2 ^ s.cfg.kw)

/-- The registers from NVREG up do not exist and hold nothing (R22, D3). -/
def State.absentZero (s : State) : Bool := s.cfg.nvreg == 32 || (s.v.toList.drop 16).all (· == 0#512)

/-- The parameters go together (R5): MAXVL is 512 with AVX512F (D2), and KW is at most 64. -/
def paramsConsistent (p : Params) : Bool :=
  (!p.hasAvx512f || p.maxvl == .v512) && decide (0 < p.kw) && decide (p.kw ≤ 64)

/-- The reserved bits MXCSR[31:16] are zero (R29, R31). -/
def State.mxcsrReservedZero (s : State) : Bool := s.mxcsr.extractLsb' 16 16 == 0#16

/-- The premises of a launch state (R223, R31): a launch that lacks one is not a launch of this machine (U28). -/
def State.wf (s : State) : Bool :=
  s.mem.wf && s.mxcsrReservedZero && s.vectorsFit && s.masksFit && s.absentZero && paramsConsistent s.cfg

/-- What system software has done before a program runs (R221, steps 1 and 3 to 6): CR0.PE and CR0.PG set and CR0.TS clear,
CR4.OSFXSR, OSXMMEXCPT and OSXSAVE set, XCR0 bits 0 to 2 and 5 to 7 set, IA32_EFER.LME and LMA and CS.L set. Nothing else
changes. -/
def State.launch64 (s : State) : State :=
  { s with
    cr0 := (s.cr0 ||| 0x80000001#64) &&& ~~~0x8#64
    cr4 := s.cr4 ||| 0x40600#64
    xcr0 := s.xcr0 ||| 0xE7#64
    efer := s.efer ||| 0x500#64
    csL := true }

/-- INIT, the warm reset (R222): the control state of RESET; the vector registers, MXCSR and XCR0 are left. PRESUMED, log entry
3: the general registers, CR2 and the FS and GS bases get their RESET values; the opmask registers are left like the vector
registers, and with them the parameters, memory, the program and the access oracle. No step performs it. -/
def State.warmReset (s : State) : State :=
  { State.reset with
    cfg := s.cfg
    v := s.v
    k := s.k
    mxcsr := s.mxcsr
    xcr0 := s.xcr0
    mem := s.mem
    program := s.program
    answers := s.answers
    oracle := s.oracle
    reads := s.reads }

/-- Supply program bytes at an address: they are stored and fetched from there on (R61, R223). -/
def State.supply (s : State) (a : Word64) (bs : List Byte) : State :=
  { s.setMem (s.mem.writeBytes a bs) with program := ⟨a, bs.length⟩ :: s.program }

/-- A program whose first instruction is the table's number `w` of `nbits` bits, placed where the machine fetches next. The
table's encodings are those of 64-bit mode, which the machine reaches only through a launch (R36, R221, R223): a machine that
is not in 64-bit mode is launched first, one that is keeps all of its state but the bytes stored and that they are program
bytes (log entry 1). -/
def State.placeWord (s : State) (nbits w : Nat) : State :=
  let t := if s.is64 then s else s.launch64
  t.supply (t.fetchAddress 0) (tableBytes nbits w)

end Sys2Proof.Machine
end

