-- ==== Sys2Proof/Machine/Step.lean ====
section
/-! DEFINITION. The step function and the placing of an instruction where it fetches. -/

namespace Sys2Proof.Machine

/-- One step of the machine (R12). -/
def step (s : State) : Host.Outcome State Fault Refusal := stepOnce s

/-- The state with an instruction of spec/opcode_table.json placed where `step` fetches next (`State.placeWord`). -/
def State.withFetchWord (s : State) (nbits w : Nat) : State := s.placeWord nbits w

end Sys2Proof.Machine
end

