-- ==== Sys2Proof/Safety.lean ====
section
/-! DEFINITION. What counts as a safe run, and the words the statements use. -/

namespace Sys2Proof.Machine

/-- A run of `n` steps in which no step faults or is refused. -/
def State.runsFor (n : Nat) (s : State) : Bool :=
  match Sys2Proof.core.run n s with
  | .next _ => true
  | .fault _ => false
  | .refused _ => false

/-- Everything that no instruction in scope writes is the same in two states: the parameters, the opmask, general, control
and segment state, RFLAGS, memory, the program and the oracle. -/
def State.SameFixed (s t : State) : Prop :=
  t.cfg = s.cfg ∧ t.k = s.k ∧ t.x = s.x ∧ t.rflags = s.rflags ∧ t.cr0 = s.cr0 ∧ t.cr4 = s.cr4 ∧ t.xcr0 = s.xcr0 ∧
    t.efer = s.efer ∧ t.csSel = s.csSel ∧ t.csBase = s.csBase ∧ t.csL = s.csL ∧ t.cs16 = s.cs16 ∧
    t.fsBase = s.fsBase ∧ t.gsBase = s.gsBase ∧ t.mem = s.mem ∧ t.program = s.program ∧
    t.answers = s.answers ∧ t.oracle = s.oracle

/-- The bytes `bs` stand at the program counter and can be fetched: canonical, supplied by the launch and allowed by the oracle
(their addresses go on at 0 after the last one, log entry 32). -/
def State.FetchesBytes (s : State) (bs : List Byte) : Prop :=
  ∀ k, (h : k < bs.length) → fetchByte s k = .ok bs[k]

/-- The number of the destination register of an instruction, n1 (R79, R80). -/
def destination : Instr → BitVec 5
  | .vfmadd132ssVex f => f.dst.setWidth 5
  | .vfmadd213ssVex f => f.dst.setWidth 5
  | .vfmadd231ssVex f => f.dst.setWidth 5
  | .vfmadd132ssEvex f => f.dst
  | .vfmadd213ssEvex f => f.dst
  | .vfmadd231ssEvex f => f.dst

/-- The number of the second operand's register, n2 (R79, R80). -/
def secondRegister : Instr → BitVec 5
  | .vfmadd132ssVex f => f.src2.setWidth 5
  | .vfmadd213ssVex f => f.src2.setWidth 5
  | .vfmadd231ssVex f => f.src2.setWidth 5
  | .vfmadd132ssEvex f => f.src2
  | .vfmadd213ssEvex f => f.src2
  | .vfmadd231ssEvex f => f.src2

/-- The number of the third operand's register, n3, where operand 3 is a register (R79, R80). -/
def Operand3.number (evex : Bool) : Operand3 → Option (BitVec 5)
  | .reg x b rm => some (operand3Number evex x b rm)
  | .mem _ _ _ => none

/-- n3 of an instruction. -/
def thirdRegister : Instr → Option (BitVec 5)
  | .vfmadd132ssVex f => Operand3.number false f.op3
  | .vfmadd213ssVex f => Operand3.number false f.op3
  | .vfmadd231ssVex f => Operand3.number false f.op3
  | .vfmadd132ssEvex f => Operand3.number true f.op3
  | .vfmadd213ssEvex f => Operand3.number true f.op3
  | .vfmadd231ssEvex f => Operand3.number true f.op3

/-- In 64-bit mode `pc + L` neither wraps nor leaves the canonical addresses (R26). -/
def State.PcFits (s : State) (len : Nat) : Prop :=
  s.pc.toNat + len < 2 ^ 64 ∧ s.canonical (s.pc + BitVec.ofNat 64 len) = true

/-- The state lets a VEX form run: no #UD and no #NM (R190). -/
def State.ReadyVex (s : State) : Prop := s.vexUsable = true ∧ s.ts = false

/-- The state lets an EVEX form run: no #UD and no #NM (R191). -/
def State.ReadyEvex (s : State) : Prop := s.evexUsable = true ∧ s.ts = false

/-- The access oracle reports no page fault for a read of the four bytes at a linear address: its answer outright is none, or
without one no byte's page denies the read (R57, R189). -/
def State.NoReadFault (s : State) (la : Word64) : Prop :=
  (∀ code addr, s.answerAt .read la ≠ some (.fault code addr)) ∧
    (s.answerAt .read la = none → ∀ a ∈ operandBytes la, s.pageFaultAt .read a = none)

/-- The four bytes at a linear address can be read: canonical, allowed by the oracle, no device, and aligned where alignment
is checked (R52, R54, R56, R57). -/
def State.OperandReadable (s : State) (la : Word64) : Prop :=
  (∀ a ∈ operandBytes la, s.canonical a = true ∧ (s.attrAt a).device = false) ∧ s.NoReadFault la ∧
    (∀ reason, s.answerAt .read la ≠ some (.refuse reason)) ∧ (s.alignmentChecked = true → la.toNat % 4 = 0)

/-- The state after a completed instruction (R110 steps 5, 7 and 8): the flags are ORed into MXCSR, bits 31:0 of register `n`
are the result, its bits 127:32 are kept and those above are zero, the read event of a memory operand is recorded, the
program counter is behind the instruction, and nothing else changes. -/
def State.completed (s : State) (n : BitVec 5) (low : Single) (fl : FpFlags) (event : Option ReadEvent) (len : Nat) : State :=
  { s with
    v := s.v.set n.toNat (((s.vreg n).extractLsb' 32 96 ++ low).setWidth 512) n.isLt
    mxcsr := s.mxcsr ||| fl.bits.setWidth 32
    pc := s.pc + BitVec.ofNat 64 len
    reads := s.reads ++ event.toList }

/-- The pattern with the other sign. -/
def negated (p : Single) : Single := p ^^^ 0x80000000#32

/-- The rounding mode that does to negative values what the given mode does to positive ones (R162). -/
def Rounding.mirror : Rounding → Rounding
  | .rne => .rne
  | .rd => .ru
  | .ru => .rd
  | .rz => .rz

/-- The same outcome with the sign of the result changed (R162). -/
def FmaOutcome.mirror : FmaOutcome → FmaOutcome
  | .done res fl => .done (negated res) fl
  | .stopped fl => .stopped fl

end Sys2Proof.Machine
end

