-- ==== Sys2Proof/Certificates/Slice0/Obligations.lean ====
section
/-! DEFINITION. The statements for the provers. -/

open Sys2Proof Sys2Proof.Machine

/-! ### Decoding and encoding -/

/-- Rests on R71 to R91: in 64-bit mode the decoder reads every well-formed instruction back from its encoding, whatever
follows it. -/
def Obligations.DecodeReadsTheEncoding : Prop :=
  ∀ (i : Instr) (rest : List Byte), i.wf = true → decode .long64 (encode i ++ rest) = .ok (i, rest)

/-- Rests on R87 and R98: in every mode, what decodes is the encoding of a well-formed instruction and nothing else. -/
def Obligations.DecodedBytesAreTheEncoding : Prop :=
  ∀ (m : CodeMode) (bytes : List Byte) (i : Instr) (rest : List Byte),
    decode m bytes = .ok (i, rest) → i.wf = true ∧ bytes = encode i ++ rest

/-- The examples of R79, R80, R81 and R123, byte by byte. -/
def Obligations.ExamplesDecode : Prop :=
  decode .long64 [0xC4#8, 0x42#8, 0x01#8, 0x99#8, 0xC1#8] =
      .ok (.vfmadd132ssVex ⟨[], false, 8#4, 15#4, .reg false true 1#3⟩, []) ∧
    decode .long64 [0xC4#8, 0xE2#8, 0x71#8, 0xA9#8, 0x47#8, 0x04#8] =
      .ok (.vfmadd213ssVex ⟨[], false, 0#4, 1#4, .mem false false (.base 7#3 (.disp8 4#8))⟩, []) ∧
    decode .long64 [0x62#8, 0x02#8, 0x0D#8, 0xD7#8, 0xB9#8, 0xFD#8] =
      .ok (.vfmadd231ssEvex ⟨[], 31#5, 30#5, .reg true true 5#3, 7#3, true, true, 2#2⟩, []) ∧
    decode .long64 [0x62#8, 0xF2#8, 0x75#8, 0x89#8, 0x99#8, 0xC2#8] =
      .ok (.vfmadd132ssEvex ⟨[], 0#5, 1#5, .reg false false 2#3, 1#3, true, false, 0#2⟩, [])

/-- Rests on R76 and R84: VEX.L, VEX.X of a register form and EVEX.L'L without `b` (11b apart) change nothing. -/
def Obligations.LengthBitsChangeNothing : Prop :=
  (∀ (f : VexForm) (l : Bool) (s : State),
    exec (.vfmadd132ssVex { f with l := l }) s = exec (.vfmadd132ssVex f) s ∧
      exec (.vfmadd213ssVex { f with l := l }) s = exec (.vfmadd213ssVex f) s ∧
      exec (.vfmadd231ssVex { f with l := l }) s = exec (.vfmadd231ssVex f) s) ∧
  (∀ (f : VexForm) (x x' b : Bool) (rm : BitVec 3) (s : State),
    exec (.vfmadd132ssVex { f with op3 := .reg x b rm }) s = exec (.vfmadd132ssVex { f with op3 := .reg x' b rm }) s ∧
      exec (.vfmadd213ssVex { f with op3 := .reg x b rm }) s = exec (.vfmadd213ssVex { f with op3 := .reg x' b rm }) s ∧
      exec (.vfmadd231ssVex { f with op3 := .reg x b rm }) s =
        exec (.vfmadd231ssVex { f with op3 := .reg x' b rm }) s) ∧
  (∀ (f : EvexForm) (ll : BitVec 2) (s : State), f.b = false → f.ll ≠ 3#2 → ll ≠ 3#2 →
    exec (.vfmadd132ssEvex { f with ll := ll }) s = exec (.vfmadd132ssEvex f) s ∧
      exec (.vfmadd213ssEvex { f with ll := ll }) s = exec (.vfmadd213ssEvex f) s ∧
      exec (.vfmadd231ssEvex { f with ll := ll }) s = exec (.vfmadd231ssEvex f) s)

/-- Rests on R92, R87, R186, R190 and R191: one of the instructions preceded, among any legacy and REX bytes, by LOCK, 66H, F2H
or F3H, or with a REX byte immediately before the VEX or EVEX prefix (a REX byte further away and no other of these is left out:
log entry 16). -/
def Obligations.ForbiddenLegacyByteRaisesUD : Prop :=
  ∀ (s : State) (before : List Byte) (i : Instr), s.is64 = true → i.wf = true →
    let forbidden := fun p : Byte => p = 0xF0#8 ∨ p = 0x66#8 ∨ p = 0xF2#8 ∨ p = 0xF3#8
    let rex := fun p : Byte => 0x40#8 ≤ p ∧ p ≤ 0x4F#8
    (∀ p ∈ before, (∃ q : LegacyByte, p = q.toByte) ∨ forbidden p ∨ rex p) →
    ((∃ p ∈ before, forbidden p) ∨ (i.legacy = [] ∧ ∃ p, before.getLast? = some p ∧ rex p)) →
    before.length + i.size ≤ 15 → s.FetchesBytes (before ++ encode i) →
    step s = .fault (.exception .ud s) ∧ Exception.ud.vector = 6

/-- R91: an EVEX form whose P0 and P1 are as they should be but for bit 3 of P0 set, bit 2 of P1 clear, or both; its bytes do
not pass the last address. -/
def Obligations.ReservedEvexBitRaisesUD : Prop :=
  ∀ (s : State) (o : Opcode) (f : EvexForm) (p0 p1 : Byte), s.is64 = true → f.wf = true → s.pc.toNat + f.size ≤ 2 ^ 64 →
    p0 &&& 0xF7#8 = f.p0 &&& 0xF7#8 → p1 &&& 0xFB#8 = f.p1 &&& 0xFB#8 → (p0.getLsbD 3 = true ∨ p1.getLsbD 2 = false) →
    s.FetchesBytes (f.legacy.map LegacyByte.toByte ++
      0x62#8 :: p0 :: p1 :: f.p2 :: o.toByte :: modRMBytes (f.dst.extractLsb' 0 3) f.op3) →
    step s = .fault (.exception .ud s)

/-- Rests on R84 and R85: `b` with a memory operand, L'L = 11b without `b`, `z` without a writemask. -/
def Obligations.IllegalEvexSettingRaisesUD : Prop :=
  ∀ (s : State) (o : Opcode) (f : EvexForm), s.is64 = true → f.op3.wf = true → f.size ≤ 15 →
    ((f.b = true ∧ ∃ x b a, f.op3 = .mem x b a) ∨ (f.b = false ∧ f.ll = 3#2) ∨ (f.z = true ∧ f.aaa = 0#3)) →
    s.FetchesBytes (encodeEvex o.toByte f) → step s = .fault (.exception .ud s)

/-- Rests on R71: redundant legacy bytes that make an instruction longer than 15 bytes; only 15 are fetched. That this holds too where the 15 bytes do not tell yet what the instruction
is, is log entry 37. -/
def Obligations.TooLongRaisesGP : Prop :=
  ∀ (s : State) (before : List LegacyByte) (i : Instr), s.is64 = true → i.wf = true → 15 < before.length + i.size →
    s.FetchesBytes ((before.map LegacyByte.toByte ++ encode i).take 15) →
    step s = .fault (.exception .gp s) ∧ Exception.gp.vector = 13 ∧ Exception.gp.errorCode = some 0#32

/-- Rests on R4, R73, R75, R78, R87, R90, R96, R97 and R98: W = 1, another map and another pp (seen before the opcode byte is
fetched), another opcode byte, outside 64-bit mode LES, BOUND and (where VEX and EVEX are recognised) a memory form with the
16-bit ModRM table, and another first byte (C5H among them) are refused, never executed and never an exception, whatever the
bytes after those named are and whether or not they can be fetched. That such bytes are refused before a later one is fetched
is log entry 18; that real-address and virtual-8086 mode have LES and BOUND as 32-bit mode does is log entry 28. -/
def Obligations.NeighboursAreRefused : Prop :=
  ∀ (s : State) (legacy : List LegacyByte),
    let before := legacy.map LegacyByte.toByte
    (∀ q0 q1 : Byte, legacy.length + 3 ≤ 15 → s.FetchesBytes (before ++ [0xC4#8, q0, q1]) →
      (q0.extractLsb' 0 5 ≠ 2#5 ∨ q1.getLsbD 7 = true ∨ q1.extractLsb' 0 2 ≠ 1#2) →
      ∃ why, step s = .refused (.notInSpec why)) ∧
    (∀ q0 q1 q2 : Byte, legacy.length + 4 ≤ 15 → s.FetchesBytes (before ++ [0x62#8, q0, q1, q2]) →
      (q0.extractLsb' 0 3 ≠ 2#3 ∨ q1.getLsbD 7 = true ∨ q1.extractLsb' 0 2 ≠ 1#2) →
      ∃ why, step s = .refused (.notInSpec why)) ∧
    (∀ q0 q1 op : Byte, legacy.length + 4 ≤ 15 → s.FetchesBytes (before ++ [0xC4#8, q0, q1, op]) →
      (op ≠ 0x99#8 ∧ op ≠ 0xA9#8 ∧ op ≠ 0xB9#8) → ∃ why, step s = .refused (.notInSpec why)) ∧
    (∀ q0 q1 q2 op : Byte, legacy.length + 5 ≤ 15 → s.FetchesBytes (before ++ [0x62#8, q0, q1, q2, op]) →
      (op ≠ 0x99#8 ∧ op ≠ 0xA9#8 ∧ op ≠ 0xB9#8) → ∃ why, step s = .refused (.notInSpec why)) ∧
    (∀ c q0 : Byte, s.is64 = false → legacy.length + 2 ≤ 15 → (c = 0xC4#8 ∨ c = 0x62#8) →
      s.FetchesBytes (before ++ [c, q0]) → q0.extractLsb' 6 2 ≠ 3#2 → step s = .refused (.notInSpec .lesOrBound)) ∧
    (∀ q0 q1 op modrm : Byte, s.mode = .protected32 → s.cs16 ≠ legacy.contains .addrSize → legacy.length + 5 ≤ 15 →
      s.FetchesBytes (before ++ [0xC4#8, q0, q1, op, modrm]) → modrm.extractLsb' 6 2 ≠ 3#2 →
      ∃ why, step s = .refused (.notInSpec why)) ∧
    (∀ q0 q1 q2 op modrm : Byte, s.mode = .protected32 → s.cs16 ≠ legacy.contains .addrSize → legacy.length + 6 ≤ 15 →
      s.FetchesBytes (before ++ [0x62#8, q0, q1, q2, op, modrm]) → modrm.extractLsb' 6 2 ≠ 3#2 →
      ∃ why, step s = .refused (.notInSpec why)) ∧
    (∀ c : Byte, legacy.length + 1 ≤ 15 → s.FetchesBytes (before ++ [c]) → c ≠ 0xC4#8 → c ≠ 0x62#8 →
      (∀ p : LegacyByte, c ≠ p.toByte) → (c ≠ 0xF0#8 ∧ c ≠ 0x66#8 ∧ c ≠ 0xF2#8 ∧ c ≠ 0xF3#8) →
      (s.is64 = true → ¬ (0x40#8 ≤ c ∧ c ≤ 0x4F#8)) → ∃ why, step s = .refused (.notInSpec why))

/-! ### A step -/

/-- Rests on R12, R66 and R209: where the bytes at the program counter decode to an instruction and are all that it has, a step
is `exec` of it, followed by the single-step trap when RFLAGS.TF = 1 (that this is a fault outcome is log entry 11;
the addresses of bytes past the last address are log entry 32). -/
def Obligations.StepRunsTheDecodedInstruction : Prop :=
  ∀ (s : State) (bytes : List Byte) (i : Instr), decode s.codeMode bytes = .ok (i, []) → s.FetchesBytes bytes →
    (s.tf = false → step s = exec i s) ∧
      (s.tf = true → ∀ t, exec i s = .next t → step s = .fault (.exception .db t)) ∧
      (s.tf = true → (∀ t, exec i s ≠ .next t) → step s = exec i s)

/-- Rests on R66, R57, R189, R207 and R54: a byte of the instruction that cannot be fetched stops the step before anything else
of the instruction happens: #GP(0) at a non-canonical address, the refusal at the end of the program bytes, the fault or the
refusal that the oracle answers, or a device. The page-fault code of a page has I/D set, W/R clear and U/S set exactly at CPL 3,
and CR2 holds the address. Log entries 8 and 10; that a device refuses a fetch, after the oracle's answer, is log entry 24; that the end of the program comes before the oracle is log entry 34, and the
address of a byte past the last address is log entry 32. -/
def Obligations.FetchFaultComesFirst : Prop :=
  ∀ (s : State) (i : Instr) (k : Nat), s.is64 = true → i.wf = true → k < i.size →
    (∀ j, j < k → ∃ b, (encode i)[j]? = some b ∧ fetchByte s j = .ok b) →
    let a := s.pc + BitVec.ofNat 64 k
    (s.canonical a = false → step s = .fault (.exception .gp s)) ∧
    (s.canonical a = true → s.inProgram a = false → step s = .refused .endOfProgram) ∧
    (s.canonical a = true → s.inProgram a = true →
      (∀ code addr, s.answerAt .fetch a = some (.fault code addr) →
        step s = .fault (.exception (.pf code (addr.getD a)) { s with cr2 := addr.getD a })) ∧
      (∀ reason, s.answerAt .fetch a = some (.refuse reason) → step s = .refused (.oracleRefuses reason)) ∧
      (s.answerAt .fetch a = none → ∀ code, s.pageFaultAt .fetch a = some code →
        step s = .fault (.exception (.pf code a) { s with cr2 := a }) ∧
          code.getLsbD 4 = true ∧ code.getLsbD 1 = false ∧ code.getLsbD 2 = (s.cpl == 3#2)) ∧
      ((s.answerAt .fetch a = some .ok ∨ s.answerAt .fetch a = none ∧ s.pageFaultAt .fetch a = none) →
        (s.attrAt a).device = true → step s = .refused .deviceMemory))

/-! ### Reset and launch -/

/-- The reset values that R36 and R222 give. -/
def Obligations.ResetValues : Prop :=
  (∀ n, State.reset.vreg n = 0#512) ∧ (∀ n, State.reset.k.get n = 0#64) ∧
    (∀ n, n ≠ 2#4 → State.reset.gpr false n = 0#64) ∧ State.reset.mxcsr = 0x00001F80#32 ∧
    State.reset.pc = 0x0000FFF0#64 ∧ State.reset.csSel = 0xF000#16 ∧ State.reset.csBase = 0xFFFF0000#64 ∧
    State.reset.rflags = 0x00000002#64 ∧ State.reset.cr0 = 0x60000010#64 ∧ State.reset.cr4 = 0#64 ∧
    State.reset.xcr0 = 1#64 ∧ State.reset.fsBase = 0#64 ∧ State.reset.gsBase = 0#64 ∧
    State.reset.mode = .realAddress ∧ State.reset.cpl = 0#2

/-- Rests on R36: in the reset state every form raises #UD. -/
def Obligations.ResetRaisesUD : Prop :=
  ∀ i : Instr, exec i State.reset = .fault (.exception .ud State.reset)

/-- Rests on R221: after what system software does first, the forms whose CPUID flag is set run in 64-bit mode (the places
of the control bits that the spec does not number are log entry 5, and that they make 64-bit mode whatever the other bits are,
RFLAGS.VM among them, is log entry 33). -/
def Obligations.LaunchEnablesTheForms : Prop :=
  ∀ s : State, s.launch64.is64 = true ∧ s.launch64.osxmmexcpt = true ∧
    (s.cfg.hasFma = true → s.launch64.ReadyVex) ∧ (s.cfg.hasAvx512f = true → s.launch64.ReadyEvex)

/-! ### Availability -/

/-- Rests on R186, R190, R191, R198, R4 and R205: the state-time causes of #UD, whatever CR0.TS, the operands and memory are (the
mode bits are log entries 5 and 33); and in real-address and virtual-8086 mode a step at the prefix and opcode bytes of a form
raises #UD, whatever follows them and whether or not it can be fetched (log entry 28). -/
def Obligations.UnavailableRaisesUD : Prop :=
  ∀ s : State,
    (s.mode = .realAddress ∨ s.mode = .virtual8086 ∨ s.cr4.getLsbD 18 = false ∨ s.xcr0.extractLsb' 1 2 ≠ 3#2 ∨
        s.cfg.hasFma = false →
      ∀ f : VexForm, exec (.vfmadd132ssVex f) s = .fault (.exception .ud s) ∧
        exec (.vfmadd213ssVex f) s = .fault (.exception .ud s) ∧ exec (.vfmadd231ssVex f) s = .fault (.exception .ud s)) ∧
    (s.mode = .realAddress ∨ s.mode = .virtual8086 ∨ s.cr4.getLsbD 18 = false ∨ s.xcr0.extractLsb' 1 2 ≠ 3#2 ∨
        s.xcr0.extractLsb' 5 3 ≠ 7#3 ∨ s.cfg.hasAvx512f = false →
      ∀ f : EvexForm, exec (.vfmadd132ssEvex f) s = .fault (.exception .ud s) ∧
        exec (.vfmadd213ssEvex f) s = .fault (.exception .ud s) ∧ exec (.vfmadd231ssEvex f) s = .fault (.exception .ud s)) ∧
    (s.mode = .realAddress ∨ s.mode = .virtual8086 →
      (∀ (o : Opcode) (f : VexForm), f.p1.extractLsb' 6 2 = 3#2 → f.legacy.length + 4 ≤ 15 →
        s.FetchesBytes (f.legacy.map LegacyByte.toByte ++ [0xC4#8, f.p1, f.p2, o.toByte]) →
        step s = .fault (.exception .ud s)) ∧
      (∀ (o : Opcode) (f : EvexForm), f.p0.extractLsb' 6 2 = 3#2 → f.legacy.length + 5 ≤ 15 →
        s.FetchesBytes (f.legacy.map LegacyByte.toByte ++ [0x62#8, f.p0, f.p1, f.p2, o.toByte]) →
        step s = .fault (.exception .ud s)))

/-- R187: every form that raises no #UD raises #NM when CR0.TS = 1, without an error code; CR0.EM (bit 2) is not tested: with it
inverted every instruction has the same outcome. -/
def Obligations.TaskSwitchedRaisesNM : Prop :=
  (∀ s : State, s.cr0.getLsbD 3 = true →
    (s.vexUsable = true → ∀ f : VexForm, exec (.vfmadd132ssVex f) s = .fault (.exception .nm s) ∧
      exec (.vfmadd213ssVex f) s = .fault (.exception .nm s) ∧ exec (.vfmadd231ssVex f) s = .fault (.exception .nm s)) ∧
    (s.evexUsable = true → ∀ f : EvexForm, f.legal = true → exec (.vfmadd132ssEvex f) s = .fault (.exception .nm s) ∧
      exec (.vfmadd213ssEvex f) s = .fault (.exception .nm s) ∧ exec (.vfmadd231ssEvex f) s = .fault (.exception .nm s))) ∧
  Exception.nm.vector = 7 ∧ Exception.nm.errorCode = none ∧
  (∀ (i : Instr) (s t : State),
    (exec i s = .next t → exec i { s with cr0 := s.cr0 ^^^ 4#64 } = .next { t with cr0 := s.cr0 ^^^ 4#64 }) ∧
    (∀ e, exec i s = .fault (.exception e t) →
      exec i { s with cr0 := s.cr0 ^^^ 4#64 } = .fault (.exception e { t with cr0 := s.cr0 ^^^ 4#64 })) ∧
    (∀ r, exec i s = .refused r → exec i { s with cr0 := s.cr0 ^^^ 4#64 } = .refused r))

/-! ### Results of the VEX forms -/

/-- Rests on R110 to R113: the register forms in 64-bit mode, where no unmasked condition is detected. -/
def Obligations.VexRegisterResult : Prop :=
  ∀ (f : VexForm) (x b : Bool) (rm : BitVec 3) (s : State) (res : Single) (fl : FpFlags),
    f.op3 = .reg x b rm → s.is64 = true → s.ReadyVex → s.PcFits f.size →
    let d := s.low (f.dst.setWidth 5)
    let s2 := s.low (f.src2.setWidth 5)
    let s3 := s.low (0#1 ++ BitVec.ofBool b ++ rm)
    (fma32 s.cfg.switches (.ofMxcsr s.mxcsr) d s3 s2 = .done res fl →
      exec (.vfmadd132ssVex f) s = .next (s.completed (f.dst.setWidth 5) res fl none f.size)) ∧
    (fma32 s.cfg.switches (.ofMxcsr s.mxcsr) s2 d s3 = .done res fl →
      exec (.vfmadd213ssVex f) s = .next (s.completed (f.dst.setWidth 5) res fl none f.size)) ∧
    (fma32 s.cfg.switches (.ofMxcsr s.mxcsr) s2 s3 d = .done res fl →
      exec (.vfmadd231ssVex f) s = .next (s.completed (f.dst.setWidth 5) res fl none f.size))

/-- Rests on R110 to R113, R50 to R53, R56, R57 and R81 to R83: the memory forms in 64-bit mode with a readable operand, where no
unmasked condition is detected. That a misaligned read is recorded as one event is log entry 22; that an operand at the last
three addresses goes on at address 0 is log entry 23. -/
def Obligations.VexMemoryResult : Prop :=
  ∀ (f : VexForm) (x b : Bool) (a : Addr) (s : State) (res : Single) (fl : FpFlags),
    f.op3 = .mem x b a → s.is64 = true → s.ReadyVex → s.PcFits f.size →
    let la := linearAddress s false f.legacy x b f.size a
    let d := s.low (f.dst.setWidth 5)
    let s2 := s.low (f.src2.setWidth 5)
    let s3 := s.mem.read32 la
    let event := if la.toNat % 4 = 0 then ReadEvent.word la s3 else ReadEvent.split la s3
    s.OperandReadable la →
    (fma32 s.cfg.switches (.ofMxcsr s.mxcsr) d s3 s2 = .done res fl →
      exec (.vfmadd132ssVex f) s = .next (s.completed (f.dst.setWidth 5) res fl (some event) f.size)) ∧
    (fma32 s.cfg.switches (.ofMxcsr s.mxcsr) s2 d s3 = .done res fl →
      exec (.vfmadd213ssVex f) s = .next (s.completed (f.dst.setWidth 5) res fl (some event) f.size)) ∧
    (fma32 s.cfg.switches (.ofMxcsr s.mxcsr) s2 s3 d = .done res fl →
      exec (.vfmadd231ssVex f) s = .next (s.completed (f.dst.setWidth 5) res fl (some event) f.size))

/-! ### Results of the EVEX forms -/

/-- Rests on R120 to R125: the register forms without static rounding, the element active, in 64-bit mode, where no unmasked
condition is detected. -/
def Obligations.EvexRegisterResult : Prop :=
  ∀ (f : EvexForm) (x b : Bool) (rm : BitVec 3) (s : State) (res : Single) (fl : FpFlags),
    f.op3 = .reg x b rm → f.legal = true → f.b = false → (f.aaa = 0#3 ∨ s.maskBit f.aaa = true) →
    s.is64 = true → s.ReadyEvex → s.PcFits f.size →
    let d := s.low f.dst
    let s2 := s.low f.src2
    let s3 := s.low (BitVec.ofBool x ++ BitVec.ofBool b ++ rm)
    (fma32 s.cfg.switches (.ofMxcsr s.mxcsr) d s3 s2 = .done res fl →
      exec (.vfmadd132ssEvex f) s = .next (s.completed f.dst res fl none f.size)) ∧
    (fma32 s.cfg.switches (.ofMxcsr s.mxcsr) s2 d s3 = .done res fl →
      exec (.vfmadd213ssEvex f) s = .next (s.completed f.dst res fl none f.size)) ∧
    (fma32 s.cfg.switches (.ofMxcsr s.mxcsr) s2 s3 d = .done res fl →
      exec (.vfmadd231ssEvex f) s = .next (s.completed f.dst res fl none f.size))

/-- Rests on R120 to R125, R50 to R53, R56, R57 and R81 to R83: the memory forms, the element active, in 64-bit mode with a
readable operand, where no unmasked condition is detected. That a misaligned read is recorded as one event is log entry 22;
that an operand at the last three addresses goes on at address 0 is log entry 23. -/
def Obligations.EvexMemoryResult : Prop :=
  ∀ (f : EvexForm) (x b : Bool) (a : Addr) (s : State) (res : Single) (fl : FpFlags),
    f.op3 = .mem x b a → f.legal = true → (f.aaa = 0#3 ∨ s.maskBit f.aaa = true) →
    s.is64 = true → s.ReadyEvex → s.PcFits f.size →
    let la := linearAddress s true f.legacy x b f.size a
    let d := s.low f.dst
    let s2 := s.low f.src2
    let s3 := s.mem.read32 la
    let event := if la.toNat % 4 = 0 then ReadEvent.word la s3 else ReadEvent.split la s3
    s.OperandReadable la →
    (fma32 s.cfg.switches (.ofMxcsr s.mxcsr) d s3 s2 = .done res fl →
      exec (.vfmadd132ssEvex f) s = .next (s.completed f.dst res fl (some event) f.size)) ∧
    (fma32 s.cfg.switches (.ofMxcsr s.mxcsr) s2 d s3 = .done res fl →
      exec (.vfmadd213ssEvex f) s = .next (s.completed f.dst res fl (some event) f.size)) ∧
    (fma32 s.cfg.switches (.ofMxcsr s.mxcsr) s2 s3 d = .done res fl →
      exec (.vfmadd231ssEvex f) s = .next (s.completed f.dst res fl (some event) f.size))

/-- Rests on R121 and R127: static rounding. Whatever MXCSR holds, the instruction completes in the mode EVEX.RC with the masked
response and leaves MXCSR as it was. -/
def Obligations.StaticRoundingResult : Prop :=
  ∀ (f : EvexForm) (x b : Bool) (rm : BitVec 3) (s : State),
    f.op3 = .reg x b rm → f.legal = true → f.b = true → (f.aaa = 0#3 ∨ s.maskBit f.aaa = true) →
    s.is64 = true → s.ReadyEvex → s.PcFits f.size →
    let c : FpControl := ⟨.ofBits f.ll, s.mxcsr.getLsbD 6, s.mxcsr.getLsbD 15, ⟨true, true, true, true, true⟩⟩
    let d := s.low f.dst
    let s2 := s.low f.src2
    let s3 := s.low (BitVec.ofBool x ++ BitVec.ofBool b ++ rm)
    (∃ res fl, fma32 s.cfg.switches c d s3 s2 = .done res fl ∧
      exec (.vfmadd132ssEvex f) s = .next (s.completed f.dst res {} none f.size)) ∧
    (∃ res fl, fma32 s.cfg.switches c s2 d s3 = .done res fl ∧
      exec (.vfmadd213ssEvex f) s = .next (s.completed f.dst res {} none f.size)) ∧
    (∃ res fl, fma32 s.cfg.switches c s2 s3 d = .done res fl ∧
      exec (.vfmadd231ssEvex f) s = .next (s.completed f.dst res {} none f.size))

/-- Rests on R126 and R65: a masked-off element, register or memory form, whatever the operands, the operand's address and MXCSR
are: bits 31:0 are kept or cleared, bits 127:32 are kept, the bits above become 0, no flag and no access. -/
def Obligations.MaskedOffResult : Prop :=
  ∀ (f : EvexForm) (s : State), f.legal = true → f.aaa ≠ 0#3 → s.maskBit f.aaa = false →
    s.is64 = true → s.ReadyEvex → s.PcFits f.size →
    let t := s.completed f.dst (if f.z then 0#32 else s.low f.dst) {} none f.size
    exec (.vfmadd132ssEvex f) s = .next t ∧ exec (.vfmadd213ssEvex f) s = .next t ∧ exec (.vfmadd231ssEvex f) s = .next t

/-- R122: with bit 0 of the opmask register set the element is computed as without a writemask; with it clear the element is
masked off, so that the operands' values do not matter; bits 1 and up of every opmask register are ignored. -/
def Obligations.MaskTestReadsBitZero : Prop :=
  (∀ (f : EvexForm) (s : State), f.legal = true → f.aaa ≠ 0#3 → s.maskBit f.aaa = true →
    exec (.vfmadd132ssEvex f) s = exec (.vfmadd132ssEvex { f with aaa := 0#3, z := false }) s ∧
      exec (.vfmadd213ssEvex f) s = exec (.vfmadd213ssEvex { f with aaa := 0#3, z := false }) s ∧
      exec (.vfmadd231ssEvex f) s = exec (.vfmadd231ssEvex { f with aaa := 0#3, z := false }) s) ∧
  (∀ (o : Opcode) (f : EvexForm) (s t : State), f.legal = true → f.aaa ≠ 0#3 → s.maskBit f.aaa = false →
    exec (.ofEvex o f) s = .next t →
    t.low (s.regNumber f.dst) = (if f.z then 0#32 else s.low (s.regNumber f.dst)) ∧ t.mxcsr = s.mxcsr ∧ t.reads = s.reads) ∧
  (∀ (i : Instr) (s t : State) (k : Vector Word64 8), (∀ n, (k.get n).getLsbD 0 = (s.k.get n).getLsbD 0) →
    exec i s = .next t → exec i { s with k := k } = .next { t with k := k })

/-- Rests on R129: an EVEX form with no writemask, no `b` and registers below 16 does what the VEX form does on the same
operands, the program counter apart. -/
def Obligations.EvexAgreesWithVex : Prop :=
  ∀ (o : Opcode) (f : VexForm) (e : EvexForm) (s : State),
    e.legal = true → e.aaa = 0#3 → e.b = false → e.dst = f.dst.setWidth 5 → e.src2 = f.src2.setWidth 5 →
    ((∃ x b rm, f.op3 = .reg x b rm ∧ e.op3 = .reg false b rm) ∨
      (∃ x b a x' b' a', f.op3 = .mem x b a ∧ e.op3 = .mem x' b' a' ∧
        usesStack f.legacy b a = usesStack e.legacy b' a' ∧
        linearAddress s false f.legacy x b f.size a = linearAddress s true e.legacy x' b' e.size a')) →
    s.is64 = true → s.ReadyVex → s.ReadyEvex → s.PcFits e.size → s.PcFits f.size →
    (∀ t, exec (.ofVex o f) s = .next t → exec (.ofEvex o e) s = .next { t with pc := s.pc + BitVec.ofNat 64 e.size }) ∧
      (∀ r, exec (.ofVex o f) s = .fault r → exec (.ofEvex o e) s = .fault r) ∧
      (∀ r, exec (.ofVex o f) s = .refused r → exec (.ofEvex o e) s = .refused r)

/-- Rests on R114: with one register as all three operands the three VEX forms do the same. -/
def Obligations.SameRegisterFormsAgree : Prop :=
  ∀ (f : VexForm) (x b : Bool) (rm : BitVec 3) (s : State),
    f.op3 = .reg x b rm → f.dst = f.src2 → f.dst = BitVec.ofBool b ++ rm →
    exec (.vfmadd132ssVex f) s = exec (.vfmadd213ssVex f) s ∧ exec (.vfmadd213ssVex f) s = exec (.vfmadd231ssVex f) s

/-- Rests on R30, R203, R110 and R120: with all six masks set, every register form of the six instructions completes (in 64-bit
mode, the form available and legal). Bits 31:0 of the destination and the flags are those that `fma32` gives under MXCSR, for a
VEX form and for an EVEX form without static rounding whose element is active. -/
def Obligations.MaskedFormsComplete : Prop :=
  (∀ (f : VexForm) (x b : Bool) (rm : BitVec 3) (s : State), f.op3 = .reg x b rm → s.is64 = true → s.ReadyVex →
    s.PcFits f.size → s.mxcsr.extractLsb' 7 6 = 0x3F#6 →
    let fma := fma32 s.cfg.switches (.ofMxcsr s.mxcsr)
    let d := s.low (f.dst.setWidth 5)
    let s2 := s.low (f.src2.setWidth 5)
    let s3 := s.low (0#1 ++ BitVec.ofBool b ++ rm)
    let completes := fun (i : Instr) (res : Single) (fl : FpFlags) =>
      exec i s = .next (s.completed (f.dst.setWidth 5) res fl none f.size)
    (∃ res fl, fma d s3 s2 = .done res fl ∧ completes (.vfmadd132ssVex f) res fl) ∧
      (∃ res fl, fma s2 d s3 = .done res fl ∧ completes (.vfmadd213ssVex f) res fl) ∧
      (∃ res fl, fma s2 s3 d = .done res fl ∧ completes (.vfmadd231ssVex f) res fl)) ∧
  (∀ (f : EvexForm) (x b : Bool) (rm : BitVec 3) (s : State), f.op3 = .reg x b rm → f.legal = true → s.is64 = true →
    s.ReadyEvex → s.PcFits f.size → s.mxcsr.extractLsb' 7 6 = 0x3F#6 →
    let byMxcsr := f.b = false ∧ (f.aaa = 0#3 ∨ s.maskBit f.aaa = true)
    let fma := fma32 s.cfg.switches (.ofMxcsr s.mxcsr)
    let d := s.low f.dst
    let s2 := s.low f.src2
    let s3 := s.low (BitVec.ofBool x ++ BitVec.ofBool b ++ rm)
    let completes := fun (i : Instr) (res : Single) (fl : FpFlags) =>
      exec i s = .next (s.completed f.dst res fl none f.size)
    (∃ res fl, (byMxcsr → fma d s3 s2 = .done res fl) ∧ completes (.vfmadd132ssEvex f) res fl) ∧
      (∃ res fl, (byMxcsr → fma s2 d s3 = .done res fl) ∧ completes (.vfmadd213ssEvex f) res fl) ∧
      (∃ res fl, (byMxcsr → fma s2 s3 d = .done res fl) ∧ completes (.vfmadd231ssEvex f) res fl))

/-- Rests on R26, R28, R65, R96, R186, R110 to R113 and R120 to R127: in 32-bit mode the register forms, with MXCSR rounding and
with static rounding, and the masked-off element run on registers 0 to 7, whatever the bits that would select others are, and
EIP advances; a memory operand that is accessed is refused, with its effective address. Log entry 15: that the bits are ignored and that the operand is
refused are choices R96 and R4 leave. -/
def Obligations.ThirtyTwoBitRegisterResult : Prop :=
  (∀ (f : VexForm) (x b : Bool) (rm : BitVec 3) (s : State) (res : Single) (fl : FpFlags),
    f.op3 = .reg x b rm → s.mode = .protected32 → s.ReadyVex → s.pc.toNat + f.size < 2 ^ 32 →
    let n1 : BitVec 5 := (f.dst.extractLsb' 0 3).setWidth 5
    let d := s.low n1
    let s2 := s.low ((f.src2.extractLsb' 0 3).setWidth 5)
    let s3 := s.low (rm.setWidth 5)
    (fma32 s.cfg.switches (.ofMxcsr s.mxcsr) d s3 s2 = .done res fl →
      exec (.vfmadd132ssVex f) s = .next (s.completed n1 res fl none f.size)) ∧
    (fma32 s.cfg.switches (.ofMxcsr s.mxcsr) s2 d s3 = .done res fl →
      exec (.vfmadd213ssVex f) s = .next (s.completed n1 res fl none f.size)) ∧
    (fma32 s.cfg.switches (.ofMxcsr s.mxcsr) s2 s3 d = .done res fl →
      exec (.vfmadd231ssVex f) s = .next (s.completed n1 res fl none f.size))) ∧
  (∀ (f : EvexForm) (x b : Bool) (rm : BitVec 3) (s : State) (res : Single) (fl : FpFlags),
    f.op3 = .reg x b rm → f.legal = true → f.b = false → (f.aaa = 0#3 ∨ s.maskBit f.aaa = true) →
    s.mode = .protected32 → s.ReadyEvex → s.pc.toNat + f.size < 2 ^ 32 →
    let n1 : BitVec 5 := (f.dst.extractLsb' 0 3).setWidth 5
    let d := s.low n1
    let s2 := s.low ((f.src2.extractLsb' 0 3).setWidth 5)
    let s3 := s.low (rm.setWidth 5)
    (fma32 s.cfg.switches (.ofMxcsr s.mxcsr) d s3 s2 = .done res fl →
      exec (.vfmadd132ssEvex f) s = .next (s.completed n1 res fl none f.size)) ∧
    (fma32 s.cfg.switches (.ofMxcsr s.mxcsr) s2 d s3 = .done res fl →
      exec (.vfmadd213ssEvex f) s = .next (s.completed n1 res fl none f.size)) ∧
    (fma32 s.cfg.switches (.ofMxcsr s.mxcsr) s2 s3 d = .done res fl →
      exec (.vfmadd231ssEvex f) s = .next (s.completed n1 res fl none f.size))) ∧
  (∀ (f : EvexForm) (x b : Bool) (rm : BitVec 3) (s : State),
    f.op3 = .reg x b rm → f.legal = true → f.b = true → (f.aaa = 0#3 ∨ s.maskBit f.aaa = true) →
    s.mode = .protected32 → s.ReadyEvex → s.pc.toNat + f.size < 2 ^ 32 →
    let c : FpControl := ⟨.ofBits f.ll, s.mxcsr.getLsbD 6, s.mxcsr.getLsbD 15, ⟨true, true, true, true, true⟩⟩
    let n1 : BitVec 5 := (f.dst.extractLsb' 0 3).setWidth 5
    let d := s.low n1
    let s2 := s.low ((f.src2.extractLsb' 0 3).setWidth 5)
    let s3 := s.low (rm.setWidth 5)
    (∃ res fl, fma32 s.cfg.switches c d s3 s2 = .done res fl ∧
      exec (.vfmadd132ssEvex f) s = .next (s.completed n1 res {} none f.size)) ∧
    (∃ res fl, fma32 s.cfg.switches c s2 d s3 = .done res fl ∧
      exec (.vfmadd213ssEvex f) s = .next (s.completed n1 res {} none f.size)) ∧
    (∃ res fl, fma32 s.cfg.switches c s2 s3 d = .done res fl ∧
      exec (.vfmadd231ssEvex f) s = .next (s.completed n1 res {} none f.size))) ∧
  (∀ (f : EvexForm) (s : State), f.legal = true → f.aaa ≠ 0#3 → s.maskBit f.aaa = false →
    s.mode = .protected32 → s.ReadyEvex → s.pc.toNat + f.size < 2 ^ 32 →
    let n1 : BitVec 5 := (f.dst.extractLsb' 0 3).setWidth 5
    let t := s.completed n1 (if f.z then 0#32 else s.low n1) {} none f.size
    exec (.vfmadd132ssEvex f) s = .next t ∧ exec (.vfmadd213ssEvex f) s = .next t ∧ exec (.vfmadd231ssEvex f) s = .next t) ∧
  (∀ (o : Opcode) (x b : Bool) (a : Addr) (s : State), s.mode = .protected32 →
    (∀ f : VexForm, f.op3 = .mem x b a → s.ReadyVex → exec (.ofVex o f) s =
      .refused (.segmentedOperand ((effectiveAddress s false f.legacy x b f.size a).setWidth 32))) ∧
    (∀ f : EvexForm, f.op3 = .mem x b a → f.legal = true → (f.aaa = 0#3 ∨ s.maskBit f.aaa = true) → s.ReadyEvex →
      exec (.ofEvex o f) s =
        .refused (.segmentedOperand ((effectiveAddress s true f.legacy x b f.size a).setWidth 32))))

/-! ### Exceptions of an instruction -/

/-- Rests on R110 step 6, R120, R182 and R184: a form in which `fma32` detects an unmasked condition, with a register or with a
readable memory operand: the flags are in MXCSR, nothing else has changed, and the exception is #XM, or #UD with
CR4.OSXMMEXCPT = 0. -/
def Obligations.UnmaskedConditionFaults : Prop :=
  ∀ (s : State) (fl : FpFlags) (x b : Bool), s.is64 = true →
    let out : Host.Outcome State Fault Refusal :=
      .fault (.exception (if s.cr4.getLsbD 10 then .xm else .ud) { s with mxcsr := s.mxcsr ||| fl.bits.setWidth 32 })
    let fma := fma32 s.cfg.switches (.ofMxcsr s.mxcsr)
    (∀ (f : VexForm) (s3 : Single), s.ReadyVex →
      ((∃ rm, f.op3 = .reg x b rm ∧ s3 = s.low (0#1 ++ BitVec.ofBool b ++ rm)) ∨
        (∃ a, f.op3 = .mem x b a ∧ s.OperandReadable (linearAddress s false f.legacy x b f.size a) ∧
          s3 = s.mem.read32 (linearAddress s false f.legacy x b f.size a))) →
      let d := s.low (f.dst.setWidth 5)
      let s2 := s.low (f.src2.setWidth 5)
      (fma d s3 s2 = .stopped fl → exec (.vfmadd132ssVex f) s = out) ∧
      (fma s2 d s3 = .stopped fl → exec (.vfmadd213ssVex f) s = out) ∧
      (fma s2 s3 d = .stopped fl → exec (.vfmadd231ssVex f) s = out)) ∧
    (∀ (f : EvexForm) (s3 : Single), f.legal = true → f.b = false → (f.aaa = 0#3 ∨ s.maskBit f.aaa = true) → s.ReadyEvex →
      ((∃ rm, f.op3 = .reg x b rm ∧ s3 = s.low (BitVec.ofBool x ++ BitVec.ofBool b ++ rm)) ∨
        (∃ a, f.op3 = .mem x b a ∧ s.OperandReadable (linearAddress s true f.legacy x b f.size a) ∧
          s3 = s.mem.read32 (linearAddress s true f.legacy x b f.size a))) →
      let d := s.low f.dst
      let s2 := s.low f.src2
      (fma d s3 s2 = .stopped fl → exec (.vfmadd132ssEvex f) s = out) ∧
      (fma s2 d s3 = .stopped fl → exec (.vfmadd213ssEvex f) s = out) ∧
      (fma s2 s3 d = .stopped fl → exec (.vfmadd231ssEvex f) s = out))

/-- R56: a memory operand one of whose bytes has a non-canonical address, in an available form whose element is active. The
check comes before translation: the statement holds for every oracle. -/
def Obligations.NonCanonicalOperandFaults : Prop :=
  ∀ (s : State) (o : Opcode) (x b : Bool) (a : Addr) (evex : Bool) (i : Instr) (legacy : List LegacyByte),
    ((evex = false ∧ s.ReadyVex ∧ ∃ f : VexForm, i = .ofVex o f ∧ f.op3 = .mem x b a ∧ f.legacy = legacy) ∨
      (evex = true ∧ s.ReadyEvex ∧ ∃ f : EvexForm, i = .ofEvex o f ∧ f.op3 = .mem x b a ∧ f.legacy = legacy ∧
        f.legal = true ∧ (f.aaa = 0#3 ∨ s.maskBit f.aaa = true))) →
    s.is64 = true → (∃ q ∈ operandBytes (linearAddress s evex legacy x b i.size a), s.canonical q = false) →
    ((∀ p ∈ legacy, p = .addrSize) → baseIsStack b a = true → exec i s = .fault (.exception .ss s)) ∧
      ((.fs ∈ legacy ∨ .gs ∈ legacy ∨ baseIsStack b a = false) → exec i s = .fault (.exception .gp s)) ∧
      Exception.ss.errorCode = some 0#32 ∧ Exception.gp.errorCode = some 0#32

/-- Rests on R192, R52 and R198: alignment checking raises #AC(0) for a misaligned operand, never for an aligned one, and never
while it is off. The first clause leaves out an access that also page-faults, unless the parameter says that #AC comes first
(log entry 14). That it comes before the refusal of a device is log entry 35. -/
def Obligations.MisalignedOperandFaults : Prop :=
  ∀ (s : State) (o : Opcode) (x b : Bool) (a : Addr) (evex : Bool) (i : Instr) (legacy : List LegacyByte),
    ((evex = false ∧ s.ReadyVex ∧ ∃ f : VexForm, i = .ofVex o f ∧ f.op3 = .mem x b a ∧ f.legacy = legacy) ∨
      (evex = true ∧ s.ReadyEvex ∧ ∃ f : EvexForm, i = .ofEvex o f ∧ f.op3 = .mem x b a ∧ f.legacy = legacy ∧
        f.legal = true ∧ (f.aaa = 0#3 ∨ s.maskBit f.aaa = true))) →
    s.is64 = true →
    let la := linearAddress s evex legacy x b i.size a
    (la.toNat % 4 ≠ 0 → s.cr0.getLsbD 18 = true → s.rflags.getLsbD 18 = true → s.cpl = 3#2 →
      (∀ q ∈ operandBytes la, s.canonical q = true) →
      (s.cfg.acBeforePf = true ∨ s.NoReadFault la) →
      exec i s = .fault (.exception .ac s)) ∧
    (la.toNat % 4 = 0 → ∀ t, exec i s ≠ .fault (.exception .ac t)) ∧
    (s.cr0.getLsbD 18 = false ∨ s.rflags.getLsbD 18 = false ∨ s.cpl ≠ 3#2 → ∀ t, exec i s ≠ .fault (.exception .ac t)) ∧
    Exception.ac.errorCode = some 0#32

/-- Rests on R57 and R189: an aligned canonical operand. A fault that the oracle answers outright is passed on: #PF with its
error code and its address. Without an answer, an operand in one page that denies the read: #PF, the error code as R189 lists
its bits (W/R, I/D and SS are clear; where one cause applies alone the whole code is said), CR2 the operand's address. Nothing
else has changed (log entries 7, 8 and 10). That the fault comes before the refusal of a device is log entry 35. -/
def Obligations.OperandPageFaults : Prop :=
  ∀ (s : State) (o : Opcode) (x b : Bool) (a : Addr) (evex : Bool) (i : Instr) (legacy : List LegacyByte),
    ((evex = false ∧ s.ReadyVex ∧ ∃ f : VexForm, i = .ofVex o f ∧ f.op3 = .mem x b a ∧ f.legacy = legacy) ∨
      (evex = true ∧ s.ReadyEvex ∧ ∃ f : EvexForm, i = .ofEvex o f ∧ f.op3 = .mem x b a ∧ f.legacy = legacy ∧
        f.legal = true ∧ (f.aaa = 0#3 ∨ s.maskBit f.aaa = true))) →
    s.is64 = true →
    let la := linearAddress s evex legacy x b i.size a
    la.toNat % 4 = 0 → (∀ q ∈ operandBytes la, s.canonical q = true) →
    (∀ code addr, s.answerAt .read la = some (.fault code addr) →
      exec i s = .fault (.exception (.pf code (addr.getD la)) { s with cr2 := addr.getD la })) ∧
    (s.answerAt .read la = none → (∀ q ∈ operandBytes la, s.attrAt q = s.attrAt la) →
      let p := s.attrAt la
      let supervisor := !p.user && s.cpl == 3#2
      let us : BitVec 32 := if s.cpl = 3#2 then 4#32 else 0#32
      (p.present = false ∨ p.reservedSet = true ∨ p.keyDenied = true ∨ p.sgxDenied = true ∨ supervisor = true) →
      ∃ code : BitVec 32, exec i s = .fault (.exception (.pf code la) { s with cr2 := la }) ∧
        code.getLsbD 0 = p.present ∧ code.getLsbD 1 = false ∧ code.getLsbD 2 = (s.cpl == 3#2) ∧
        code.getLsbD 4 = false ∧ code.getLsbD 6 = false ∧
        ((p.present, p.reservedSet, p.keyDenied, p.sgxDenied) = (false, false, false, false) → code = us) ∧
        ((p.present, p.reservedSet, p.keyDenied, p.sgxDenied, supervisor) = (true, true, false, false, false) →
          code = us ||| 0x0009#32) ∧
        ((p.present, p.reservedSet, p.keyDenied, p.sgxDenied, supervisor) = (true, false, true, false, false) →
          code = us ||| 0x0021#32) ∧
        ((p.present, p.reservedSet, p.keyDenied, p.sgxDenied, supervisor) = (true, false, false, true, false) →
          code = us ||| 0x8001#32) ∧
        ((p.present, p.reservedSet, p.keyDenied, p.sgxDenied, supervisor) = (true, false, false, false, true) →
          code = 0x0005#32))

/-- Rests on R54 and R57: an operand in a device region, readable but for that, is refused, and so is one that the oracle
refuses, with its reason. That one byte in the region is enough, and that whatever else stops the access comes first, is log
entry 35. -/
def Obligations.DeviceOperandRefused : Prop :=
  ∀ (s : State) (o : Opcode) (x b : Bool) (a : Addr) (evex : Bool) (i : Instr) (legacy : List LegacyByte),
    ((evex = false ∧ s.ReadyVex ∧ ∃ f : VexForm, i = .ofVex o f ∧ f.op3 = .mem x b a ∧ f.legacy = legacy) ∨
      (evex = true ∧ s.ReadyEvex ∧ ∃ f : EvexForm, i = .ofEvex o f ∧ f.op3 = .mem x b a ∧ f.legacy = legacy ∧
        f.legal = true ∧ (f.aaa = 0#3 ∨ s.maskBit f.aaa = true))) →
    s.is64 = true →
    let la := linearAddress s evex legacy x b i.size a
    (∀ q ∈ operandBytes la, s.canonical q = true) → (s.alignmentChecked = true → la.toNat % 4 = 0) →
    (s.NoReadFault la → (∀ reason, s.answerAt .read la ≠ some (.refuse reason)) →
      (∃ q ∈ operandBytes la, (s.attrAt q).device = true) → exec i s = .refused .deviceMemory) ∧
    (∀ reason, s.answerAt .read la = some (.refuse reason) → exec i s = .refused (.oracleRefuses reason))

/-- Rests on R180, R184, R199 and R200: an exception of an instruction leaves everything as it was, but for the MXCSR flags of a
SIMD floating-point fault and CR2 of a page fault (that the state carried holds the new CR2 is log entry 10). -/
def Obligations.ExceptionsArePrecise : Prop :=
  ∀ (i : Instr) (s t : State) (e : Exception), exec i s = .fault (.exception e t) →
    t = { s with mxcsr := t.mxcsr, cr2 := t.cr2 } ∧
      (e ≠ .xm → e ≠ .ud → t.mxcsr = s.mxcsr) ∧
      (∃ fl : FpFlags, t.mxcsr = s.mxcsr ||| fl.bits.setWidth 32) ∧
      (∀ code addr, e = .pf code addr → t.cr2 = addr) ∧ ((∀ code addr, e ≠ .pf code addr) → t.cr2 = s.cr2)

/-! ### What a step keeps -/

/-- Rests on R20, R24, R31, R223 (and the canonical form of memory): the premises of a launch state hold again after every
step (log entries 4, 6 and 30). -/
def Obligations.StepKeepsLaunchPremises : Prop :=
  ∀ s t : State, s.wf = true → step s = .next t → t.wf = true

/-- Rests on R223 and on log entries 4 and 6: the reset state meets the invariant of `StepKeepsLaunchPremises`. -/
def Obligations.ResetMeetsLaunchPremises : Prop :=
  State.reset.wf = true

/-- Rests on R24, R25, R27, R28, R30, R32, R50, R57 and R61: no step changes a general, opmask, control or segment register,
RFLAGS, CR2, memory, the program bytes, the oracle or the parameters. -/
def Obligations.StepKeepsFixedState : Prop :=
  ∀ s t : State, step s = .next t →
    s.SameFixed t ∧ t.cr2 = s.cr2 ∧ ∀ a : Nat, t.mem.read a = s.mem.read a

/-- Rests on R110 step 7, R120 step 9, R21 and R228: of the vector registers an instruction changes only its destination, whose bits
127:32 it keeps and whose bits above 127 it clears. -/
def Obligations.OnlyTheDestinationChanges : Prop :=
  ∀ (i : Instr) (s t : State), exec i s = .next t →
    let n1 := s.regNumber (destination i)
    (∀ n, n ≠ n1 → t.vreg n = s.vreg n) ∧ (t.vreg n1).extractLsb' 32 96 = (s.vreg n1).extractLsb' 32 96 ∧
      (t.vreg n1).extractLsb' 128 384 = 0#384

/-- Rests on R26: a completed instruction leaves the program counter behind its last byte, in range. That EIP does not pass 2^32
outside 64-bit mode is log entry 21. -/
def Obligations.ProgramCounterAdvances : Prop :=
  ∀ (i : Instr) (s t : State), exec i s = .next t →
    (s.is64 = true → t.pc.toNat = s.pc.toNat + i.size ∧ t.canonical t.pc = true) ∧
      (s.is64 = false → t.pc.toNat = s.pc.toNat % 2 ^ 32 + i.size ∧ t.pc.toNat < 2 ^ 32)

/-- Rests on R30 and R159: whether an instruction completes or faults, MXCSR keeps its control and reserved bits, ZE and every
flag that was set. -/
def Obligations.MxcsrFlagsAreSticky : Prop :=
  ∀ (i : Instr) (s t : State), (exec i s = .next t ∨ ∃ e, exec i s = .fault (.exception e t)) →
    t.mxcsr.extractLsb' 6 26 = s.mxcsr.extractLsb' 6 26 ∧ t.mxcsr.getLsbD 2 = s.mxcsr.getLsbD 2 ∧
      s.mxcsr &&& t.mxcsr = s.mxcsr

/-- Rests on R205 and R189: CPL matters only to the alignment check and inside the oracle: where neither asks for it, an
instruction completes, faults or is refused alike at every CPL, but for U/S, bit 2, of a page-fault code. -/
def Obligations.PrivilegeLevelDoesNotMatter : Prop :=
  ∀ (i : Instr) (s : State) (sel : BitVec 16),
    (s.cr0.getLsbD 18 = false ∨ s.rflags.getLsbD 18 = false) → (∀ r ∈ s.oracle, r.attr.user = true) →
    (∀ e ∈ s.answers, e.cpls = 15#4) →
    (∀ t, exec i s = .next t → exec i { s with csSel := sel } = .next { t with csSel := sel }) ∧
    (∀ e t, exec i s = .fault (.exception e t) →
      ∃ e', exec i { s with csSel := sel } = .fault (.exception e' { t with csSel := sel }) ∧
        (e' = e ∨ ∃ code code' addr, e = .pf code addr ∧ e' = .pf code' addr ∧ code ||| 4#32 = code' ||| 4#32)) ∧
    (∀ r, exec i s = .refused r → exec i { s with csSel := sel } = .refused r)

/-- Rests on R23 and R226: of the vector registers only bits 127:0 of the destination and bits 31:0 of the other operands are
read. -/
def Obligations.OnlyNamedRegistersAreRead : Prop :=
  ∀ (i : Instr) (s t : State) (w : Vector VecReg 32), s.is64 = true → exec i s = .next t →
    let u := { s with v := w }
    (u.vreg (destination i)).extractLsb' 0 128 = (s.vreg (destination i)).extractLsb' 0 128 →
    u.low (secondRegister i) = s.low (secondRegister i) → (∀ n, thirdRegister i = some n → u.low n = s.low n) →
    ∃ t', exec i u = .next t' ∧ t'.vreg (destination i) = t.vreg (destination i) ∧ t'.mxcsr = t.mxcsr ∧ t'.pc = t.pc ∧
      t'.reads = t.reads

/-! ### Memory and addresses -/

/-- Rests on R51: the four bytes of an operand, least significant first. That an operand at the last three addresses goes on at
address 0 is log entry 23. -/
def Obligations.OperandIsLittleEndian : Prop :=
  ∀ (s : State) (la : Word64), (s.mem.read32 la).toNat =
    (s.mem.read la.toNat).toNat + 2 ^ 8 * (s.mem.read (la + 1#64).toNat).toNat +
      2 ^ 16 * (s.mem.read (la + 2#64).toNat).toNat + 2 ^ 24 * (s.mem.read (la + 3#64).toNat).toNat

/-- Rests on R81, R82, R83, R96 and R99: base, scaled index and displacement, disp8 times 4 in an EVEX form only, register 4 no
index. In 64-bit mode the RIP-relative form, and the address size of 64 bits, or 32 with 67H; in 32-bit mode a bare disp32 in its
place and 32 bits. The result is read modulo 2^64 or 2^32. That X and B are ignored in 32-bit mode is log entry 15; that no
16-bit address is formed there is log entry 36. -/
def Obligations.EffectiveAddresses : Prop :=
  ∀ (s : State) (evex x b : Bool) (legacy : List LegacyByte) (len : Nat) (sc : BitVec 2) (i3 b3 : BitVec 3) (d8 : BitVec 8)
    (d32 : BitVec 32), s.is64 = true ∨ s.mode = .protected32 →
    let ea := fun a => ((effectiveAddress s evex legacy x b len a).toNat : Int)
    let m : Int := if s.is64 = true ∧ LegacyByte.addrSize ∉ legacy then 2 ^ 64 else 2 ^ 32
    let number := fun (extension : Bool) (n : BitVec 3) => BitVec.ofBool (s.is64 && extension) ++ n
    let reg := fun (n : BitVec 4) => ((s.x.get ⟨n.toNat, n.isLt⟩).toNat : Int)
    let baseReg := reg (number b b3)
    let index := if number x i3 = 4#4 then 0 else reg (number x i3) * 2 ^ sc.toNat
    let scaled := if evex then 4 * d8.toInt else d8.toInt
    let next : Int := if s.is64 then (s.pc.toNat : Int) + len else 0
    ea (.base b3 .none) = baseReg % m ∧ ea (.base b3 (.disp8 d8)) = (baseReg + scaled) % m ∧
      ea (.base b3 (.disp32 d32)) = (baseReg + d32.toInt) % m ∧
      ea (.sib sc i3 b3 .none) = (baseReg + index) % m ∧
      ea (.sib sc i3 b3 (.disp8 d8)) = (baseReg + index + scaled) % m ∧
      ea (.sib sc i3 b3 (.disp32 d32)) = (baseReg + index + d32.toInt) % m ∧
      ea (.sibNoBase sc i3 d32) = (index + d32.toInt) % m ∧
      ea (.ripRel d32) = (next + d32.toInt) % m

/-- Rests on R83: the segment base is that of the last of 64H and 65H, and 0 without either (that the null
overrides do not count is log entry 17). -/
def Obligations.LastSegmentOverrideCounts : Prop :=
  ∀ (s : State) (before after : List LegacyByte), (∀ p ∈ after, p ≠ .fs ∧ p ≠ .gs) →
    segmentBase s after = 0#64 ∧ segmentBase s (before ++ .fs :: after) = s.fsBase ∧
      segmentBase s (before ++ .gs :: after) = s.gsBase

/-! ### The arithmetic -/

/-- Rests on R150 and R203: with every condition masked `fma32` always has a result. -/
def Obligations.MaskedOperationDelivers : Prop :=
  ∀ (sw : Switches) (rm : Rounding) (daz ftz : Bool) (x y z : Single),
    ∃ res fl, fma32 sw ⟨rm, daz, ftz, ⟨true, true, true, true, true⟩⟩ x y z = .done res fl

/-- Rests on R159: the flags of one operation are one of the combinations R159 lists; those of its second list come out only of a
fault. -/
def Obligations.FlagCombinations : Prop :=
  ∀ (c : FpControl) (x y z : Single),
    (fma32 .ofSpec c x y z).flags ∈
      ([{}, { ie := true }, { de := true }, { pe := true }, { de := true, pe := true }, { oe := true, pe := true },
        { de := true, oe := true, pe := true }, { ue := true, pe := true }, { de := true, ue := true, pe := true },
        { oe := true }, { de := true, oe := true }, { ue := true }, { de := true, ue := true }] : List FpFlags) ∧
    (∀ res fl, fma32 .ofSpec c x y z = .done res fl → (fl.oe = true ∨ fl.ue = true) → fl.pe = true) ∧
    (∀ fl, fma32 .ofSpec c x y z = .stopped fl → fl.unmasked c.masks = true) ∧
    (∀ res fl, fma32 .ofSpec c x y z = .done res fl → fl.unmasked c.masks = false)

/-- R144: with DAZ a denormal operand counts as the zero of its sign, before anything else and for static rounding too, and DE is
not detected; without DAZ operands are used as they are. -/
def Obligations.DenormalsAreZeros : Prop :=
  ∀ (sw : Switches) (c : FpControl) (x y z : Single),
    let zeroed := fun p : Single => if isDen p then p &&& 0x80000000#32 else p
    fma32 sw { c with daz := true } x y z = fma32 sw { c with daz := true } (zeroed x) (zeroed y) (zeroed z) ∧
      fma32 sw { c with daz := true } x y z = fmaAfterDaz sw { c with daz := true } (zeroed x) (zeroed y) (zeroed z) ∧
      fma32 sw { c with daz := true } x y z = fma32 sw { c with daz := false } (zeroed x) (zeroed y) (zeroed z) ∧
      (fma32 sw { c with daz := true } x y z).flags.de = false ∧
      fma32 sw { c with daz := false } x y z = fmaAfterDaz sw { c with daz := false } x y z ∧
      ∀ (w : BitVec 32) (rc : BitVec 2), (FpControl.static w rc).daz = w.getLsbD 6 ∧ (FpControl.ofMxcsr w).daz = w.getLsbD 6

/-- Rests on R146 (the value of `NAN_RULE` the spec uses): a NaN operand. -/
def Obligations.NanOperandResult : Prop :=
  ∀ (c : FpControl) (x y z : Single), (isNaN x = true ∨ isNaN y = true ∨ isNaN z = true) →
    let first := if isNaN x then x else if isNaN y then y else z
    ((isSNaN x = true ∨ isSNaN y = true ∨ isSNaN z = true) →
      fma32 .ofSpec c x y z =
        if c.masks.im then .done (first ||| 0x00400000#32) { ie := true } else .stopped { ie := true }) ∧
    ((isSNaN x = false ∧ isSNaN y = false ∧ isSNaN z = false) → fma32 .ofSpec c x y z = .done first {})

/-- Rests on R147: infinity times zero, and an infinite product with the opposite infinity, without a NaN operand. -/
def Obligations.InvalidOperationResult : Prop :=
  ∀ (c : FpControl) (x y z : Single), anyNaN x y z = false →
    let zeroLike := fun p => isZero p || (c.daz && isDen p)
    ((isInf x = true ∧ zeroLike y = true) ∨ (zeroLike x = true ∧ isInf y = true) ∨
      ((isInf x = true ∨ isInf y = true) ∧ isInf z = true ∧ signOf z ≠ (signOf x != signOf y))) →
    fma32 .ofSpec c x y z = if c.masks.im then .done 0xFFC00000#32 { ie := true } else .stopped { ie := true }

/-- Rests on R148: an unmasked denormal operand stops the instruction with DE alone, unless a NaN or an invalid operation came
first; masked, DE is among the flags. -/
def Obligations.DenormalOperandFlag : Prop :=
  ∀ (sw : Switches) (c : FpControl) (x y z : Single), c.daz = false → anyNaN x y z = false → invalidOp x y z = false →
    (isDen x = true ∨ isDen y = true ∨ isDen z = true) →
    (c.masks.dm = false → fma32 sw c x y z = .stopped { de := true }) ∧
      (c.masks.dm = true → (fma32 sw c x y z).flags.de = true)

/-- R149: an infinite operand, no NaN, no invalid operation and no unmasked denormal. -/
def Obligations.InfiniteOperandResult : Prop :=
  ∀ (sw : Switches) (c : FpControl) (x y z : Single), anyNaN x y z = false →
    let den := !c.daz && anyDen x y z
    (den = true → c.masks.dm = true) → invalidOp (applyDaz c.daz x) (applyDaz c.daz y) (applyDaz c.daz z) = false →
    ((isInf x = true ∨ isInf y = true) →
      fma32 sw c x y z = .done (if signOf x != signOf y then 0xFF800000#32 else 0x7F800000#32) { de := den }) ∧
    (isInf x = false → isInf y = false → isInf z = true → fma32 sw c x y z = .done z { de := den })

/-- Rests on R151: an exact zero from finite operands (no DAZ): its sign, and no flag but a possible DE. -/
def Obligations.ExactZeroResult : Prop :=
  ∀ (sw : Switches) (c : FpControl) (x y z : Single), c.daz = false → anyNaN x y z = false →
    isInf x = false → isInf y = false → isInf z = false → (anyDen x y z = true → c.masks.dm = true) →
    exactFma x y z = 0 →
    fma32 sw c x y z =
      .done
        (if (isZero x = true ∨ isZero y = true) ∧ isZero z = true ∧ (signOf x != signOf y) = signOf z then
          (if signOf z then 0x80000000#32 else 0#32)
        else if c.rounding = .rd then 0x80000000#32 else 0#32)
        { de := anyDen x y z }

/-- Rests on R157: rounding to a multiple of the unit 2^k. An exact multiple stays; any other value goes to one of its two
neighbours: toward the sign for RD and RU, toward zero for RZ, and for RNE to the nearer one or, in a tie, to the even
multiple. -/
def Obligations.RoundingToAUnit : Prop :=
  ∀ (rm : Rounding) (neg : Bool) (m k : Nat),
    let n := m / 2 ^ k
    let rem := m % 2 ^ k
    let r := roundTo rm neg m k
    (rem = 0 → r = m) ∧
      (rem ≠ 0 →
        (rm = .rz → r = n * 2 ^ k) ∧ (rm = .rd → r = (if neg then n + 1 else n) * 2 ^ k) ∧
        (rm = .ru → r = (if neg then n else n + 1) * 2 ^ k) ∧
        (rm = .rne → (2 * rem < 2 ^ k → r = n * 2 ^ k) ∧ (2 ^ k < 2 * rem → r = (n + 1) * 2 ^ k) ∧
          (2 * rem = 2 ^ k → r % 2 ^ (k + 1) = 0 ∧ (r = n * 2 ^ k ∨ r = (n + 1) * 2 ^ k)))) ∧
      m < r + 2 ^ k ∧ r < m + 2 ^ k

/-- Rests on R142, R152, R153 and R155: a normal result of finite operands is the exact value x*y + z rounded once to 24
significant bits, and PE says whether that rounding changed it. -/
def Obligations.NormalResultIsRoundedOnce : Prop :=
  ∀ (sw : Switches) (c : FpControl) (x y z : Single), c.daz = false → anyNaN x y z = false →
    isInf x = false → isInf y = false → isInf z = false → (anyDen x y z = true → c.masks.dm = true) →
    sw.tininess = .afterRounding →
    let v := exactFma x y z
    let m := v.natAbs
    let r := roundTo c.rounding (decide (v < 0)) m (Nat.log2 m - 23)
    2 ^ 172 ≤ r → r < 2 ^ 426 →
    ∃ res, isNaN res = false ∧ isInf res = false ∧ isDen res = false ∧
      scaledVal res * 2 ^ 149 = (if v < 0 then -(r : Int) else (r : Int)) ∧
      fma32 sw c x y z =
        if !c.masks.pm && r != m then .stopped { de := anyDen x y z, pe := r != m }
        else .done res { de := anyDen x y z, pe := r != m }

/-- Rests on R154: the rounded magnitude is 2^128 or more. -/
def Obligations.OverflowResult : Prop :=
  ∀ (sw : Switches) (c : FpControl) (x y z : Single), c.daz = false → anyNaN x y z = false →
    isInf x = false → isInf y = false → isInf z = false → (anyDen x y z = true → c.masks.dm = true) →
    sw.peWithUnmaskedOu = false →
    let v := exactFma x y z
    2 ^ 426 ≤ round24 c.rounding (decide (v < 0)) v.natAbs →
    fma32 sw c x y z =
      if c.masks.om = false then .stopped { de := anyDen x y z, oe := true }
      else if c.masks.pm = false then .stopped { de := anyDen x y z, oe := true, pe := true }
      else .done
        (match c.rounding, decide (v < 0) with
          | .rne, false => 0x7F800000#32
          | .rne, true => 0xFF800000#32
          | .rd, false => 0x7F7FFFFF#32
          | .rd, true => 0xFF800000#32
          | .ru, false => 0x7F800000#32
          | .ru, true => 0xFF7FFFFF#32
          | .rz, false => 0x7F7FFFFF#32
          | .rz, true => 0xFF7FFFFF#32)
        { de := anyDen x y z, oe := true, pe := true }

/-- Rests on R156 and R158: a tiny result. With UE unmasked it faults; with FTZ it is the zero of its sign; else it is the exact
value rounded once to a multiple of 2^-149, and UE and PE say whether that rounding changed it; an inexact one faults with PE
unmasked. -/
def Obligations.TinyResult : Prop :=
  ∀ (sw : Switches) (c : FpControl) (x y z : Single), c.daz = false → anyNaN x y z = false →
    isInf x = false → isInf y = false → isInf z = false → (anyDen x y z = true → c.masks.dm = true) →
    sw.tininess = .afterRounding → sw.peWithUnmaskedOu = false →
    let v := exactFma x y z
    let m := v.natAbs
    let rd := roundTo c.rounding (decide (v < 0)) m 149
    v ≠ 0 → round24 c.rounding (decide (v < 0)) m < 2 ^ 172 →
    (c.masks.um = false → fma32 sw c x y z = .stopped { de := anyDen x y z, ue := true }) ∧
    (c.masks.um = true → c.masks.pm = true → c.ftz = true →
      fma32 sw c x y z =
        .done (if v < 0 then 0x80000000#32 else 0#32) { de := anyDen x y z, ue := true, pe := true }) ∧
    (c.masks.um = true → c.ftz = false → (c.masks.pm = true ∨ rd = m) →
      ∃ res, isNaN res = false ∧ isInf res = false ∧ signOf res = decide (v < 0) ∧
        scaledVal res * 2 ^ 149 = (if v < 0 then -(rd : Int) else (rd : Int)) ∧
        fma32 sw c x y z = .done res { de := anyDen x y z, ue := rd != m, pe := rd != m }) ∧
    (c.masks.um = true → c.masks.pm = false → (c.ftz = true ∨ rd ≠ m) →
      fma32 sw c x y z = .stopped { de := anyDen x y z, ue := true, pe := true })

/-- Rests on R162 (a): the two factors may change places unless both are NaNs. -/
def Obligations.FactorsCommute : Prop :=
  ∀ (c : FpControl) (x y z : Single), ¬ (isNaN x = true ∧ isNaN y = true) →
    fma32 .ofSpec c x y z = fma32 .ofSpec c y x z

/-- Rests on R162 (b), with invalid operations left out (their result is FFC00000H either way): the sign of x and z, or of y and
z, changes the sign of the result and, with RD and RU exchanged, nothing else. -/
def Obligations.NegationMirrorsTheResult : Prop :=
  ∀ (c : FpControl) (x y z : Single), anyNaN x y z = false →
    let x' := applyDaz c.daz x
    let y' := applyDaz c.daz y
    let z' := applyDaz c.daz z
    invalidOp x' y' z' = false → (isInf x' = true ∨ isInf y' = true ∨ isInf z' = true ∨ exactFma x' y' z' ≠ 0) →
    fma32 .ofSpec { c with rounding := c.rounding.mirror } (negated x) y (negated z) = (fma32 .ofSpec c x y z).mirror ∧
      fma32 .ofSpec { c with rounding := c.rounding.mirror } x (negated y) (negated z) = (fma32 .ofSpec c x y z).mirror

/-- Rests on R162 (e): a result is a NaN exactly when an operand is one or the operation is invalid. -/
def Obligations.NanResultsComeFromNansOrInvalid : Prop :=
  ∀ (sw : Switches) (c : FpControl) (x y z res : Single) (fl : FpFlags), fma32 sw c x y z = .done res fl →
    (isNaN res = true ↔
      anyNaN x y z = true ∨ invalidOp (applyDaz c.daz x) (applyDaz c.daz y) (applyDaz c.daz z) = true)

/-- Rests on R162 (c) and (d): adding the zero that cannot decide the sign of a zero (-0, or +0 with RD) gives the correctly
rounded product, and the factor 1.0 the correctly rounded sum: the exact value that is rounded is the product, or the sum, and
a zero product keeps its sign. -/
def Obligations.ProductAndSumAreSpecialCases : Prop :=
  ∀ x y z : Single,
    (exactFma x y 0x00000000#32 = scaledVal x * scaledVal y ∧ exactFma x y 0x80000000#32 = scaledVal x * scaledVal y ∧
      exactFma x 0x3F800000#32 z = (scaledVal x + scaledVal z) * 2 ^ 149) ∧
    ∀ (sw : Switches) (c : FpControl), c.daz = false → isNaN x = false → isNaN y = false → isInf x = false →
      isInf y = false → (isDen x = true ∨ isDen y = true → c.masks.dm = true) → (isZero x = true ∨ isZero y = true) →
      fma32 sw c x y (if c.rounding = .rd then 0x00000000#32 else 0x80000000#32) =
        .done (if signOf x != signOf y then 0x80000000#32 else 0x00000000#32) { de := isDen x || isDen y }
end

