-- ==== Sys2Proof/Laws/State.lean ====
section
/-! SUPPORT. One lemma per field of State per update, each true by rfl, so that no later proof unfolds a record update. -/

namespace Sys2Proof.Machine

/-! ### setPc -/

@[simp] theorem State.setPc_cfg (s : State) (a : Word64) : (s.setPc a).cfg = s.cfg := rfl
@[simp] theorem State.setPc_v (s : State) (a : Word64) : (s.setPc a).v = s.v := rfl
@[simp] theorem State.setPc_k (s : State) (a : Word64) : (s.setPc a).k = s.k := rfl
@[simp] theorem State.setPc_x (s : State) (a : Word64) : (s.setPc a).x = s.x := rfl
@[simp] theorem State.setPc_pc (s : State) (a : Word64) : (s.setPc a).pc = a := rfl
@[simp] theorem State.setPc_rflags (s : State) (a : Word64) : (s.setPc a).rflags = s.rflags := rfl
@[simp] theorem State.setPc_mxcsr (s : State) (a : Word64) : (s.setPc a).mxcsr = s.mxcsr := rfl
@[simp] theorem State.setPc_cr0 (s : State) (a : Word64) : (s.setPc a).cr0 = s.cr0 := rfl
@[simp] theorem State.setPc_cr2 (s : State) (a : Word64) : (s.setPc a).cr2 = s.cr2 := rfl
@[simp] theorem State.setPc_cr4 (s : State) (a : Word64) : (s.setPc a).cr4 = s.cr4 := rfl
@[simp] theorem State.setPc_xcr0 (s : State) (a : Word64) : (s.setPc a).xcr0 = s.xcr0 := rfl
@[simp] theorem State.setPc_efer (s : State) (a : Word64) : (s.setPc a).efer = s.efer := rfl
@[simp] theorem State.setPc_csSel (s : State) (a : Word64) : (s.setPc a).csSel = s.csSel := rfl
@[simp] theorem State.setPc_csBase (s : State) (a : Word64) : (s.setPc a).csBase = s.csBase := rfl
@[simp] theorem State.setPc_csL (s : State) (a : Word64) : (s.setPc a).csL = s.csL := rfl
@[simp] theorem State.setPc_cs16 (s : State) (a : Word64) : (s.setPc a).cs16 = s.cs16 := rfl
@[simp] theorem State.setPc_fsBase (s : State) (a : Word64) : (s.setPc a).fsBase = s.fsBase := rfl
@[simp] theorem State.setPc_gsBase (s : State) (a : Word64) : (s.setPc a).gsBase = s.gsBase := rfl
@[simp] theorem State.setPc_mem (s : State) (a : Word64) : (s.setPc a).mem = s.mem := rfl
@[simp] theorem State.setPc_program (s : State) (a : Word64) : (s.setPc a).program = s.program := rfl
@[simp] theorem State.setPc_answers (s : State) (a : Word64) : (s.setPc a).answers = s.answers := rfl
@[simp] theorem State.setPc_oracle (s : State) (a : Word64) : (s.setPc a).oracle = s.oracle := rfl
@[simp] theorem State.setPc_reads (s : State) (a : Word64) : (s.setPc a).reads = s.reads := rfl

/-! ### setMxcsr -/

@[simp] theorem State.setMxcsr_cfg (s : State) (w : BitVec 32) : (s.setMxcsr w).cfg = s.cfg := rfl
@[simp] theorem State.setMxcsr_v (s : State) (w : BitVec 32) : (s.setMxcsr w).v = s.v := rfl
@[simp] theorem State.setMxcsr_k (s : State) (w : BitVec 32) : (s.setMxcsr w).k = s.k := rfl
@[simp] theorem State.setMxcsr_x (s : State) (w : BitVec 32) : (s.setMxcsr w).x = s.x := rfl
@[simp] theorem State.setMxcsr_pc (s : State) (w : BitVec 32) : (s.setMxcsr w).pc = s.pc := rfl
@[simp] theorem State.setMxcsr_rflags (s : State) (w : BitVec 32) : (s.setMxcsr w).rflags = s.rflags := rfl
@[simp] theorem State.setMxcsr_mxcsr (s : State) (w : BitVec 32) : (s.setMxcsr w).mxcsr = w := rfl
@[simp] theorem State.setMxcsr_cr0 (s : State) (w : BitVec 32) : (s.setMxcsr w).cr0 = s.cr0 := rfl
@[simp] theorem State.setMxcsr_cr2 (s : State) (w : BitVec 32) : (s.setMxcsr w).cr2 = s.cr2 := rfl
@[simp] theorem State.setMxcsr_cr4 (s : State) (w : BitVec 32) : (s.setMxcsr w).cr4 = s.cr4 := rfl
@[simp] theorem State.setMxcsr_xcr0 (s : State) (w : BitVec 32) : (s.setMxcsr w).xcr0 = s.xcr0 := rfl
@[simp] theorem State.setMxcsr_efer (s : State) (w : BitVec 32) : (s.setMxcsr w).efer = s.efer := rfl
@[simp] theorem State.setMxcsr_csSel (s : State) (w : BitVec 32) : (s.setMxcsr w).csSel = s.csSel := rfl
@[simp] theorem State.setMxcsr_csBase (s : State) (w : BitVec 32) : (s.setMxcsr w).csBase = s.csBase := rfl
@[simp] theorem State.setMxcsr_csL (s : State) (w : BitVec 32) : (s.setMxcsr w).csL = s.csL := rfl
@[simp] theorem State.setMxcsr_cs16 (s : State) (w : BitVec 32) : (s.setMxcsr w).cs16 = s.cs16 := rfl
@[simp] theorem State.setMxcsr_fsBase (s : State) (w : BitVec 32) : (s.setMxcsr w).fsBase = s.fsBase := rfl
@[simp] theorem State.setMxcsr_gsBase (s : State) (w : BitVec 32) : (s.setMxcsr w).gsBase = s.gsBase := rfl
@[simp] theorem State.setMxcsr_mem (s : State) (w : BitVec 32) : (s.setMxcsr w).mem = s.mem := rfl
@[simp] theorem State.setMxcsr_program (s : State) (w : BitVec 32) : (s.setMxcsr w).program = s.program := rfl
@[simp] theorem State.setMxcsr_answers (s : State) (w : BitVec 32) : (s.setMxcsr w).answers = s.answers := rfl
@[simp] theorem State.setMxcsr_oracle (s : State) (w : BitVec 32) : (s.setMxcsr w).oracle = s.oracle := rfl
@[simp] theorem State.setMxcsr_reads (s : State) (w : BitVec 32) : (s.setMxcsr w).reads = s.reads := rfl

/-! ### setCr2 -/

@[simp] theorem State.setCr2_cfg (s : State) (a : Word64) : (s.setCr2 a).cfg = s.cfg := rfl
@[simp] theorem State.setCr2_v (s : State) (a : Word64) : (s.setCr2 a).v = s.v := rfl
@[simp] theorem State.setCr2_k (s : State) (a : Word64) : (s.setCr2 a).k = s.k := rfl
@[simp] theorem State.setCr2_x (s : State) (a : Word64) : (s.setCr2 a).x = s.x := rfl
@[simp] theorem State.setCr2_pc (s : State) (a : Word64) : (s.setCr2 a).pc = s.pc := rfl
@[simp] theorem State.setCr2_rflags (s : State) (a : Word64) : (s.setCr2 a).rflags = s.rflags := rfl
@[simp] theorem State.setCr2_mxcsr (s : State) (a : Word64) : (s.setCr2 a).mxcsr = s.mxcsr := rfl
@[simp] theorem State.setCr2_cr0 (s : State) (a : Word64) : (s.setCr2 a).cr0 = s.cr0 := rfl
@[simp] theorem State.setCr2_cr2 (s : State) (a : Word64) : (s.setCr2 a).cr2 = a := rfl
@[simp] theorem State.setCr2_cr4 (s : State) (a : Word64) : (s.setCr2 a).cr4 = s.cr4 := rfl
@[simp] theorem State.setCr2_xcr0 (s : State) (a : Word64) : (s.setCr2 a).xcr0 = s.xcr0 := rfl
@[simp] theorem State.setCr2_efer (s : State) (a : Word64) : (s.setCr2 a).efer = s.efer := rfl
@[simp] theorem State.setCr2_csSel (s : State) (a : Word64) : (s.setCr2 a).csSel = s.csSel := rfl
@[simp] theorem State.setCr2_csBase (s : State) (a : Word64) : (s.setCr2 a).csBase = s.csBase := rfl
@[simp] theorem State.setCr2_csL (s : State) (a : Word64) : (s.setCr2 a).csL = s.csL := rfl
@[simp] theorem State.setCr2_cs16 (s : State) (a : Word64) : (s.setCr2 a).cs16 = s.cs16 := rfl
@[simp] theorem State.setCr2_fsBase (s : State) (a : Word64) : (s.setCr2 a).fsBase = s.fsBase := rfl
@[simp] theorem State.setCr2_gsBase (s : State) (a : Word64) : (s.setCr2 a).gsBase = s.gsBase := rfl
@[simp] theorem State.setCr2_mem (s : State) (a : Word64) : (s.setCr2 a).mem = s.mem := rfl
@[simp] theorem State.setCr2_program (s : State) (a : Word64) : (s.setCr2 a).program = s.program := rfl
@[simp] theorem State.setCr2_answers (s : State) (a : Word64) : (s.setCr2 a).answers = s.answers := rfl
@[simp] theorem State.setCr2_oracle (s : State) (a : Word64) : (s.setCr2 a).oracle = s.oracle := rfl
@[simp] theorem State.setCr2_reads (s : State) (a : Word64) : (s.setCr2 a).reads = s.reads := rfl

/-! ### setV -/

@[simp] theorem State.setV_cfg (s : State) (n : BitVec 5) (w : VecReg) : (s.setV n w).cfg = s.cfg := rfl
@[simp] theorem State.setV_v (s : State) (n : BitVec 5) (w : VecReg) : (s.setV n w).v = s.v.set n.toNat w n.isLt := rfl
@[simp] theorem State.setV_k (s : State) (n : BitVec 5) (w : VecReg) : (s.setV n w).k = s.k := rfl
@[simp] theorem State.setV_x (s : State) (n : BitVec 5) (w : VecReg) : (s.setV n w).x = s.x := rfl
@[simp] theorem State.setV_pc (s : State) (n : BitVec 5) (w : VecReg) : (s.setV n w).pc = s.pc := rfl
@[simp] theorem State.setV_rflags (s : State) (n : BitVec 5) (w : VecReg) : (s.setV n w).rflags = s.rflags := rfl
@[simp] theorem State.setV_mxcsr (s : State) (n : BitVec 5) (w : VecReg) : (s.setV n w).mxcsr = s.mxcsr := rfl
@[simp] theorem State.setV_cr0 (s : State) (n : BitVec 5) (w : VecReg) : (s.setV n w).cr0 = s.cr0 := rfl
@[simp] theorem State.setV_cr2 (s : State) (n : BitVec 5) (w : VecReg) : (s.setV n w).cr2 = s.cr2 := rfl
@[simp] theorem State.setV_cr4 (s : State) (n : BitVec 5) (w : VecReg) : (s.setV n w).cr4 = s.cr4 := rfl
@[simp] theorem State.setV_xcr0 (s : State) (n : BitVec 5) (w : VecReg) : (s.setV n w).xcr0 = s.xcr0 := rfl
@[simp] theorem State.setV_efer (s : State) (n : BitVec 5) (w : VecReg) : (s.setV n w).efer = s.efer := rfl
@[simp] theorem State.setV_csSel (s : State) (n : BitVec 5) (w : VecReg) : (s.setV n w).csSel = s.csSel := rfl
@[simp] theorem State.setV_csBase (s : State) (n : BitVec 5) (w : VecReg) : (s.setV n w).csBase = s.csBase := rfl
@[simp] theorem State.setV_csL (s : State) (n : BitVec 5) (w : VecReg) : (s.setV n w).csL = s.csL := rfl
@[simp] theorem State.setV_cs16 (s : State) (n : BitVec 5) (w : VecReg) : (s.setV n w).cs16 = s.cs16 := rfl
@[simp] theorem State.setV_fsBase (s : State) (n : BitVec 5) (w : VecReg) : (s.setV n w).fsBase = s.fsBase := rfl
@[simp] theorem State.setV_gsBase (s : State) (n : BitVec 5) (w : VecReg) : (s.setV n w).gsBase = s.gsBase := rfl
@[simp] theorem State.setV_mem (s : State) (n : BitVec 5) (w : VecReg) : (s.setV n w).mem = s.mem := rfl
@[simp] theorem State.setV_program (s : State) (n : BitVec 5) (w : VecReg) : (s.setV n w).program = s.program := rfl
@[simp] theorem State.setV_answers (s : State) (n : BitVec 5) (w : VecReg) : (s.setV n w).answers = s.answers := rfl
@[simp] theorem State.setV_oracle (s : State) (n : BitVec 5) (w : VecReg) : (s.setV n w).oracle = s.oracle := rfl
@[simp] theorem State.setV_reads (s : State) (n : BitVec 5) (w : VecReg) : (s.setV n w).reads = s.reads := rfl

/-! ### setMem -/

@[simp] theorem State.setMem_cfg (s : State) (m : Memory) : (s.setMem m).cfg = s.cfg := rfl
@[simp] theorem State.setMem_v (s : State) (m : Memory) : (s.setMem m).v = s.v := rfl
@[simp] theorem State.setMem_k (s : State) (m : Memory) : (s.setMem m).k = s.k := rfl
@[simp] theorem State.setMem_x (s : State) (m : Memory) : (s.setMem m).x = s.x := rfl
@[simp] theorem State.setMem_pc (s : State) (m : Memory) : (s.setMem m).pc = s.pc := rfl
@[simp] theorem State.setMem_rflags (s : State) (m : Memory) : (s.setMem m).rflags = s.rflags := rfl
@[simp] theorem State.setMem_mxcsr (s : State) (m : Memory) : (s.setMem m).mxcsr = s.mxcsr := rfl
@[simp] theorem State.setMem_cr0 (s : State) (m : Memory) : (s.setMem m).cr0 = s.cr0 := rfl
@[simp] theorem State.setMem_cr2 (s : State) (m : Memory) : (s.setMem m).cr2 = s.cr2 := rfl
@[simp] theorem State.setMem_cr4 (s : State) (m : Memory) : (s.setMem m).cr4 = s.cr4 := rfl
@[simp] theorem State.setMem_xcr0 (s : State) (m : Memory) : (s.setMem m).xcr0 = s.xcr0 := rfl
@[simp] theorem State.setMem_efer (s : State) (m : Memory) : (s.setMem m).efer = s.efer := rfl
@[simp] theorem State.setMem_csSel (s : State) (m : Memory) : (s.setMem m).csSel = s.csSel := rfl
@[simp] theorem State.setMem_csBase (s : State) (m : Memory) : (s.setMem m).csBase = s.csBase := rfl
@[simp] theorem State.setMem_csL (s : State) (m : Memory) : (s.setMem m).csL = s.csL := rfl
@[simp] theorem State.setMem_cs16 (s : State) (m : Memory) : (s.setMem m).cs16 = s.cs16 := rfl
@[simp] theorem State.setMem_fsBase (s : State) (m : Memory) : (s.setMem m).fsBase = s.fsBase := rfl
@[simp] theorem State.setMem_gsBase (s : State) (m : Memory) : (s.setMem m).gsBase = s.gsBase := rfl
@[simp] theorem State.setMem_mem (s : State) (m : Memory) : (s.setMem m).mem = m := rfl
@[simp] theorem State.setMem_program (s : State) (m : Memory) : (s.setMem m).program = s.program := rfl
@[simp] theorem State.setMem_answers (s : State) (m : Memory) : (s.setMem m).answers = s.answers := rfl
@[simp] theorem State.setMem_oracle (s : State) (m : Memory) : (s.setMem m).oracle = s.oracle := rfl
@[simp] theorem State.setMem_reads (s : State) (m : Memory) : (s.setMem m).reads = s.reads := rfl

/-! ### noteRead -/

@[simp] theorem State.noteRead_cfg (s : State) (e : Option ReadEvent) : (s.noteRead e).cfg = s.cfg := rfl
@[simp] theorem State.noteRead_v (s : State) (e : Option ReadEvent) : (s.noteRead e).v = s.v := rfl
@[simp] theorem State.noteRead_k (s : State) (e : Option ReadEvent) : (s.noteRead e).k = s.k := rfl
@[simp] theorem State.noteRead_x (s : State) (e : Option ReadEvent) : (s.noteRead e).x = s.x := rfl
@[simp] theorem State.noteRead_pc (s : State) (e : Option ReadEvent) : (s.noteRead e).pc = s.pc := rfl
@[simp] theorem State.noteRead_rflags (s : State) (e : Option ReadEvent) : (s.noteRead e).rflags = s.rflags := rfl
@[simp] theorem State.noteRead_mxcsr (s : State) (e : Option ReadEvent) : (s.noteRead e).mxcsr = s.mxcsr := rfl
@[simp] theorem State.noteRead_cr0 (s : State) (e : Option ReadEvent) : (s.noteRead e).cr0 = s.cr0 := rfl
@[simp] theorem State.noteRead_cr2 (s : State) (e : Option ReadEvent) : (s.noteRead e).cr2 = s.cr2 := rfl
@[simp] theorem State.noteRead_cr4 (s : State) (e : Option ReadEvent) : (s.noteRead e).cr4 = s.cr4 := rfl
@[simp] theorem State.noteRead_xcr0 (s : State) (e : Option ReadEvent) : (s.noteRead e).xcr0 = s.xcr0 := rfl
@[simp] theorem State.noteRead_efer (s : State) (e : Option ReadEvent) : (s.noteRead e).efer = s.efer := rfl
@[simp] theorem State.noteRead_csSel (s : State) (e : Option ReadEvent) : (s.noteRead e).csSel = s.csSel := rfl
@[simp] theorem State.noteRead_csBase (s : State) (e : Option ReadEvent) : (s.noteRead e).csBase = s.csBase := rfl
@[simp] theorem State.noteRead_csL (s : State) (e : Option ReadEvent) : (s.noteRead e).csL = s.csL := rfl
@[simp] theorem State.noteRead_cs16 (s : State) (e : Option ReadEvent) : (s.noteRead e).cs16 = s.cs16 := rfl
@[simp] theorem State.noteRead_fsBase (s : State) (e : Option ReadEvent) : (s.noteRead e).fsBase = s.fsBase := rfl
@[simp] theorem State.noteRead_gsBase (s : State) (e : Option ReadEvent) : (s.noteRead e).gsBase = s.gsBase := rfl
@[simp] theorem State.noteRead_mem (s : State) (e : Option ReadEvent) : (s.noteRead e).mem = s.mem := rfl
@[simp] theorem State.noteRead_program (s : State) (e : Option ReadEvent) : (s.noteRead e).program = s.program := rfl
@[simp] theorem State.noteRead_answers (s : State) (e : Option ReadEvent) : (s.noteRead e).answers = s.answers := rfl
@[simp] theorem State.noteRead_oracle (s : State) (e : Option ReadEvent) : (s.noteRead e).oracle = s.oracle := rfl
@[simp] theorem State.noteRead_reads (s : State) (e : Option ReadEvent) : (s.noteRead e).reads = s.reads ++ e.toList := rfl

/-! ### writeLow -/

@[simp] theorem State.writeLow_cfg (s : State) (n : BitVec 5) (r : Single) : (s.writeLow n r).cfg = s.cfg := rfl
@[simp] theorem State.writeLow_v (s : State) (n : BitVec 5) (r : Single) : (s.writeLow n r).v = s.v.set n.toNat (mergeLow (s.vreg n) r) n.isLt := rfl
@[simp] theorem State.writeLow_k (s : State) (n : BitVec 5) (r : Single) : (s.writeLow n r).k = s.k := rfl
@[simp] theorem State.writeLow_x (s : State) (n : BitVec 5) (r : Single) : (s.writeLow n r).x = s.x := rfl
@[simp] theorem State.writeLow_pc (s : State) (n : BitVec 5) (r : Single) : (s.writeLow n r).pc = s.pc := rfl
@[simp] theorem State.writeLow_rflags (s : State) (n : BitVec 5) (r : Single) : (s.writeLow n r).rflags = s.rflags := rfl
@[simp] theorem State.writeLow_mxcsr (s : State) (n : BitVec 5) (r : Single) : (s.writeLow n r).mxcsr = s.mxcsr := rfl
@[simp] theorem State.writeLow_cr0 (s : State) (n : BitVec 5) (r : Single) : (s.writeLow n r).cr0 = s.cr0 := rfl
@[simp] theorem State.writeLow_cr2 (s : State) (n : BitVec 5) (r : Single) : (s.writeLow n r).cr2 = s.cr2 := rfl
@[simp] theorem State.writeLow_cr4 (s : State) (n : BitVec 5) (r : Single) : (s.writeLow n r).cr4 = s.cr4 := rfl
@[simp] theorem State.writeLow_xcr0 (s : State) (n : BitVec 5) (r : Single) : (s.writeLow n r).xcr0 = s.xcr0 := rfl
@[simp] theorem State.writeLow_efer (s : State) (n : BitVec 5) (r : Single) : (s.writeLow n r).efer = s.efer := rfl
@[simp] theorem State.writeLow_csSel (s : State) (n : BitVec 5) (r : Single) : (s.writeLow n r).csSel = s.csSel := rfl
@[simp] theorem State.writeLow_csBase (s : State) (n : BitVec 5) (r : Single) : (s.writeLow n r).csBase = s.csBase := rfl
@[simp] theorem State.writeLow_csL (s : State) (n : BitVec 5) (r : Single) : (s.writeLow n r).csL = s.csL := rfl
@[simp] theorem State.writeLow_cs16 (s : State) (n : BitVec 5) (r : Single) : (s.writeLow n r).cs16 = s.cs16 := rfl
@[simp] theorem State.writeLow_fsBase (s : State) (n : BitVec 5) (r : Single) : (s.writeLow n r).fsBase = s.fsBase := rfl
@[simp] theorem State.writeLow_gsBase (s : State) (n : BitVec 5) (r : Single) : (s.writeLow n r).gsBase = s.gsBase := rfl
@[simp] theorem State.writeLow_mem (s : State) (n : BitVec 5) (r : Single) : (s.writeLow n r).mem = s.mem := rfl
@[simp] theorem State.writeLow_program (s : State) (n : BitVec 5) (r : Single) : (s.writeLow n r).program = s.program := rfl
@[simp] theorem State.writeLow_answers (s : State) (n : BitVec 5) (r : Single) : (s.writeLow n r).answers = s.answers := rfl
@[simp] theorem State.writeLow_oracle (s : State) (n : BitVec 5) (r : Single) : (s.writeLow n r).oracle = s.oracle := rfl
@[simp] theorem State.writeLow_reads (s : State) (n : BitVec 5) (r : Single) : (s.writeLow n r).reads = s.reads := rfl

/-! ### orFlags -/

@[simp] theorem State.orFlags_cfg (s : State) (f : FpFlags) : (s.orFlags f).cfg = s.cfg := rfl
@[simp] theorem State.orFlags_v (s : State) (f : FpFlags) : (s.orFlags f).v = s.v := rfl
@[simp] theorem State.orFlags_k (s : State) (f : FpFlags) : (s.orFlags f).k = s.k := rfl
@[simp] theorem State.orFlags_x (s : State) (f : FpFlags) : (s.orFlags f).x = s.x := rfl
@[simp] theorem State.orFlags_pc (s : State) (f : FpFlags) : (s.orFlags f).pc = s.pc := rfl
@[simp] theorem State.orFlags_rflags (s : State) (f : FpFlags) : (s.orFlags f).rflags = s.rflags := rfl
@[simp] theorem State.orFlags_mxcsr (s : State) (f : FpFlags) : (s.orFlags f).mxcsr = Machine.orFlags s.mxcsr f := rfl
@[simp] theorem State.orFlags_cr0 (s : State) (f : FpFlags) : (s.orFlags f).cr0 = s.cr0 := rfl
@[simp] theorem State.orFlags_cr2 (s : State) (f : FpFlags) : (s.orFlags f).cr2 = s.cr2 := rfl
@[simp] theorem State.orFlags_cr4 (s : State) (f : FpFlags) : (s.orFlags f).cr4 = s.cr4 := rfl
@[simp] theorem State.orFlags_xcr0 (s : State) (f : FpFlags) : (s.orFlags f).xcr0 = s.xcr0 := rfl
@[simp] theorem State.orFlags_efer (s : State) (f : FpFlags) : (s.orFlags f).efer = s.efer := rfl
@[simp] theorem State.orFlags_csSel (s : State) (f : FpFlags) : (s.orFlags f).csSel = s.csSel := rfl
@[simp] theorem State.orFlags_csBase (s : State) (f : FpFlags) : (s.orFlags f).csBase = s.csBase := rfl
@[simp] theorem State.orFlags_csL (s : State) (f : FpFlags) : (s.orFlags f).csL = s.csL := rfl
@[simp] theorem State.orFlags_cs16 (s : State) (f : FpFlags) : (s.orFlags f).cs16 = s.cs16 := rfl
@[simp] theorem State.orFlags_fsBase (s : State) (f : FpFlags) : (s.orFlags f).fsBase = s.fsBase := rfl
@[simp] theorem State.orFlags_gsBase (s : State) (f : FpFlags) : (s.orFlags f).gsBase = s.gsBase := rfl
@[simp] theorem State.orFlags_mem (s : State) (f : FpFlags) : (s.orFlags f).mem = s.mem := rfl
@[simp] theorem State.orFlags_program (s : State) (f : FpFlags) : (s.orFlags f).program = s.program := rfl
@[simp] theorem State.orFlags_answers (s : State) (f : FpFlags) : (s.orFlags f).answers = s.answers := rfl
@[simp] theorem State.orFlags_oracle (s : State) (f : FpFlags) : (s.orFlags f).oracle = s.oracle := rfl
@[simp] theorem State.orFlags_reads (s : State) (f : FpFlags) : (s.orFlags f).reads = s.reads := rfl

/-! ### supply -/

@[simp] theorem State.supply_cfg (s : State) (a : Word64) (bs : List Byte) : (s.supply a bs).cfg = s.cfg := rfl
@[simp] theorem State.supply_v (s : State) (a : Word64) (bs : List Byte) : (s.supply a bs).v = s.v := rfl
@[simp] theorem State.supply_k (s : State) (a : Word64) (bs : List Byte) : (s.supply a bs).k = s.k := rfl
@[simp] theorem State.supply_x (s : State) (a : Word64) (bs : List Byte) : (s.supply a bs).x = s.x := rfl
@[simp] theorem State.supply_pc (s : State) (a : Word64) (bs : List Byte) : (s.supply a bs).pc = s.pc := rfl
@[simp] theorem State.supply_rflags (s : State) (a : Word64) (bs : List Byte) : (s.supply a bs).rflags = s.rflags := rfl
@[simp] theorem State.supply_mxcsr (s : State) (a : Word64) (bs : List Byte) : (s.supply a bs).mxcsr = s.mxcsr := rfl
@[simp] theorem State.supply_cr0 (s : State) (a : Word64) (bs : List Byte) : (s.supply a bs).cr0 = s.cr0 := rfl
@[simp] theorem State.supply_cr2 (s : State) (a : Word64) (bs : List Byte) : (s.supply a bs).cr2 = s.cr2 := rfl
@[simp] theorem State.supply_cr4 (s : State) (a : Word64) (bs : List Byte) : (s.supply a bs).cr4 = s.cr4 := rfl
@[simp] theorem State.supply_xcr0 (s : State) (a : Word64) (bs : List Byte) : (s.supply a bs).xcr0 = s.xcr0 := rfl
@[simp] theorem State.supply_efer (s : State) (a : Word64) (bs : List Byte) : (s.supply a bs).efer = s.efer := rfl
@[simp] theorem State.supply_csSel (s : State) (a : Word64) (bs : List Byte) : (s.supply a bs).csSel = s.csSel := rfl
@[simp] theorem State.supply_csBase (s : State) (a : Word64) (bs : List Byte) : (s.supply a bs).csBase = s.csBase := rfl
@[simp] theorem State.supply_csL (s : State) (a : Word64) (bs : List Byte) : (s.supply a bs).csL = s.csL := rfl
@[simp] theorem State.supply_cs16 (s : State) (a : Word64) (bs : List Byte) : (s.supply a bs).cs16 = s.cs16 := rfl
@[simp] theorem State.supply_fsBase (s : State) (a : Word64) (bs : List Byte) : (s.supply a bs).fsBase = s.fsBase := rfl
@[simp] theorem State.supply_gsBase (s : State) (a : Word64) (bs : List Byte) : (s.supply a bs).gsBase = s.gsBase := rfl
@[simp] theorem State.supply_mem (s : State) (a : Word64) (bs : List Byte) : (s.supply a bs).mem = s.mem.writeBytes a bs := rfl
@[simp] theorem State.supply_program (s : State) (a : Word64) (bs : List Byte) : (s.supply a bs).program = ⟨a, bs.length⟩ :: s.program := rfl
@[simp] theorem State.supply_answers (s : State) (a : Word64) (bs : List Byte) : (s.supply a bs).answers = s.answers := rfl
@[simp] theorem State.supply_oracle (s : State) (a : Word64) (bs : List Byte) : (s.supply a bs).oracle = s.oracle := rfl
@[simp] theorem State.supply_reads (s : State) (a : Word64) (bs : List Byte) : (s.supply a bs).reads = s.reads := rfl

/-! ### What the mode and the enabling state depend on is not changed by any update an instruction makes -/

@[simp] theorem State.setPc_is64 (s : State) (a : Word64) : (s.setPc a).is64 = s.is64 := rfl
@[simp] theorem State.setPc_mode (s : State) (a : Word64) : (s.setPc a).mode = s.mode := rfl
@[simp] theorem State.setPc_cpl (s : State) (a : Word64) : (s.setPc a).cpl = s.cpl := rfl
@[simp] theorem State.setPc_codeMode (s : State) (a : Word64) : (s.setPc a).codeMode = s.codeMode := rfl
@[simp] theorem State.setPc_pe (s : State) (a : Word64) : (s.setPc a).pe = s.pe := rfl
@[simp] theorem State.setPc_ts (s : State) (a : Word64) : (s.setPc a).ts = s.ts := rfl
@[simp] theorem State.setPc_am (s : State) (a : Word64) : (s.setPc a).am = s.am := rfl
@[simp] theorem State.setPc_osxmmexcpt (s : State) (a : Word64) : (s.setPc a).osxmmexcpt = s.osxmmexcpt := rfl
@[simp] theorem State.setPc_osxsave (s : State) (a : Word64) : (s.setPc a).osxsave = s.osxsave := rfl
@[simp] theorem State.setPc_ac (s : State) (a : Word64) : (s.setPc a).ac = s.ac := rfl
@[simp] theorem State.setPc_vm (s : State) (a : Word64) : (s.setPc a).vm = s.vm := rfl
@[simp] theorem State.setPc_tf (s : State) (a : Word64) : (s.setPc a).tf = s.tf := rfl
@[simp] theorem State.setPc_lma (s : State) (a : Word64) : (s.setPc a).lma = s.lma := rfl
@[simp] theorem State.setPc_recognises (s : State) (a : Word64) : (s.setPc a).recognises = s.recognises := rfl
@[simp] theorem State.setPc_avxEnabled (s : State) (a : Word64) : (s.setPc a).avxEnabled = s.avxEnabled := rfl
@[simp] theorem State.setPc_avx512Enabled (s : State) (a : Word64) : (s.setPc a).avx512Enabled = s.avx512Enabled := rfl
@[simp] theorem State.setPc_vexUsable (s : State) (a : Word64) : (s.setPc a).vexUsable = s.vexUsable := rfl
@[simp] theorem State.setPc_evexUsable (s : State) (a : Word64) : (s.setPc a).evexUsable = s.evexUsable := rfl
@[simp] theorem State.setPc_alignmentChecked (s : State) (a : Word64) : (s.setPc a).alignmentChecked = s.alignmentChecked := rfl
@[simp] theorem State.setPc_canonical (s : State) (a : Word64) (q : Word64) : (s.setPc a).canonical q = s.canonical q := rfl
@[simp] theorem State.setPc_regNumber (s : State) (a : Word64) (q : BitVec 5) : (s.setPc a).regNumber q = s.regNumber q := rfl

@[simp] theorem State.setMxcsr_is64 (s : State) (w : BitVec 32) : (s.setMxcsr w).is64 = s.is64 := rfl
@[simp] theorem State.setMxcsr_mode (s : State) (w : BitVec 32) : (s.setMxcsr w).mode = s.mode := rfl
@[simp] theorem State.setMxcsr_cpl (s : State) (w : BitVec 32) : (s.setMxcsr w).cpl = s.cpl := rfl
@[simp] theorem State.setMxcsr_codeMode (s : State) (w : BitVec 32) : (s.setMxcsr w).codeMode = s.codeMode := rfl
@[simp] theorem State.setMxcsr_pe (s : State) (w : BitVec 32) : (s.setMxcsr w).pe = s.pe := rfl
@[simp] theorem State.setMxcsr_ts (s : State) (w : BitVec 32) : (s.setMxcsr w).ts = s.ts := rfl
@[simp] theorem State.setMxcsr_am (s : State) (w : BitVec 32) : (s.setMxcsr w).am = s.am := rfl
@[simp] theorem State.setMxcsr_osxmmexcpt (s : State) (w : BitVec 32) : (s.setMxcsr w).osxmmexcpt = s.osxmmexcpt := rfl
@[simp] theorem State.setMxcsr_osxsave (s : State) (w : BitVec 32) : (s.setMxcsr w).osxsave = s.osxsave := rfl
@[simp] theorem State.setMxcsr_ac (s : State) (w : BitVec 32) : (s.setMxcsr w).ac = s.ac := rfl
@[simp] theorem State.setMxcsr_vm (s : State) (w : BitVec 32) : (s.setMxcsr w).vm = s.vm := rfl
@[simp] theorem State.setMxcsr_tf (s : State) (w : BitVec 32) : (s.setMxcsr w).tf = s.tf := rfl
@[simp] theorem State.setMxcsr_lma (s : State) (w : BitVec 32) : (s.setMxcsr w).lma = s.lma := rfl
@[simp] theorem State.setMxcsr_recognises (s : State) (w : BitVec 32) : (s.setMxcsr w).recognises = s.recognises := rfl
@[simp] theorem State.setMxcsr_avxEnabled (s : State) (w : BitVec 32) : (s.setMxcsr w).avxEnabled = s.avxEnabled := rfl
@[simp] theorem State.setMxcsr_avx512Enabled (s : State) (w : BitVec 32) : (s.setMxcsr w).avx512Enabled = s.avx512Enabled := rfl
@[simp] theorem State.setMxcsr_vexUsable (s : State) (w : BitVec 32) : (s.setMxcsr w).vexUsable = s.vexUsable := rfl
@[simp] theorem State.setMxcsr_evexUsable (s : State) (w : BitVec 32) : (s.setMxcsr w).evexUsable = s.evexUsable := rfl
@[simp] theorem State.setMxcsr_alignmentChecked (s : State) (w : BitVec 32) : (s.setMxcsr w).alignmentChecked = s.alignmentChecked := rfl
@[simp] theorem State.setMxcsr_canonical (s : State) (w : BitVec 32) (q : Word64) : (s.setMxcsr w).canonical q = s.canonical q := rfl
@[simp] theorem State.setMxcsr_regNumber (s : State) (w : BitVec 32) (q : BitVec 5) : (s.setMxcsr w).regNumber q = s.regNumber q := rfl

@[simp] theorem State.setCr2_is64 (s : State) (a : Word64) : (s.setCr2 a).is64 = s.is64 := rfl
@[simp] theorem State.setCr2_mode (s : State) (a : Word64) : (s.setCr2 a).mode = s.mode := rfl
@[simp] theorem State.setCr2_cpl (s : State) (a : Word64) : (s.setCr2 a).cpl = s.cpl := rfl
@[simp] theorem State.setCr2_codeMode (s : State) (a : Word64) : (s.setCr2 a).codeMode = s.codeMode := rfl
@[simp] theorem State.setCr2_pe (s : State) (a : Word64) : (s.setCr2 a).pe = s.pe := rfl
@[simp] theorem State.setCr2_ts (s : State) (a : Word64) : (s.setCr2 a).ts = s.ts := rfl
@[simp] theorem State.setCr2_am (s : State) (a : Word64) : (s.setCr2 a).am = s.am := rfl
@[simp] theorem State.setCr2_osxmmexcpt (s : State) (a : Word64) : (s.setCr2 a).osxmmexcpt = s.osxmmexcpt := rfl
@[simp] theorem State.setCr2_osxsave (s : State) (a : Word64) : (s.setCr2 a).osxsave = s.osxsave := rfl
@[simp] theorem State.setCr2_ac (s : State) (a : Word64) : (s.setCr2 a).ac = s.ac := rfl
@[simp] theorem State.setCr2_vm (s : State) (a : Word64) : (s.setCr2 a).vm = s.vm := rfl
@[simp] theorem State.setCr2_tf (s : State) (a : Word64) : (s.setCr2 a).tf = s.tf := rfl
@[simp] theorem State.setCr2_lma (s : State) (a : Word64) : (s.setCr2 a).lma = s.lma := rfl
@[simp] theorem State.setCr2_recognises (s : State) (a : Word64) : (s.setCr2 a).recognises = s.recognises := rfl
@[simp] theorem State.setCr2_avxEnabled (s : State) (a : Word64) : (s.setCr2 a).avxEnabled = s.avxEnabled := rfl
@[simp] theorem State.setCr2_avx512Enabled (s : State) (a : Word64) : (s.setCr2 a).avx512Enabled = s.avx512Enabled := rfl
@[simp] theorem State.setCr2_vexUsable (s : State) (a : Word64) : (s.setCr2 a).vexUsable = s.vexUsable := rfl
@[simp] theorem State.setCr2_evexUsable (s : State) (a : Word64) : (s.setCr2 a).evexUsable = s.evexUsable := rfl
@[simp] theorem State.setCr2_alignmentChecked (s : State) (a : Word64) : (s.setCr2 a).alignmentChecked = s.alignmentChecked := rfl
@[simp] theorem State.setCr2_canonical (s : State) (a : Word64) (q : Word64) : (s.setCr2 a).canonical q = s.canonical q := rfl
@[simp] theorem State.setCr2_regNumber (s : State) (a : Word64) (q : BitVec 5) : (s.setCr2 a).regNumber q = s.regNumber q := rfl

@[simp] theorem State.setV_is64 (s : State) (n : BitVec 5) (w : VecReg) : (s.setV n w).is64 = s.is64 := rfl
@[simp] theorem State.setV_mode (s : State) (n : BitVec 5) (w : VecReg) : (s.setV n w).mode = s.mode := rfl
@[simp] theorem State.setV_cpl (s : State) (n : BitVec 5) (w : VecReg) : (s.setV n w).cpl = s.cpl := rfl
@[simp] theorem State.setV_codeMode (s : State) (n : BitVec 5) (w : VecReg) : (s.setV n w).codeMode = s.codeMode := rfl
@[simp] theorem State.setV_pe (s : State) (n : BitVec 5) (w : VecReg) : (s.setV n w).pe = s.pe := rfl
@[simp] theorem State.setV_ts (s : State) (n : BitVec 5) (w : VecReg) : (s.setV n w).ts = s.ts := rfl
@[simp] theorem State.setV_am (s : State) (n : BitVec 5) (w : VecReg) : (s.setV n w).am = s.am := rfl
@[simp] theorem State.setV_osxmmexcpt (s : State) (n : BitVec 5) (w : VecReg) : (s.setV n w).osxmmexcpt = s.osxmmexcpt := rfl
@[simp] theorem State.setV_osxsave (s : State) (n : BitVec 5) (w : VecReg) : (s.setV n w).osxsave = s.osxsave := rfl
@[simp] theorem State.setV_ac (s : State) (n : BitVec 5) (w : VecReg) : (s.setV n w).ac = s.ac := rfl
@[simp] theorem State.setV_vm (s : State) (n : BitVec 5) (w : VecReg) : (s.setV n w).vm = s.vm := rfl
@[simp] theorem State.setV_tf (s : State) (n : BitVec 5) (w : VecReg) : (s.setV n w).tf = s.tf := rfl
@[simp] theorem State.setV_lma (s : State) (n : BitVec 5) (w : VecReg) : (s.setV n w).lma = s.lma := rfl
@[simp] theorem State.setV_recognises (s : State) (n : BitVec 5) (w : VecReg) : (s.setV n w).recognises = s.recognises := rfl
@[simp] theorem State.setV_avxEnabled (s : State) (n : BitVec 5) (w : VecReg) : (s.setV n w).avxEnabled = s.avxEnabled := rfl
@[simp] theorem State.setV_avx512Enabled (s : State) (n : BitVec 5) (w : VecReg) : (s.setV n w).avx512Enabled = s.avx512Enabled := rfl
@[simp] theorem State.setV_vexUsable (s : State) (n : BitVec 5) (w : VecReg) : (s.setV n w).vexUsable = s.vexUsable := rfl
@[simp] theorem State.setV_evexUsable (s : State) (n : BitVec 5) (w : VecReg) : (s.setV n w).evexUsable = s.evexUsable := rfl
@[simp] theorem State.setV_alignmentChecked (s : State) (n : BitVec 5) (w : VecReg) : (s.setV n w).alignmentChecked = s.alignmentChecked := rfl
@[simp] theorem State.setV_canonical (s : State) (n : BitVec 5) (w : VecReg) (q : Word64) : (s.setV n w).canonical q = s.canonical q := rfl
@[simp] theorem State.setV_regNumber (s : State) (n : BitVec 5) (w : VecReg) (q : BitVec 5) : (s.setV n w).regNumber q = s.regNumber q := rfl

@[simp] theorem State.setMem_is64 (s : State) (m : Memory) : (s.setMem m).is64 = s.is64 := rfl
@[simp] theorem State.setMem_mode (s : State) (m : Memory) : (s.setMem m).mode = s.mode := rfl
@[simp] theorem State.setMem_cpl (s : State) (m : Memory) : (s.setMem m).cpl = s.cpl := rfl
@[simp] theorem State.setMem_codeMode (s : State) (m : Memory) : (s.setMem m).codeMode = s.codeMode := rfl
@[simp] theorem State.setMem_pe (s : State) (m : Memory) : (s.setMem m).pe = s.pe := rfl
@[simp] theorem State.setMem_ts (s : State) (m : Memory) : (s.setMem m).ts = s.ts := rfl
@[simp] theorem State.setMem_am (s : State) (m : Memory) : (s.setMem m).am = s.am := rfl
@[simp] theorem State.setMem_osxmmexcpt (s : State) (m : Memory) : (s.setMem m).osxmmexcpt = s.osxmmexcpt := rfl
@[simp] theorem State.setMem_osxsave (s : State) (m : Memory) : (s.setMem m).osxsave = s.osxsave := rfl
@[simp] theorem State.setMem_ac (s : State) (m : Memory) : (s.setMem m).ac = s.ac := rfl
@[simp] theorem State.setMem_vm (s : State) (m : Memory) : (s.setMem m).vm = s.vm := rfl
@[simp] theorem State.setMem_tf (s : State) (m : Memory) : (s.setMem m).tf = s.tf := rfl
@[simp] theorem State.setMem_lma (s : State) (m : Memory) : (s.setMem m).lma = s.lma := rfl
@[simp] theorem State.setMem_recognises (s : State) (m : Memory) : (s.setMem m).recognises = s.recognises := rfl
@[simp] theorem State.setMem_avxEnabled (s : State) (m : Memory) : (s.setMem m).avxEnabled = s.avxEnabled := rfl
@[simp] theorem State.setMem_avx512Enabled (s : State) (m : Memory) : (s.setMem m).avx512Enabled = s.avx512Enabled := rfl
@[simp] theorem State.setMem_vexUsable (s : State) (m : Memory) : (s.setMem m).vexUsable = s.vexUsable := rfl
@[simp] theorem State.setMem_evexUsable (s : State) (m : Memory) : (s.setMem m).evexUsable = s.evexUsable := rfl
@[simp] theorem State.setMem_alignmentChecked (s : State) (m : Memory) : (s.setMem m).alignmentChecked = s.alignmentChecked := rfl
@[simp] theorem State.setMem_canonical (s : State) (m : Memory) (q : Word64) : (s.setMem m).canonical q = s.canonical q := rfl
@[simp] theorem State.setMem_regNumber (s : State) (m : Memory) (q : BitVec 5) : (s.setMem m).regNumber q = s.regNumber q := rfl

@[simp] theorem State.noteRead_is64 (s : State) (e : Option ReadEvent) : (s.noteRead e).is64 = s.is64 := rfl
@[simp] theorem State.noteRead_mode (s : State) (e : Option ReadEvent) : (s.noteRead e).mode = s.mode := rfl
@[simp] theorem State.noteRead_cpl (s : State) (e : Option ReadEvent) : (s.noteRead e).cpl = s.cpl := rfl
@[simp] theorem State.noteRead_codeMode (s : State) (e : Option ReadEvent) : (s.noteRead e).codeMode = s.codeMode := rfl
@[simp] theorem State.noteRead_pe (s : State) (e : Option ReadEvent) : (s.noteRead e).pe = s.pe := rfl
@[simp] theorem State.noteRead_ts (s : State) (e : Option ReadEvent) : (s.noteRead e).ts = s.ts := rfl
@[simp] theorem State.noteRead_am (s : State) (e : Option ReadEvent) : (s.noteRead e).am = s.am := rfl
@[simp] theorem State.noteRead_osxmmexcpt (s : State) (e : Option ReadEvent) : (s.noteRead e).osxmmexcpt = s.osxmmexcpt := rfl
@[simp] theorem State.noteRead_osxsave (s : State) (e : Option ReadEvent) : (s.noteRead e).osxsave = s.osxsave := rfl
@[simp] theorem State.noteRead_ac (s : State) (e : Option ReadEvent) : (s.noteRead e).ac = s.ac := rfl
@[simp] theorem State.noteRead_vm (s : State) (e : Option ReadEvent) : (s.noteRead e).vm = s.vm := rfl
@[simp] theorem State.noteRead_tf (s : State) (e : Option ReadEvent) : (s.noteRead e).tf = s.tf := rfl
@[simp] theorem State.noteRead_lma (s : State) (e : Option ReadEvent) : (s.noteRead e).lma = s.lma := rfl
@[simp] theorem State.noteRead_recognises (s : State) (e : Option ReadEvent) : (s.noteRead e).recognises = s.recognises := rfl
@[simp] theorem State.noteRead_avxEnabled (s : State) (e : Option ReadEvent) : (s.noteRead e).avxEnabled = s.avxEnabled := rfl
@[simp] theorem State.noteRead_avx512Enabled (s : State) (e : Option ReadEvent) : (s.noteRead e).avx512Enabled = s.avx512Enabled := rfl
@[simp] theorem State.noteRead_vexUsable (s : State) (e : Option ReadEvent) : (s.noteRead e).vexUsable = s.vexUsable := rfl
@[simp] theorem State.noteRead_evexUsable (s : State) (e : Option ReadEvent) : (s.noteRead e).evexUsable = s.evexUsable := rfl
@[simp] theorem State.noteRead_alignmentChecked (s : State) (e : Option ReadEvent) : (s.noteRead e).alignmentChecked = s.alignmentChecked := rfl
@[simp] theorem State.noteRead_canonical (s : State) (e : Option ReadEvent) (q : Word64) : (s.noteRead e).canonical q = s.canonical q := rfl
@[simp] theorem State.noteRead_regNumber (s : State) (e : Option ReadEvent) (q : BitVec 5) : (s.noteRead e).regNumber q = s.regNumber q := rfl

@[simp] theorem State.writeLow_is64 (s : State) (n : BitVec 5) (r : Single) : (s.writeLow n r).is64 = s.is64 := rfl
@[simp] theorem State.writeLow_mode (s : State) (n : BitVec 5) (r : Single) : (s.writeLow n r).mode = s.mode := rfl
@[simp] theorem State.writeLow_cpl (s : State) (n : BitVec 5) (r : Single) : (s.writeLow n r).cpl = s.cpl := rfl
@[simp] theorem State.writeLow_codeMode (s : State) (n : BitVec 5) (r : Single) : (s.writeLow n r).codeMode = s.codeMode := rfl
@[simp] theorem State.writeLow_pe (s : State) (n : BitVec 5) (r : Single) : (s.writeLow n r).pe = s.pe := rfl
@[simp] theorem State.writeLow_ts (s : State) (n : BitVec 5) (r : Single) : (s.writeLow n r).ts = s.ts := rfl
@[simp] theorem State.writeLow_am (s : State) (n : BitVec 5) (r : Single) : (s.writeLow n r).am = s.am := rfl
@[simp] theorem State.writeLow_osxmmexcpt (s : State) (n : BitVec 5) (r : Single) : (s.writeLow n r).osxmmexcpt = s.osxmmexcpt := rfl
@[simp] theorem State.writeLow_osxsave (s : State) (n : BitVec 5) (r : Single) : (s.writeLow n r).osxsave = s.osxsave := rfl
@[simp] theorem State.writeLow_ac (s : State) (n : BitVec 5) (r : Single) : (s.writeLow n r).ac = s.ac := rfl
@[simp] theorem State.writeLow_vm (s : State) (n : BitVec 5) (r : Single) : (s.writeLow n r).vm = s.vm := rfl
@[simp] theorem State.writeLow_tf (s : State) (n : BitVec 5) (r : Single) : (s.writeLow n r).tf = s.tf := rfl
@[simp] theorem State.writeLow_lma (s : State) (n : BitVec 5) (r : Single) : (s.writeLow n r).lma = s.lma := rfl
@[simp] theorem State.writeLow_recognises (s : State) (n : BitVec 5) (r : Single) : (s.writeLow n r).recognises = s.recognises := rfl
@[simp] theorem State.writeLow_avxEnabled (s : State) (n : BitVec 5) (r : Single) : (s.writeLow n r).avxEnabled = s.avxEnabled := rfl
@[simp] theorem State.writeLow_avx512Enabled (s : State) (n : BitVec 5) (r : Single) : (s.writeLow n r).avx512Enabled = s.avx512Enabled := rfl
@[simp] theorem State.writeLow_vexUsable (s : State) (n : BitVec 5) (r : Single) : (s.writeLow n r).vexUsable = s.vexUsable := rfl
@[simp] theorem State.writeLow_evexUsable (s : State) (n : BitVec 5) (r : Single) : (s.writeLow n r).evexUsable = s.evexUsable := rfl
@[simp] theorem State.writeLow_alignmentChecked (s : State) (n : BitVec 5) (r : Single) : (s.writeLow n r).alignmentChecked = s.alignmentChecked := rfl
@[simp] theorem State.writeLow_canonical (s : State) (n : BitVec 5) (r : Single) (q : Word64) : (s.writeLow n r).canonical q = s.canonical q := rfl
@[simp] theorem State.writeLow_regNumber (s : State) (n : BitVec 5) (r : Single) (q : BitVec 5) : (s.writeLow n r).regNumber q = s.regNumber q := rfl

@[simp] theorem State.orFlags_is64 (s : State) (f : FpFlags) : (s.orFlags f).is64 = s.is64 := rfl
@[simp] theorem State.orFlags_mode (s : State) (f : FpFlags) : (s.orFlags f).mode = s.mode := rfl
@[simp] theorem State.orFlags_cpl (s : State) (f : FpFlags) : (s.orFlags f).cpl = s.cpl := rfl
@[simp] theorem State.orFlags_codeMode (s : State) (f : FpFlags) : (s.orFlags f).codeMode = s.codeMode := rfl
@[simp] theorem State.orFlags_pe (s : State) (f : FpFlags) : (s.orFlags f).pe = s.pe := rfl
@[simp] theorem State.orFlags_ts (s : State) (f : FpFlags) : (s.orFlags f).ts = s.ts := rfl
@[simp] theorem State.orFlags_am (s : State) (f : FpFlags) : (s.orFlags f).am = s.am := rfl
@[simp] theorem State.orFlags_osxmmexcpt (s : State) (f : FpFlags) : (s.orFlags f).osxmmexcpt = s.osxmmexcpt := rfl
@[simp] theorem State.orFlags_osxsave (s : State) (f : FpFlags) : (s.orFlags f).osxsave = s.osxsave := rfl
@[simp] theorem State.orFlags_ac (s : State) (f : FpFlags) : (s.orFlags f).ac = s.ac := rfl
@[simp] theorem State.orFlags_vm (s : State) (f : FpFlags) : (s.orFlags f).vm = s.vm := rfl
@[simp] theorem State.orFlags_tf (s : State) (f : FpFlags) : (s.orFlags f).tf = s.tf := rfl
@[simp] theorem State.orFlags_lma (s : State) (f : FpFlags) : (s.orFlags f).lma = s.lma := rfl
@[simp] theorem State.orFlags_recognises (s : State) (f : FpFlags) : (s.orFlags f).recognises = s.recognises := rfl
@[simp] theorem State.orFlags_avxEnabled (s : State) (f : FpFlags) : (s.orFlags f).avxEnabled = s.avxEnabled := rfl
@[simp] theorem State.orFlags_avx512Enabled (s : State) (f : FpFlags) : (s.orFlags f).avx512Enabled = s.avx512Enabled := rfl
@[simp] theorem State.orFlags_vexUsable (s : State) (f : FpFlags) : (s.orFlags f).vexUsable = s.vexUsable := rfl
@[simp] theorem State.orFlags_evexUsable (s : State) (f : FpFlags) : (s.orFlags f).evexUsable = s.evexUsable := rfl
@[simp] theorem State.orFlags_alignmentChecked (s : State) (f : FpFlags) : (s.orFlags f).alignmentChecked = s.alignmentChecked := rfl
@[simp] theorem State.orFlags_canonical (s : State) (f : FpFlags) (q : Word64) : (s.orFlags f).canonical q = s.canonical q := rfl
@[simp] theorem State.orFlags_regNumber (s : State) (f : FpFlags) (q : BitVec 5) : (s.orFlags f).regNumber q = s.regNumber q := rfl

end Sys2Proof.Machine
end

