-- ==== Sys2Proof/Laws/Decode.lean ====
section
/-! SUPPORT. What the parts of the decoder read from the parts of the encoder. -/

namespace Sys2Proof

/-! ### Bytes and their fields -/

@[simp] theorem pack233_hi (h : BitVec 2) (m l : BitVec 3) : (pack233 h m l).extractLsb' 6 2 = h := by
  revert h m l; decide

@[simp] theorem pack233_mid (h : BitVec 2) (m l : BitVec 3) : (pack233 h m l).extractLsb' 3 3 = m := by
  revert h m l; decide

@[simp] theorem pack233_lo (h : BitVec 2) (m l : BitVec 3) : (pack233 h m l).extractLsb' 0 3 = l := by
  revert h m l; decide

/-- A byte is its three ModRM fields. -/
theorem pack233_fields (w : Byte) : pack233 (w.extractLsb' 6 2) (w.extractLsb' 3 3) (w.extractLsb' 0 3) = w := by
  revert w; decide

@[simp] theorem LegacyByte.ofByte_toByte (p : LegacyByte) : LegacyByte.ofByte p.toByte = some p := by
  cases p <;> rfl

/-- Only the byte of a legacy prefix is read as it. -/
theorem LegacyByte.toByte_of_ofByte {b : Byte} {p : LegacyByte} (h : LegacyByte.ofByte b = some p) : p.toByte = b := by
  revert b p; decide

@[simp] theorem Opcode.ofByte_toByte (o : Opcode) : Opcode.ofByte o.toByte = some o := by
  cases o <;> rfl

/-- Only the three opcode bytes are read. -/
theorem Opcode.toByte_of_ofByte {b : Byte} {o : Opcode} (h : Opcode.ofByte b = some o) : o.toByte = b := by
  revert b o; decide

/-! ### Displacements -/

@[simp] theorem takeDisp32_bytes (d : BitVec 32) (rest : List Byte) :
    takeDisp32 (disp32Bytes d ++ rest) = .ok (d, rest) := by
  have h : d.extractLsb' 24 8 ++ d.extractLsb' 16 8 ++ d.extractLsb' 8 8 ++ d.extractLsb' 0 8 = d := by
    apply BitVec.eq_of_getLsbD_eq
    intro i hi
    simp only [BitVec.getLsbD_append, BitVec.getLsbD_extractLsb']
    split_ifs with h1 h2 h3
    · simp [h1]
    · simp [h2, show 8 + (i - 8) = i by omega]
    · simp only [h3, decide_true, Bool.true_and, show 16 + (i - 8 - 8) = i by omega]
    · simp only [show i - 8 - 8 - 8 < 8 by omega, decide_true, Bool.true_and, show 24 + (i - 8 - 8 - 8) = i by omega]
  simp [takeDisp32, disp32Bytes, h]

theorem Disp.bytes_length (d : Disp) : d.bytes.length = d.size := by
  cases d <;> rfl

@[simp] theorem takeDisp_bytes (d : Disp) (rest : List Byte) : takeDisp d.mod (d.bytes ++ rest) = .ok (d, rest) := by
  cases d <;> simp [takeDisp, Disp.mod, Disp.bytes]

theorem Disp.mod_ne_three (d : Disp) : d.mod ≠ 3#2 := by
  cases d <;> simp [Disp.mod]

theorem Disp.mod_eq_zero (d : Disp) : d.mod = 0#2 ↔ d = .none := by
  cases d <;> simp [Disp.mod]

/-! ### ModRM, SIB and displacement -/

theorem modRMBytes_length (reg : BitVec 3) (o : Operand3) : (modRMBytes reg o).length = 1 + o.size := by
  rcases o with ⟨x, b, rm⟩ | ⟨x, b, a⟩
  · rfl
  · cases a <;> simp [modRMBytes, Operand3.size, Disp.bytes_length, disp32Bytes] <;> omega

/-- The decoder reads ModRM, SIB and displacement back, where memory forms use the table of R81. -/
theorem takeModRM_bytes (reg : BitVec 3) (o : Operand3) (rest : List Byte) (h : o.wf = true) :
    takeModRM false o.x o.b (modRMBytes reg o ++ rest) = .ok (reg, o, rest) := by
  rcases o with ⟨x, b, rm⟩ | ⟨x, b, a⟩
  · simp [modRMBytes, takeModRM, Operand3.x, Operand3.b]
  · cases a with
    | ripRel d => simp [modRMBytes, takeModRM, Operand3.x, Operand3.b, takeAddr]
    | base rm d =>
      have h4 : rm ≠ 4#3 := by
        intro e; simp [Operand3.wf, Addr.wf, e] at h
      have h5 : ¬ (d.mod = 0#2 ∧ rm = 5#3) := by
        rintro ⟨e1, e2⟩
        simp [Operand3.wf, Addr.wf, e2, (Disp.mod_eq_zero d).1 e1] at h
      simp [modRMBytes, takeModRM, Operand3.x, Operand3.b, takeAddr, Disp.mod_ne_three, h4, h5]
    | sib s i bs d =>
      have h5 : ¬ (d.mod = 0#2 ∧ bs = 5#3) := by
        rintro ⟨e1, e2⟩
        simp [Operand3.wf, Addr.wf, e2, (Disp.mod_eq_zero d).1 e1] at h
      simp [modRMBytes, takeModRM, Operand3.x, Operand3.b, takeAddr, Disp.mod_ne_three, h5]
    | sibNoBase s i d =>
      simp [modRMBytes, takeModRM, Operand3.x, Operand3.b, takeAddr]

/-! ### Legacy bytes -/

theorem takeLegacy_cons_vex (long : Bool) (c : Byte) (bs : List Byte) (h : isVexOrEvex c = true) :
    takeLegacy long (c :: bs) = ([], .clean, c :: bs) := by
  have h' : c = 0xC4#8 ∨ c = 0x62#8 := by simpa [isVexOrEvex] using h
  rcases h' with rfl | rfl <;> simp [takeLegacy, LegacyByte.ofByte, isForbiddenByte, isRex]

/-- The decoder reads a run of legacy bytes back. -/
theorem takeLegacy_map (long : Bool) (ps : List LegacyByte) (c : Byte) (bs : List Byte) (h : isVexOrEvex c = true) :
    takeLegacy long (ps.map LegacyByte.toByte ++ c :: bs) = (ps, .clean, c :: bs) := by
  induction ps with
  | nil => exact takeLegacy_cons_vex long c bs h
  | cons p ps ih => simp [takeLegacy, ih]

/-! ### The fields of the prefix bytes -/

theorem VexForm.p1_fields (f : VexForm) :
    f.p1.extractLsb' 0 5 = 2#5 ∧ (!f.p1.getLsbD 6) = f.op3.x ∧ (!f.p1.getLsbD 5) = f.op3.b ∧
      ~~~(f.p1.extractLsb' 7 1) = f.dst.extractLsb' 3 1 ∧
      (f.dst.extractLsb' 3 1 ++ f.dst.extractLsb' 0 3 : BitVec 4) = f.dst := by
  have key : ∀ (d : BitVec 4) (x b : Bool),
      (~~~(d.extractLsb' 3 1) ++ BitVec.ofBool (!x) ++ BitVec.ofBool (!b) ++ 2#5 : BitVec 8).extractLsb' 0 5 = 2#5 ∧
      (!(~~~(d.extractLsb' 3 1) ++ BitVec.ofBool (!x) ++ BitVec.ofBool (!b) ++ 2#5 : BitVec 8).getLsbD 6) = x ∧
      (!(~~~(d.extractLsb' 3 1) ++ BitVec.ofBool (!x) ++ BitVec.ofBool (!b) ++ 2#5 : BitVec 8).getLsbD 5) = b ∧
      ~~~((~~~(d.extractLsb' 3 1) ++ BitVec.ofBool (!x) ++ BitVec.ofBool (!b) ++ 2#5 : BitVec 8).extractLsb' 7 1) =
        d.extractLsb' 3 1 ∧
      (d.extractLsb' 3 1 ++ d.extractLsb' 0 3 : BitVec 4) = d := by decide
  exact key f.dst f.op3.x f.op3.b

theorem VexForm.p2_fields (f : VexForm) :
    f.p2.extractLsb' 7 1 = 0#1 ∧ f.p2.extractLsb' 0 2 = 1#2 ∧ f.p2.getLsbD 2 = f.l ∧
      ~~~(f.p2.extractLsb' 3 4) = f.src2 := by
  have key : ∀ (v : BitVec 4) (l : Bool),
      (0#1 ++ ~~~v ++ BitVec.ofBool l ++ 1#2 : BitVec 8).extractLsb' 7 1 = 0#1 ∧
      (0#1 ++ ~~~v ++ BitVec.ofBool l ++ 1#2 : BitVec 8).extractLsb' 0 2 = 1#2 ∧
      (0#1 ++ ~~~v ++ BitVec.ofBool l ++ 1#2 : BitVec 8).getLsbD 2 = l ∧
      ~~~((0#1 ++ ~~~v ++ BitVec.ofBool l ++ 1#2 : BitVec 8).extractLsb' 3 4) = v := by decide
  exact key f.src2 f.l

theorem EvexForm.p0_fields (f : EvexForm) :
    f.p0.extractLsb' 0 3 = 2#3 ∧ f.p0.getLsbD 3 = false ∧ (!f.p0.getLsbD 6) = f.op3.x ∧ (!f.p0.getLsbD 5) = f.op3.b ∧
      ~~~(f.p0.extractLsb' 7 1) = f.dst.extractLsb' 3 1 ∧ ~~~(f.p0.extractLsb' 4 1) = f.dst.extractLsb' 4 1 ∧
      (f.dst.extractLsb' 4 1 ++ f.dst.extractLsb' 3 1 ++ f.dst.extractLsb' 0 3 : BitVec 5) = f.dst := by
  have key : ∀ (d : BitVec 5) (x b : Bool),
      let p : BitVec 8 :=
        ~~~(d.extractLsb' 3 1) ++ BitVec.ofBool (!x) ++ BitVec.ofBool (!b) ++ ~~~(d.extractLsb' 4 1) ++ 2#4
      p.extractLsb' 0 3 = 2#3 ∧ p.getLsbD 3 = false ∧ (!p.getLsbD 6) = x ∧ (!p.getLsbD 5) = b ∧
        ~~~(p.extractLsb' 7 1) = d.extractLsb' 3 1 ∧ ~~~(p.extractLsb' 4 1) = d.extractLsb' 4 1 ∧
        (d.extractLsb' 4 1 ++ d.extractLsb' 3 1 ++ d.extractLsb' 0 3 : BitVec 5) = d := by decide
  exact key f.dst f.op3.x f.op3.b

theorem EvexForm.p1_fields (f : EvexForm) :
    f.p1.extractLsb' 7 1 = 0#1 ∧ f.p1.extractLsb' 0 2 = 1#2 ∧ f.p1.getLsbD 2 = true ∧
      ~~~(f.p1.extractLsb' 3 4) = f.src2.extractLsb' 0 4 := by
  have key : ∀ v : BitVec 5,
      let p : BitVec 8 := 0#1 ++ ~~~(v.extractLsb' 0 4) ++ 1#1 ++ 1#2
      p.extractLsb' 7 1 = 0#1 ∧ p.extractLsb' 0 2 = 1#2 ∧ p.getLsbD 2 = true ∧
        ~~~(p.extractLsb' 3 4) = v.extractLsb' 0 4 := by decide
  exact key f.src2

theorem EvexForm.p2_fields (f : EvexForm) :
    f.p2.getLsbD 7 = f.z ∧ f.p2.extractLsb' 5 2 = f.ll ∧ f.p2.getLsbD 4 = f.b ∧
      ~~~(f.p2.extractLsb' 3 1) = f.src2.extractLsb' 4 1 ∧ f.p2.extractLsb' 0 3 = f.aaa ∧
      (f.src2.extractLsb' 4 1 ++ f.src2.extractLsb' 0 4 : BitVec 5) = f.src2 := by
  have key : ∀ (z b : Bool) (ll : BitVec 2) (aaa : BitVec 3) (v1 : BitVec 1),
      let p : BitVec 8 := BitVec.ofBool z ++ ll ++ BitVec.ofBool b ++ ~~~v1 ++ aaa
      p.getLsbD 7 = z ∧ p.extractLsb' 5 2 = ll ∧ p.getLsbD 4 = b ∧ ~~~(p.extractLsb' 3 1) = v1 ∧
        p.extractLsb' 0 3 = aaa := by decide
  have key2 : ∀ v : BitVec 5, (v.extractLsb' 4 1 ++ v.extractLsb' 0 4 : BitVec 5) = v := by decide
  obtain ⟨h1, h2, h3, h4, h5⟩ := key f.z f.b f.ll f.aaa (f.src2.extractLsb' 4 1)
  exact ⟨h1, h2, h3, h4, h5, key2 f.src2⟩

/-! ### Lengths -/

theorem encodeVex_length (op : Byte) (f : VexForm) : (encodeVex op f).length = f.size := by
  simp [encodeVex, VexForm.size, modRMBytes_length]; omega

theorem encodeEvex_length (op : Byte) (f : EvexForm) : (encodeEvex op f).length = f.size := by
  simp [encodeEvex, EvexForm.size, modRMBytes_length]; omega

@[simp] theorem VexForm.length_eq_size (f : VexForm) : f.length = f.size := encodeVex_length _ f

@[simp] theorem EvexForm.length_eq_size (f : EvexForm) : f.length = f.size := encodeEvex_length _ f

end Sys2Proof
end

