-- ==== Sys2Proof/Laws/Memory.lean ====
section
/-! SUPPORT. The laws of memory: a read after a write, and that every memory operation keeps the canonical form. -/

namespace Sys2Proof.Machine

theorem Memory.wfFrom_cons {lo a : Nat} {b : Byte} {m : Memory} :
    Memory.wfFrom lo ((a, b) :: m) = true ↔
      lo ≤ a ∧ a < 2 ^ 64 ∧ b ≠ Memory.unlisted ∧ Memory.wfFrom (a + 1) m = true := by
  simp [Memory.wfFrom, and_assoc]

theorem Memory.wfFrom_mono {lo lo' : Nat} {m : Memory} (h : Memory.wfFrom lo m = true) (hl : lo' ≤ lo) :
    Memory.wfFrom lo' m = true := by
  cases m with
  | nil => rfl
  | cons e m =>
    obtain ⟨a, b⟩ := e
    rw [Memory.wfFrom_cons] at h ⊢
    exact ⟨hl.trans h.1, h.2⟩

/-- An address below every entry is unlisted. -/
theorem Memory.read_below {lo a : Nat} {m : Memory} (h : Memory.wfFrom lo m = true) (ha : a < lo) :
    m.read a = Memory.unlisted := by
  induction m generalizing lo with
  | nil => rfl
  | cons e m ih =>
    obtain ⟨a', b⟩ := e
    rw [Memory.wfFrom_cons] at h
    have hne : a' ≠ a := by omega
    simp only [Memory.read, if_neg hne]
    exact ih h.2.2.2 (by omega)

theorem Memory.write_wfFrom {lo a : Nat} {m : Memory} (b : Byte) (h : Memory.wfFrom lo m = true) (hl : lo ≤ a)
    (ha : a < 2 ^ 64) : Memory.wfFrom lo (m.write a b) = true := by
  induction m generalizing lo with
  | nil =>
    unfold Memory.write
    split
    · rfl
    · exact Memory.wfFrom_cons.2 ⟨hl, ha, ‹_›, rfl⟩
  | cons e m ih =>
    obtain ⟨a', b'⟩ := e
    have h' := Memory.wfFrom_cons.1 h
    unfold Memory.write
    split
    · split
      · exact h
      · exact Memory.wfFrom_cons.2 ⟨hl, ha, ‹_›, Memory.wfFrom_cons.2 ⟨by omega, h'.2⟩⟩
    · split
      · subst a
        split
        · exact Memory.wfFrom_mono h'.2.2.2 (by omega)
        · exact Memory.wfFrom_cons.2 ⟨hl, ha, ‹_›, h'.2.2.2⟩
      · exact Memory.wfFrom_cons.2 ⟨h'.1, h'.2.1, h'.2.2.1, ih h'.2.2.2 (by omega)⟩

/-- A write keeps the canonical form. -/
theorem Memory.write_wf {a : Nat} {m : Memory} (b : Byte) (h : m.wf = true) (ha : a < 2 ^ 64) :
    (m.write a b).wf = true :=
  Memory.write_wfFrom b h (Nat.zero_le _) ha

/-- Storing bytes keeps the canonical form. -/
theorem Memory.writeBytes_wf {m : Memory} (a : Word64) (bs : List Byte) (h : m.wf = true) :
    (m.writeBytes a bs).wf = true := by
  induction bs generalizing m a with
  | nil => exact h
  | cons b bs ih => exact ih _ (Memory.write_wf b h a.isLt)

/-- A read after a write to the same address gives the value written, in a canonical memory. -/
theorem Memory.read_write_same {lo a : Nat} {m : Memory} (b : Byte) (h : Memory.wfFrom lo m = true) :
    (m.write a b).read a = b := by
  induction m generalizing lo with
  | nil =>
    unfold Memory.write
    split <;> simp_all [Memory.read]
  | cons e m ih =>
    obtain ⟨a', b'⟩ := e
    have h' := Memory.wfFrom_cons.1 h
    unfold Memory.write
    split
    · split
      · rename_i hlt hb
        rw [hb]
        exact Memory.read_below (lo := a') (Memory.wfFrom_cons.2 ⟨le_refl _, h'.2⟩) hlt
      · simp [Memory.read]
    · split
      · subst a
        split
        · rename_i hb
          rw [hb]
          exact Memory.read_below h'.2.2.2 (by omega)
        · simp [Memory.read]
      · rename_i hne
        have hne' : a' ≠ a := fun e => hne e.symm
        simp only [Memory.read, if_neg hne']
        exact ih h'.2.2.2

/-- A write leaves every other address alone. -/
theorem Memory.read_write_ne {a a' : Nat} (m : Memory) (b : Byte) (hne : a' ≠ a) :
    (m.write a b).read a' = m.read a' := by
  induction m with
  | nil =>
    unfold Memory.write
    split
    · rfl
    · simp [Memory.read, Ne.symm hne]
  | cons e m ih =>
    obtain ⟨a₁, b₁⟩ := e
    unfold Memory.write
    split
    · split
      · rfl
      · simp [Memory.read, Ne.symm hne]
    · split
      · subst a
        split
        · simp [Memory.read, Ne.symm hne]
        · simp [Memory.read, Ne.symm hne]
      · simp only [Memory.read, ih]

/-- The reset memory is canonical. -/
theorem reset_mem_wf : State.reset.mem.wf = true := rfl

end Sys2Proof.Machine
end

