-- ==== Sys2Proof/Laws/Ops.lean ====
section
/-! SUPPORT. For each shared operation one lemma that says all it can do, and the small facts that the operations' callers
need. -/

namespace Sys2Proof.Machine

/-! ### Vector registers -/

@[simp] theorem State.setV_vreg_same (s : State) (n : BitVec 5) (w : VecReg) : (s.setV n w).vreg n = w := by
  simp [State.vreg, State.setV, Vector.get_eq_getElem]

theorem State.setV_vreg_ne (s : State) {n m : BitVec 5} (w : VecReg) (h : m ≠ n) : (s.setV n w).vreg m = s.vreg m := by
  have h' : n.toNat ≠ m.toNat := fun e => h (BitVec.eq_of_toNat_eq e.symm)
  simp only [State.vreg, State.setV, Vector.get_eq_getElem]
  exact Vector.getElem_set_ne _ _ h'

/-- Bits 31:0 of a merged register are the result. -/
@[simp] theorem mergeLow_low (old : VecReg) (res : Single) : (mergeLow old res).extractLsb' 0 32 = res := by
  apply BitVec.eq_of_getLsbD_eq
  intro i hi
  simp only [mergeLow, BitVec.getLsbD_extractLsb', BitVec.getLsbD_setWidth, BitVec.getLsbD_append]
  simp [hi, show i < 512 by omega]

/-- Bits 127:32 of a merged register are the old ones. -/
@[simp] theorem mergeLow_mid (old : VecReg) (res : Single) :
    (mergeLow old res).extractLsb' 32 96 = old.extractLsb' 32 96 := by
  apply BitVec.eq_of_getLsbD_eq
  intro i hi
  simp only [mergeLow, BitVec.getLsbD_extractLsb', BitVec.getLsbD_setWidth, BitVec.getLsbD_append]
  simp [hi, show 32 + i < 512 by omega]

/-- Bits 511:128 of a merged register are zero. -/
@[simp] theorem mergeLow_high (old : VecReg) (res : Single) : (mergeLow old res).extractLsb' 128 384 = 0#384 := by
  apply BitVec.eq_of_getLsbD_eq
  intro i hi
  simp only [mergeLow, BitVec.getLsbD_extractLsb', BitVec.getLsbD_setWidth, BitVec.getLsbD_append]
  simp [show ¬ 128 + i < 32 by omega, show ¬ 128 + i - 32 < 96 by omega]

/-- A merged register fits in 128 bits, and so in every MAXVL. -/
theorem mergeLow_lt (old : VecReg) (res : Single) : (mergeLow old res).toNat < 2 ^ 128 := by
  have h : (old.extractLsb' 32 96 ++ res).toNat < 2 ^ 128 := (old.extractLsb' 32 96 ++ res).isLt
  simp only [mergeLow, BitVec.toNat_setWidth]
  exact lt_of_le_of_lt (Nat.mod_le _ _) h

/-! ### The operating mode -/

theorem State.is64_mode {s : State} (h : s.is64 = true) : s.mode = .long64 := by
  simpa [State.is64] using h

@[simp] theorem State.codeMode_long {s : State} (h : s.is64 = true) : s.codeMode = .long64 := by
  simp [State.codeMode, State.is64_mode h]

/-- In 64-bit mode every register number is read as it is. -/
theorem State.regNumber_long {s : State} (h : s.is64 = true) (n : BitVec 5) : s.regNumber n = n := by
  simp [State.regNumber, h]

/-! ### MXCSR -/

@[simp] theorem FpFlags.bits_none : FpFlags.bits {} = 0#6 := rfl

@[simp] theorem orFlags_none (w : BitVec 32) : orFlags w {} = w := by
  simp [orFlags]

/-- No operation detects a division by zero: ZE is never among the flags. -/
theorem FpFlags.bits_ze (f : FpFlags) : f.bits.getLsbD 2 = false := by
  rcases f with ⟨a, b, c, d, e⟩
  cases a <;> cases b <;> cases c <;> cases d <;> cases e <;> rfl

/-! ### Taking an exception, advancing, accessing memory -/

/-- Taking an exception ends the step; only a page fault records something, its address in CR2. -/
theorem raise_spec (e : Exception) (s : State) :
    raise e s = .fault (.exception e (match e.address with
      | some a => s.setCr2 a
      | none => s)) := rfl

/-- All that `advance` can do. -/
theorem advance_spec (len : Nat) (s : State) :
    (∃ a, advance len s = .next (s.setPc a) ∧
      ((s.is64 = true ∧ a = s.pc + BitVec.ofNat 64 len ∧ s.pc.toNat + len < 2 ^ 64 ∧ s.canonical a = true) ∨
        (s.is64 = false ∧ a = (s.pc.setWidth 32 + BitVec.ofNat 32 len).setWidth 64 ∧
          (s.pc.setWidth 32).toNat + len < 2 ^ 32))) ∨
      advance len s = .refused .pcOutOfRange := by
  unfold advance
  split
  · split
    · rename_i h1 h2
      exact .inl ⟨_, rfl, .inl ⟨h1, rfl, h2.1, h2.2⟩⟩
    · exact .inr rfl
  · split
    · rename_i h1 h2
      exact .inl ⟨_, rfl, .inr ⟨by simpa using h1, rfl, h2⟩⟩
    · exact .inr rfl

/-- Where the next address is in range, a 64-bit `advance` reaches it. -/
theorem advance_long {s : State} {len : Nat} (h64 : s.is64 = true) (hlt : s.pc.toNat + len < 2 ^ 64)
    (hc : s.canonical (s.pc + BitVec.ofNat 64 len) = true) :
    advance len s = .next (s.setPc (s.pc + BitVec.ofNat 64 len)) := by
  rw [advance, if_pos h64, if_pos ⟨hlt, hc⟩]

/-- All that an access can meet: nothing, a page fault, a refusal of the oracle or a device. -/
theorem State.accessStop_spec (s : State) (kind : AccessKind) (la : Word64) (bs : List Word64)
    (pageFault : Option (BitVec 32 × Word64)) :
    s.accessStop kind la bs pageFault = none ∨ (∃ code a, s.accessStop kind la bs pageFault = some (.raises (.pf code a))) ∨
      (∃ reason, s.accessStop kind la bs pageFault = some (.refuses (.oracleRefuses reason))) ∨
      s.accessStop kind la bs pageFault = some (.refuses .deviceMemory) := by
  have hd : s.deviceStop bs = none ∨ s.deviceStop bs = some (.refuses .deviceMemory) := by
    unfold State.deviceStop
    split
    · exact .inr rfl
    · exact .inl rfl
  unfold State.accessStop
  split
  · exact .inr (.inl ⟨_, _, rfl⟩)
  · exact .inr (.inr (.inl ⟨_, rfl⟩))
  · exact hd.imp_right fun h => .inr (.inr h)
  · split
    · exact .inr (.inl ⟨_, _, rfl⟩)
    · exact hd.imp_right fun h => .inr (.inr h)

/-- The refusals of a memory operand. -/
def OperandRefusal (r : Refusal) : Prop :=
  r = .deviceMemory ∨ (∃ offset, r = .segmentedOperand offset) ∨ ∃ reason, r = .oracleRefuses reason

/-- All that the access of a canonical operand can do. -/
theorem accessOperand_spec (s : State) (la : Word64) :
    accessOperand s la = .ok { value := s.mem.read32 la, event := some (readEvent la (s.mem.read32 la)) } ∨
      accessOperand s la = .error (.raises .ac) ∨ (∃ code a, accessOperand s la = .error (.raises (.pf code a))) ∨
      ∃ r, accessOperand s la = .error (.refuses r) ∧ OperandRefusal r := by
  unfold accessOperand State.readStop
  rcases s.accessStop_spec .read la (operandBytes la) (s.readPageFault la) with h | ⟨code, a, h⟩ | ⟨reason, h⟩ | h <;>
    simp only [h] <;> split
  · exact .inr (.inl rfl)
  · exact .inl rfl
  · exact .inr (.inl rfl)
  · exact .inr (.inr (.inl ⟨_, _, rfl⟩))
  · exact .inr (.inl rfl)
  · exact .inr (.inr (.inr ⟨_, rfl, .inr (.inr ⟨_, rfl⟩)⟩))
  · exact .inr (.inl rfl)
  · exact .inr (.inr (.inr ⟨_, rfl, .inl rfl⟩))

/-- No page of a readable operand denies the read. -/
theorem readPageFault_none {s : State} {la : Word64} (h : ∀ a ∈ operandBytes la, s.pageFaultAt .read a = none) :
    s.readPageFault la = none := by
  have : (operandBytes la).findSome? (s.pageFaultAt .read) = none := List.findSome?_eq_none_iff.2 h
  simp [State.readPageFault, this]

/-- Without a page fault and without an answer that refuses, only a device can stop the read. -/
theorem readStop_of_noReadFault {s : State} {la : Word64} (h : s.NoReadFault la)
    (hr : ∀ reason, s.answerAt .read la ≠ some (.refuse reason)) : s.readStop la = s.deviceStop (operandBytes la) := by
  unfold State.readStop State.accessStop
  split
  · rename_i e; exact (h.1 _ _ e).elim
  · rename_i e; exact (hr _ e).elim
  · rfl
  · rename_i e
    rw [readPageFault_none (h.2 e)]

/-- A readable operand meets nothing. -/
theorem readStop_none {s : State} {la : Word64} (h : s.OperandReadable la) : s.readStop la = none := by
  obtain ⟨h1, h2, h3, _⟩ := h
  rw [readStop_of_noReadFault h2 h3, State.deviceStop, if_neg]
  simp only [List.any_eq_true, not_exists, not_and, Bool.not_eq_true]
  exact fun a ha => (h1 a ha).2

/-- All that reading operand 3 can do. -/
theorem readOperand3_spec (s : State) (evex : Bool) (legacy : List LegacyByte) (len : Nat) (o : Operand3) :
    (∃ ld, readOperand3 s evex legacy len o = .ok ld ∧
      ((∃ x b rm, o = .reg x b rm ∧ ld = ⟨s.low (s.regNumber (operand3Number evex x b rm)), none⟩) ∨
        (∃ x b a, o = .mem x b a ∧ s.is64 = true ∧
          ld = ⟨s.mem.read32 (linearAddress s evex legacy x b len a),
            some (readEvent (linearAddress s evex legacy x b len a)
              (s.mem.read32 (linearAddress s evex legacy x b len a)))⟩))) ∨
      (∃ e, readOperand3 s evex legacy len o = .error (.raises e) ∧
        (e = .ss ∨ e = .gp ∨ e = .ac ∨ ∃ code a, e = .pf code a)) ∨
      ∃ r, readOperand3 s evex legacy len o = .error (.refuses r) ∧ OperandRefusal r := by
  rcases o with ⟨x, b, rm⟩ | ⟨x, b, a⟩
  · exact .inl ⟨_, rfl, .inl ⟨x, b, rm, rfl, rfl⟩⟩
  · simp only [readOperand3, memRead]
    split
    · rename_i h64
      split
      · refine .inr (.inl ⟨_, rfl, ?_⟩)
        split
        · exact .inl rfl
        · exact .inr (.inl rfl)
      · rcases accessOperand_spec s (linearAddress s evex legacy x b len a) with h | h | ⟨c, q, h⟩ | ⟨r, h, hr⟩
        · exact .inl ⟨_, h, .inr ⟨x, b, a, rfl, h64, rfl⟩⟩
        · exact .inr (.inl ⟨_, h, .inr (.inr (.inl rfl))⟩)
        · exact .inr (.inl ⟨_, h, .inr (.inr (.inr ⟨c, q, rfl⟩))⟩)
        · exact .inr (.inr ⟨r, h, hr⟩)
    · exact .inr (.inr ⟨_, rfl, .inr (.inl ⟨_, rfl⟩)⟩)

/-- A readable operand is read. -/
theorem readOperand3_mem {s : State} {evex x b : Bool} {legacy : List LegacyByte} {len : Nat} {a : Addr}
    (h64 : s.is64 = true) (h : s.OperandReadable (linearAddress s evex legacy x b len a)) :
    readOperand3 s evex legacy len (.mem x b a) =
      .ok ⟨s.mem.read32 (linearAddress s evex legacy x b len a),
        some (readEvent (linearAddress s evex legacy x b len a)
          (s.mem.read32 (linearAddress s evex legacy x b len a)))⟩ := by
  simp only [readOperand3, memRead]
  generalize linearAddress s evex legacy x b len a = la at h ⊢
  have hc : s.operandCanonical la = true := List.all_eq_true.2 fun q hq => (h.1 q hq).1
  have ha : (s.alignmentChecked && la.toNat % 4 != 0) = false := by
    cases hs : s.alignmentChecked with
    | false => rfl
    | true => simp [h.2.2.2 hs]
  simp only [h64, hc, accessOperand, readStop_none h, ha, Bool.not_true, Bool.false_eq_true, if_true, if_false]

end Sys2Proof.Machine
end

