-- ==== Sys2Proof/Laws/Forms.lean ====
section
/-! SUPPORT. What the execution of a form can do, said once: `exec_next` for a completed instruction, `exec_fault` for an
exception. Every statement about all instructions follows from these two. -/

namespace Sys2Proof.Machine

/-- ORing no flags changes nothing. -/
@[simp] theorem State.orFlags_none (s : State) : s.orFlags {} = s := by
  simp only [State.orFlags, Machine.orFlags_none]
  rfl

/-- Recording no event changes nothing. -/
@[simp] theorem State.noteRead_none (s : State) : s.noteRead none = s := by
  simp [State.noteRead]

/-- The state after a completed instruction, as the shared operations build it. -/
def completedAt (s : State) (n : BitVec 5) (low : Single) (fl : FpFlags) (event : Option ReadEvent) (a : Word64) : State :=
  (((s.orFlags fl).noteRead event).writeLow n low).setPc a

theorem completedAt_eq_completed (s : State) (n : BitVec 5) (low : Single) (fl : FpFlags) (event : Option ReadEvent)
    (len : Nat) : completedAt s n low fl event (s.pc + BitVec.ofNat 64 len) = s.completed n low fl event len := rfl

@[simp] theorem completedAt_cfg (s : State) (n low fl ev a) : (completedAt s n low fl ev a).cfg = s.cfg := rfl
@[simp] theorem completedAt_k (s : State) (n low fl ev a) : (completedAt s n low fl ev a).k = s.k := rfl
@[simp] theorem completedAt_x (s : State) (n low fl ev a) : (completedAt s n low fl ev a).x = s.x := rfl
@[simp] theorem completedAt_pc (s : State) (n low fl ev a) : (completedAt s n low fl ev a).pc = a := rfl
@[simp] theorem completedAt_rflags (s : State) (n low fl ev a) : (completedAt s n low fl ev a).rflags = s.rflags := rfl
@[simp] theorem completedAt_mxcsr (s : State) (n low fl ev a) :
    (completedAt s n low fl ev a).mxcsr = orFlags s.mxcsr fl := rfl
@[simp] theorem completedAt_cr0 (s : State) (n low fl ev a) : (completedAt s n low fl ev a).cr0 = s.cr0 := rfl
@[simp] theorem completedAt_cr2 (s : State) (n low fl ev a) : (completedAt s n low fl ev a).cr2 = s.cr2 := rfl
@[simp] theorem completedAt_program (s : State) (n low fl ev a) : (completedAt s n low fl ev a).program = s.program := rfl
@[simp] theorem completedAt_answers (s : State) (n low fl ev a) : (completedAt s n low fl ev a).answers = s.answers := rfl
@[simp] theorem completedAt_oracle (s : State) (n low fl ev a) : (completedAt s n low fl ev a).oracle = s.oracle := rfl
@[simp] theorem completedAt_mem (s : State) (n low fl ev a) : (completedAt s n low fl ev a).mem = s.mem := rfl
@[simp] theorem completedAt_reads (s : State) (n low fl ev a) :
    (completedAt s n low fl ev a).reads = s.reads ++ ev.toList := rfl
@[simp] theorem completedAt_v (s : State) (n low fl ev a) :
    (completedAt s n low fl ev a).v = s.v.set n.toNat (mergeLow (s.vreg n) low) n.isLt := rfl
@[simp] theorem completedAt_vreg_same (s : State) (n low fl ev a) :
    (completedAt s n low fl ev a).vreg n = mergeLow (s.vreg n) low :=
  State.setV_vreg_same s n (mergeLow (s.vreg n) low)
theorem completedAt_vreg_ne (s : State) (n low fl ev a) {m : BitVec 5} (h : m ≠ n) :
    (completedAt s n low fl ev a).vreg m = s.vreg m :=
  State.setV_vreg_ne s (mergeLow (s.vreg n) low) h

/-- `advance` does not look at what the earlier steps of an instruction have written. -/
theorem advance_completedAt (len : Nat) (s : State) (n : BitVec 5) (low : Single) (fl : FpFlags) (event : Option ReadEvent) :
    advance len (((s.orFlags fl).noteRead event).writeLow n low) =
      match advance len s with
      | .next t => .next (completedAt s n low fl event t.pc)
      | .fault f => .fault f
      | .refused r => .refused r := by
  have h1 : (((s.orFlags fl).noteRead event).writeLow n low).is64 = s.is64 := rfl
  have h2 : (((s.orFlags fl).noteRead event).writeLow n low).pc = s.pc := rfl
  have h3 : ∀ a, (((s.orFlags fl).noteRead event).writeLow n low).canonical a = s.canonical a := fun _ => rfl
  simp only [advance, h1, h2, h3]
  split
  · split <;> rfl
  · split <;> rfl

/-- In 64-bit mode, with the next address in range, an operation with a result completes. -/
theorem finishMxcsr_done {s : State} {len : Nat} (h64 : s.is64 = true) (hp : s.PcFits len) (res : Single) (fl : FpFlags)
    (event : Option ReadEvent) (n : BitVec 5) :
    finishMxcsr (.done res fl) event n len s = .next (s.completed n res fl event len) := by
  simp only [finishMxcsr, advance_completedAt, advance_long h64 hp.1 hp.2]
  rfl

/-- The same under SAE: no flag is set. -/
theorem finishSae_done {s : State} {len : Nat} (h64 : s.is64 = true) (hp : s.PcFits len) (res : Single) (fl : FpFlags)
    (event : Option ReadEvent) (n : BitVec 5) :
    finishSae (.done res fl) event n len s = .next (s.completed n res {} event len) := by
  have h := advance_completedAt len s n res {} event
  rw [State.orFlags_none] at h
  simp only [finishSae, h, advance_long h64 hp.1 hp.2]
  rfl

/-- The range facts of a completed instruction's new program counter. -/
def NextPc (s : State) (len : Nat) (a : Word64) : Prop :=
  (s.is64 = true ∧ a = s.pc + BitVec.ofNat 64 len ∧ s.pc.toNat + len < 2 ^ 64 ∧ s.canonical a = true) ∨
    (s.is64 = false ∧ a = (s.pc.setWidth 32 + BitVec.ofNat 32 len).setWidth 64 ∧ (s.pc.setWidth 32).toNat + len < 2 ^ 32)

theorem advance_completedAt_next {len : Nat} {s t : State} {n : BitVec 5} {low : Single} {fl : FpFlags}
    {event : Option ReadEvent} (h : advance len (((s.orFlags fl).noteRead event).writeLow n low) = .next t) :
    ∃ a, t = completedAt s n low fl event a ∧ NextPc s len a := by
  rw [advance_completedAt] at h
  rcases advance_spec len s with ⟨a, ha, hr⟩ | hr
  · rw [ha] at h
    injection h with h
    exact ⟨a, h.symm, hr⟩
  · rw [hr] at h
    cases h

theorem advance_completedAt_fault {len : Nat} {s : State} {n : BitVec 5} {low : Single} {fl : FpFlags}
    {event : Option ReadEvent} {f : Fault} (h : advance len (((s.orFlags fl).noteRead event).writeLow n low) = .fault f) :
    False := by
  rw [advance_completedAt] at h
  rcases advance_spec len s with ⟨a, ha, hr⟩ | hr
  · rw [ha] at h
    cases h
  · rw [hr] at h
    cases h

/-- What a completed instruction can have done. -/
def Completes (s : State) (n : BitVec 5) (len : Nat) (t : State) : Prop :=
  ∃ low fl event a, t = completedAt s n low fl event a ∧ NextPc s len a

/-- What an exception can leave. -/
def Excepts (s : State) (f : Fault) : Prop :=
  (∃ e, (e = .ud ∨ e = .nm ∨ e = .ss ∨ e = .gp ∨ e = .ac) ∧ f = .exception e s) ∨
    (∃ code a, f = .exception (.pf code a) (s.setCr2 a)) ∨
    (∃ e fl, (e = .xm ∨ e = .ud) ∧ f = .exception e (s.orFlags fl))

theorem finishMxcsr_next {out : FmaOutcome} {event : Option ReadEvent} {n : BitVec 5} {len : Nat} {s t : State}
    (h : finishMxcsr out event n len s = .next t) : Completes s n len t := by
  cases out with
  | stopped fl => cases h
  | done res fl =>
    obtain ⟨a, h1, h2⟩ := advance_completedAt_next h
    exact ⟨res, fl, event, a, h1, h2⟩

theorem raiseSimd_excepts (fl : FpFlags) (s : State) {f : Fault} (h : raiseSimd fl s = .fault f) : Excepts s f := by
  unfold raiseSimd at h
  split at h
  · cases h
    exact .inr (.inr ⟨.xm, fl, .inl rfl, rfl⟩)
  · cases h
    exact .inr (.inr ⟨.ud, fl, .inr rfl, rfl⟩)

theorem finishMxcsr_fault {out : FmaOutcome} {event : Option ReadEvent} {n : BitVec 5} {len : Nat} {s : State} {f : Fault}
    (h : finishMxcsr out event n len s = .fault f) : Excepts s f := by
  cases out with
  | stopped fl => exact raiseSimd_excepts fl s h
  | done res fl => exact (advance_completedAt_fault h).elim

theorem finishSae_next {out : FmaOutcome} {event : Option ReadEvent} {n : BitVec 5} {len : Nat} {s t : State}
    (h : finishSae out event n len s = .next t) : Completes s n len t := by
  cases out with
  | stopped fl => cases h
  | done res fl =>
    obtain ⟨a, h1, h2⟩ := advance_completedAt_next (fl := {}) (by rw [State.orFlags_none]; exact h)
    exact ⟨res, {}, event, a, h1, h2⟩

theorem finishSae_fault {out : FmaOutcome} {event : Option ReadEvent} {n : BitVec 5} {len : Nat} {s : State} {f : Fault}
    (h : finishSae out event n len s = .fault f) : Excepts s f := by
  cases out with
  | stopped fl => exact raiseSimd_excepts fl s h
  | done res fl => exact (advance_completedAt_fault (fl := {}) (by rw [State.orFlags_none]; exact h)).elim

theorem finishMaskedOff_next {f : EvexForm} {n : BitVec 5} {s t : State} (h : finishMaskedOff f n s = .next t) :
    Completes s n f.size t := by
  rw [finishMaskedOff, EvexForm.length_eq_size] at h
  obtain ⟨a, h1, h2⟩ := advance_completedAt_next (fl := {}) (event := none)
    (by rw [State.orFlags_none, State.noteRead_none]; exact h)
  exact ⟨_, {}, none, a, h1, h2⟩

theorem finishMaskedOff_fault {f : EvexForm} {n : BitVec 5} {s : State} {r : Fault}
    (h : finishMaskedOff f n s = .fault r) : False := by
  rw [finishMaskedOff] at h
  exact advance_completedAt_fault (fl := {}) (event := none)
    (by rw [State.orFlags_none, State.noteRead_none]; exact h)

/-- A stop of operand 3 is an exception of the memory operand or a refusal. -/
theorem readOperand3_stop {s : State} {evex : Bool} {legacy : List LegacyByte} {len : Nat} {o : Operand3} {st : Stop}
    (h : readOperand3 s evex legacy len o = .error st) :
    (∀ t, st.outcome s ≠ .next t) ∧ ∀ f, st.outcome s = .fault f → Excepts s f := by
  rcases readOperand3_spec s evex legacy len o with ⟨ld, h', _⟩ | ⟨e, h', he⟩ | ⟨r, h', _⟩
  · rw [h'] at h; cases h
  · rw [h'] at h
    cases h
    refine ⟨fun t ht => (by cases ht), fun f hf => ?_⟩
    rcases he with rfl | rfl | rfl | ⟨c, a, rfl⟩ <;> cases hf
    · exact .inl ⟨.ss, by simp, rfl⟩
    · exact .inl ⟨.gp, by simp, rfl⟩
    · exact .inl ⟨.ac, by simp, rfl⟩
    · exact .inr (.inl ⟨c, a, rfl⟩)
  · rw [h'] at h
    cases h
    exact ⟨fun t ht => (by cases ht), fun f hf => (by cases hf)⟩

theorem runVex_next {op : Opcode} {f : VexForm} {s t : State} (h : runVex op f s = .next t) :
    Completes s (s.regNumber (f.dst.setWidth 5)) f.size t := by
  unfold runVex at h
  split at h
  · cases h
  · split at h
    · cases h
    · split at h
      · rename_i st hst
        exact ((readOperand3_stop hst).1 t h).elim
      · rw [VexForm.length_eq_size] at h
        exact finishMxcsr_next h

theorem runVex_fault {op : Opcode} {f : VexForm} {s : State} {r : Fault} (h : runVex op f s = .fault r) : Excepts s r := by
  unfold runVex at h
  split at h
  · cases h
    exact .inl ⟨.ud, by simp, rfl⟩
  · split at h
    · cases h
      exact .inl ⟨.nm, by simp, rfl⟩
    · split at h
      · rename_i st hst
        exact (readOperand3_stop hst).2 r h
      · exact finishMxcsr_fault h

theorem runEvex_next {op : Opcode} {f : EvexForm} {s t : State} (h : runEvex op f s = .next t) :
    Completes s (s.regNumber f.dst) f.size t := by
  unfold runEvex at h
  split at h
  · cases h
  · split at h
    · cases h
    · simp only at h
      split at h
      · exact finishMaskedOff_next h
      · split at h
        · rename_i st hst
          exact ((readOperand3_stop hst).1 t h).elim
        · rw [EvexForm.length_eq_size] at h
          split at h
          · exact finishSae_next h
          · exact finishMxcsr_next h

theorem runEvex_fault {op : Opcode} {f : EvexForm} {s : State} {r : Fault} (h : runEvex op f s = .fault r) :
    Excepts s r := by
  unfold runEvex at h
  split at h
  · cases h
    exact .inl ⟨.ud, by simp, rfl⟩
  · split at h
    · cases h
      exact .inl ⟨.nm, by simp, rfl⟩
    · simp only at h
      split at h
      · exact (finishMaskedOff_fault h).elim
      · split at h
        · rename_i st hst
          exact (readOperand3_stop hst).2 r h
        · split at h
          · exact finishSae_fault h
          · exact finishMxcsr_fault h

/-- All that a completed instruction can have done: the destination's low bits, MXCSR flags, a read event and the program
counter. -/
theorem exec_next {i : Instr} {s t : State} (h : exec i s = .next t) :
    Completes s (s.regNumber (destination i)) i.size t := by
  cases i with
  | vfmadd132ssVex f => exact runVex_next h
  | vfmadd213ssVex f => exact runVex_next h
  | vfmadd231ssVex f => exact runVex_next h
  | vfmadd132ssEvex f => exact runEvex_next h
  | vfmadd213ssEvex f => exact runEvex_next h
  | vfmadd231ssEvex f => exact runEvex_next h

/-- All that an exception of an instruction can leave. -/
theorem exec_fault {i : Instr} {s : State} {f : Fault} (h : exec i s = .fault f) : Excepts s f := by
  cases i with
  | vfmadd132ssVex f => exact runVex_fault h
  | vfmadd213ssVex f => exact runVex_fault h
  | vfmadd231ssVex f => exact runVex_fault h
  | vfmadd132ssEvex f => exact runEvex_fault h
  | vfmadd213ssEvex f => exact runEvex_fault h
  | vfmadd231ssEvex f => exact runEvex_fault h

/-- A step that answers a next state has executed an instruction, with RFLAGS.TF = 0. -/
theorem step_next {s t : State} (h : step s = .next t) : ∃ i, fetchInstr s = .ok i ∧ s.tf = false ∧ exec i s = .next t := by
  unfold step stepOnce at h
  split at h
  · rename_i i hi
    refine ⟨i, hi, ?_⟩
    unfold afterInstr at h
    split at h
    · split at h
      · cases h
      · rename_i h1 h2
        exact ⟨by simpa using h2, by rw [h1]; exact h⟩
    · cases h
    · cases h
  · rename_i st _
    cases st <;> cases h

end Sys2Proof.Machine
end

