-- ==== Sys2Proof/Laws/Fetch.lean ====
section
/-! SUPPORT. Decoding does not look past what it needs (`decode_append_ok`, `decode_append_error`), and what the fetch gives the
decoder. -/

namespace Sys2Proof

/-! ### Bytes behind an instruction do not matter -/

/-- Step 1 of R87 is over with the first byte that is no prefix byte: what comes after it changes nothing. -/
theorem takeLegacy_append {long : Bool} {bs : List Byte} {ps : List LegacyByte} {found : PrefixCheck} {c : Byte}
    {cs : List Byte} (xs : List Byte) (h : takeLegacy long bs = (ps, found, c :: cs)) :
    takeLegacy long (bs ++ xs) = (ps, found, c :: cs ++ xs) := by
  induction bs generalizing ps found with
  | nil => cases h
  | cons b bs ih =>
    rw [List.cons_append]
    unfold takeLegacy at h ⊢
    rcases hr : takeLegacy long bs with ⟨qs, f, rest⟩
    cases ho : LegacyByte.ofByte b with
    | some p =>
      simp only [ho, hr] at h ⊢
      cases h
      simp only [ih hr]
    | none =>
      simp only [ho, hr] at h ⊢
      split at h
      · rename_i hf
        cases h
        simp only [if_pos hf, ih hr]
      · rename_i hf
        rw [if_neg hf]
        split at h
        · rename_i hx
          have hs : startsVexOrEvex (bs ++ xs) = startsVexOrEvex bs := by
            cases bs with
            | nil => cases hr; cases h
            | cons a as => rfl
          cases h
          simp only [if_pos hx, ih hr, hs]
        · rename_i hx
          cases h
          rw [if_neg hx]
          rfl

/-- A displacement of 32 bits is read or the bytes are too few. -/
theorem takeDisp32_spec (bs xs : List Byte) :
    (∃ d rest, takeDisp32 bs = .ok (d, rest) ∧ takeDisp32 (bs ++ xs) = .ok (d, rest ++ xs)) ∨
      takeDisp32 bs = .error .truncated := by
  rcases bs with _ | ⟨a, _ | ⟨b, _ | ⟨c, _ | ⟨d, rest⟩⟩⟩⟩ <;> first | exact .inr rfl | exact .inl ⟨_, _, rfl, rfl⟩

theorem takeDisp_spec (m : BitVec 2) (bs xs : List Byte) :
    (∃ d rest, takeDisp m bs = .ok (d, rest) ∧ takeDisp m (bs ++ xs) = .ok (d, rest ++ xs)) ∨
      takeDisp m bs = .error .truncated := by
  unfold takeDisp
  split
  · exact .inl ⟨_, _, rfl, rfl⟩
  · split
    · cases bs with
      | nil => exact .inr rfl
      | cons d rest => exact .inl ⟨_, _, rfl, rfl⟩
    · rcases takeDisp32_spec bs xs with ⟨d, rest, h1, h2⟩ | h
      · exact .inl ⟨.disp32 d, rest, by simp [h1], by simp [h2]⟩
      · exact .inr (by simp [h])

theorem takeAddr_spec (m : BitVec 2) (rm : BitVec 3) (bs xs : List Byte) :
    (∃ a rest, takeAddr m rm bs = .ok (a, rest) ∧ takeAddr m rm (bs ++ xs) = .ok (a, rest ++ xs)) ∨
      takeAddr m rm bs = .error .truncated := by
  unfold takeAddr
  split
  · cases bs with
    | nil => exact .inr rfl
    | cons sib bs =>
      simp only [List.cons_append]
      split
      · rcases takeDisp32_spec bs xs with ⟨d, rest, h1, h2⟩ | h
        · simp only [h1, h2]; exact .inl ⟨_, _, rfl, rfl⟩
        · exact .inr (by simp only [h])
      · rcases takeDisp_spec m bs xs with ⟨d, rest, h1, h2⟩ | h
        · simp only [h1, h2]; exact .inl ⟨_, _, rfl, rfl⟩
        · exact .inr (by simp only [h])
  · split
    · rcases takeDisp32_spec bs xs with ⟨d, rest, h1, h2⟩ | h
      · simp only [h1, h2]; exact .inl ⟨_, _, rfl, rfl⟩
      · exact .inr (by simp only [h])
    · rcases takeDisp_spec m bs xs with ⟨d, rest, h1, h2⟩ | h
      · simp only [h1, h2]; exact .inl ⟨_, _, rfl, rfl⟩
      · exact .inr (by simp only [h])

/-- ModRM and what follows is read, the same whatever comes after it, or the bytes are too few, or the form is one of the 16-bit
table whatever comes after its ModRM byte. -/
theorem takeModRM_spec (a16 x b : Bool) (bs xs : List Byte) :
    (∃ r o rest, takeModRM a16 x b bs = .ok (r, o, rest) ∧ takeModRM a16 x b (bs ++ xs) = .ok (r, o, rest ++ xs)) ∨
      takeModRM a16 x b bs = .error .truncated ∨
      ∃ e, takeModRM a16 x b bs = .error e ∧ takeModRM a16 x b (bs ++ xs) = .error e := by
  cases bs with
  | nil => exact .inr (.inl rfl)
  | cons m bs =>
    simp only [List.cons_append, takeModRM]
    split
    · exact .inl ⟨_, _, _, rfl, rfl⟩
    · split
      · exact .inr (.inr ⟨_, rfl, rfl⟩)
      · rcases takeAddr_spec (m.extractLsb' 6 2) (m.extractLsb' 0 3) bs xs with ⟨a, rest, h1, h2⟩ | h
        · simp only [h1, h2]; exact .inl ⟨_, _, _, rfl, rfl⟩
        · exact .inr (.inl (by simp only [h]))

/-- The same from the opcode byte on. -/
theorem takeOpcode_spec (m : CodeMode) (legacy : List LegacyByte) (x b : Bool) (bs xs : List Byte) :
    (∃ o r o3 rest, takeOpcode m legacy x b bs = .ok (o, r, o3, rest) ∧
        takeOpcode m legacy x b (bs ++ xs) = .ok (o, r, o3, rest ++ xs)) ∨
      takeOpcode m legacy x b bs = .error .truncated ∨
      ∃ e, takeOpcode m legacy x b bs = .error e ∧ takeOpcode m legacy x b (bs ++ xs) = .error e := by
  cases bs with
  | nil => exact .inr (.inl rfl)
  | cons op bs =>
    simp only [List.cons_append, takeOpcode]
    split
    · exact .inr (.inr ⟨_, rfl, rfl⟩)
    · split
      · exact .inr (.inr ⟨_, rfl, rfl⟩)
      · rcases takeModRM_spec (uses16BitTable m legacy) x b bs xs with ⟨r, o, rest, h1, h2⟩ | h | ⟨e, h1, h2⟩
        · simp only [h1, h2]; exact .inl ⟨_, _, _, _, rfl, rfl⟩
        · exact .inr (.inl (by simp only [h]))
        · exact .inr (.inr ⟨e, by simp only [h1], by simp only [h2]⟩)

theorem decodeVex_spec (m : CodeMode) (legacy : List LegacyByte) (bad : Bool) (p1 : Byte) (bs xs : List Byte) :
    (∃ i rest, decodeVex m legacy bad p1 bs = .ok (i, rest) ∧ decodeVex m legacy bad p1 (bs ++ xs) = .ok (i, rest ++ xs)) ∨
      decodeVex m legacy bad p1 bs = .error .truncated ∨
      ∃ e, decodeVex m legacy bad p1 bs = .error e ∧ decodeVex m legacy bad p1 (bs ++ xs) = .error e := by
  rcases bs with _ | ⟨p2, bs⟩
  · exact .inr (.inl rfl)
  simp only [List.cons_append, decodeVex]
  cases vexMismatch p1 p2 with
  | some e => exact .inr (.inr ⟨_, rfl, rfl⟩)
  | none =>
    rcases takeOpcode_spec m legacy (!p1.getLsbD 6) (!p1.getLsbD 5) bs xs with ⟨o, r, o3, rest, h1, h2⟩ | h | ⟨e, h1, h2⟩
    · simp only [h1, h2]
      cases vexChecks bad (vexFormOf legacy p1 p2 r o3) with
      | some e => exact .inr (.inr ⟨_, rfl, rfl⟩)
      | none => exact .inl ⟨_, _, rfl, rfl⟩
    · exact .inr (.inl (by simp only [h]))
    · exact .inr (.inr ⟨e, by simp only [h1], by simp only [h2]⟩)

theorem decodeEvex_spec (m : CodeMode) (legacy : List LegacyByte) (bad : Bool) (p0 : Byte) (bs xs : List Byte) :
    (∃ i rest, decodeEvex m legacy bad p0 bs = .ok (i, rest) ∧ decodeEvex m legacy bad p0 (bs ++ xs) = .ok (i, rest ++ xs)) ∨
      decodeEvex m legacy bad p0 bs = .error .truncated ∨
      ∃ e, decodeEvex m legacy bad p0 bs = .error e ∧ decodeEvex m legacy bad p0 (bs ++ xs) = .error e := by
  rcases bs with _ | ⟨p1, _ | ⟨p2, bs⟩⟩
  · exact .inr (.inl rfl)
  · exact .inr (.inl rfl)
  simp only [List.cons_append, decodeEvex]
  cases evexMismatch p0 p1 with
  | some e => exact .inr (.inr ⟨_, rfl, rfl⟩)
  | none =>
    rcases takeOpcode_spec m legacy (!p0.getLsbD 6) (!p0.getLsbD 5) bs xs with ⟨o, r, o3, rest, h1, h2⟩ | h | ⟨e, h1, h2⟩
    · simp only [h1, h2]
      cases evexChecks bad p0 p1 (evexFormOf legacy p0 p1 p2 r o3) with
      | some e => exact .inr (.inr ⟨_, rfl, rfl⟩)
      | none => exact .inl ⟨_, _, rfl, rfl⟩
    · exact .inr (.inl (by simp only [h]))
    · exact .inr (.inr ⟨e, by simp only [h1], by simp only [h2]⟩)

/-- The decoder reads an instruction, the same whatever comes after it; or it finds the bytes too few; or it rejects them,
whatever comes after them. -/
theorem decode_spec (m : CodeMode) (bs xs : List Byte) :
    (∃ i rest, decode m bs = .ok (i, rest) ∧ decode m (bs ++ xs) = .ok (i, rest ++ xs)) ∨
      decode m bs = .error .truncated ∨ ∃ e, decode m bs = .error e ∧ decode m (bs ++ xs) = .error e := by
  unfold decode
  rcases hl : takeLegacy (m == .long64) bs with ⟨legacy, found, _ | ⟨c, rest⟩⟩
  · exact .inr (.inl rfl)
  · rw [takeLegacy_append xs hl, List.cons_append]
    simp only
    split
    · exact .inr (.inr ⟨_, rfl, rfl⟩)
    split
    · exact .inr (.inr ⟨_, rfl, rfl⟩)
    rcases rest with _ | ⟨p, cs⟩
    · exact .inr (.inl rfl)
    simp only [List.cons_append]
    split
    · exact .inr (.inr ⟨_, rfl, rfl⟩)
    split
    · exact decodeVex_spec m legacy _ p cs xs
    · exact decodeEvex_spec m legacy _ p cs xs

theorem decode_append_ok {m : CodeMode} {bs : List Byte} {i : Instr} {rest : List Byte} (xs : List Byte)
    (h : decode m bs = .ok (i, rest)) : decode m (bs ++ xs) = .ok (i, rest ++ xs) := by
  rcases decode_spec m bs xs with ⟨i', rest', h1, h2⟩ | h1 | ⟨e, h1, _⟩
  · rw [h1] at h
    cases h
    exact h2
  · rw [h1] at h; cases h
  · rw [h1] at h; cases h

theorem decode_append_error {m : CodeMode} {bs : List Byte} {e : DecodeError} (xs : List Byte)
    (h : decode m bs = .error e) (he : e ≠ .truncated) : decode m (bs ++ xs) = .error e := by
  rcases decode_spec m bs xs with ⟨i', rest', h1, h2⟩ | h1 | ⟨e', h1, h2⟩
  · rw [h1] at h; cases h
  · rw [h1] at h; cases h; exact (he rfl).elim
  · rw [h1] at h
    cases h
    exact h2

namespace Machine

/-! ### What the fetch gives the decoder -/

/-- All that fetching one byte can do: the byte of memory, or #GP(0), the end of the program, a page fault, a refusal of the
oracle or a device. -/
theorem fetchByte_spec (s : State) (i : Nat) :
    (fetchByte s i = .ok (s.mem.read (s.fetchAddress i).toNat) ∧ s.inProgram (s.fetchAddress i) = true ∧
        s.fetchStop (s.fetchAddress i) = none) ∨
      fetchByte s i = .error (.raises .gp) ∨ fetchByte s i = .error (.refuses .endOfProgram) ∨
      (∃ code a, fetchByte s i = .error (.raises (.pf code a))) ∨
      (∃ reason, fetchByte s i = .error (.refuses (.oracleRefuses reason))) ∨
      fetchByte s i = .error (.refuses .deviceMemory) := by
  unfold fetchByte
  simp only
  split
  · exact .inr (.inl rfl)
  split
  · exact .inr (.inr (.inl rfl))
  · rename_i hp
    unfold State.fetchStop
    rcases s.accessStop_spec .fetch (s.fetchAddress i) [s.fetchAddress i] (s.fetchPageFault (s.fetchAddress i))
      with h | ⟨code, a, h⟩ | ⟨reason, h⟩ | h <;> simp only [h]
    · exact .inl ⟨trivial, by simpa using hp, trivial⟩
    · exact .inr (.inr (.inr (.inl ⟨_, _, rfl⟩)))
    · exact .inr (.inr (.inr (.inr (.inl ⟨_, rfl⟩))))
    · exact .inr (.inr (.inr (.inr (.inr trivial))))

/-- A fetch that finds `bs` first gives `bs` and what the rest of the fetch gives. -/
theorem fetchBytes_of_ok (s : State) (bs : List Byte) (n i : Nat) (hn : bs.length ≤ n)
    (h : ∀ k, (hk : k < bs.length) → fetchByte s (i + k) = .ok bs[k]) :
    fetchBytes s n i =
      (bs ++ (fetchBytes s (n - bs.length) (i + bs.length)).1, (fetchBytes s (n - bs.length) (i + bs.length)).2) := by
  induction bs generalizing n i with
  | nil => simp
  | cons b bs ih =>
    cases n with
    | zero => simp at hn
    | succ n =>
      have h0 : fetchByte s i = .ok b := h 0 (by simp)
      have ih' := ih n (i + 1) (by simpa using hn) (fun k hk => by
        have := h (k + 1) (by simpa using hk)
        simpa [Nat.add_assoc, Nat.add_comm 1 k] using this)
      have e1 : n + 1 - (b :: bs).length = n - bs.length := by simp
      have e2 : i + (b :: bs).length = i + 1 + bs.length := by simp; omega
      rw [e1, e2, fetchBytes, h0]
      simp only [List.cons_append]
      rw [ih']

/-- A fetch that stops at byte `k` gives the bytes before it and the stop. -/
theorem fetchBytes_of_stop (s : State) (bs : List Byte) (st : Stop) (n i : Nat) (hn : bs.length < n)
    (h : ∀ k, (hk : k < bs.length) → fetchByte s (i + k) = .ok bs[k]) (hs : fetchByte s (i + bs.length) = .error st) :
    fetchBytes s n i = (bs, some st) := by
  rw [fetchBytes_of_ok s bs n i hn.le h]
  obtain ⟨m, hm⟩ : ∃ m, n - bs.length = m + 1 := ⟨n - bs.length - 1, by omega⟩
  rw [hm, fetchBytes, hs]
  simp

/-- Where the bytes at the program counter decode to an instruction, that is the instruction fetched. -/
theorem fetchInstr_of_ok {s : State} {bs : List Byte} {i : Instr} {rest : List Byte} (hl : bs.length ≤ 15)
    (hf : s.FetchesBytes bs) (hd : decode s.codeMode bs = .ok (i, rest)) : fetchInstr s = .ok i := by
  have h := fetchBytes_of_ok s bs 15 0 hl (fun k hk => by simpa using hf k hk)
  simp only [fetchInstr, h, decode_append_ok _ hd]

/-- Where the bytes at the program counter are rejected, the fetch stops with the reason. -/
theorem fetchInstr_of_error {s : State} {bs : List Byte} {e : DecodeError} (hl : bs.length ≤ 15)
    (hf : s.FetchesBytes bs) (hd : decode s.codeMode bs = .error e) (he : e ≠ .truncated) :
    ∃ stop, fetchInstr s = .error (decodeStop stop e) := by
  have h := fetchBytes_of_ok s bs 15 0 hl (fun k hk => by simpa using hf k hk)
  exact ⟨_, by simp only [fetchInstr, h, decode_append_error _ hd he]; rfl⟩

theorem step_of_fetch_ok {s : State} {i : Instr} (h : fetchInstr s = .ok i) : step s = afterInstr s.tf (exec i s) := by
  simp only [step, stepOnce, h]

theorem step_of_fetch_error {s : State} {st : Stop} (h : fetchInstr s = .error st) : step s = st.outcome s := by
  simp only [step, stepOnce, h]

end Machine

end Sys2Proof
end

