-- ==== Sys2Proof/Laws/Numerics.lean ====
section
/-! SUPPORT. The laws of the arithmetic: classes and DAZ, delivery, rounding, and the values of encoded magnitudes. -/

namespace Sys2Proof.Machine

/-! ### Patterns by their fields -/

/-- The sign and the other 31 bits make a pattern. -/
theorem withSign_fields (p : Single) : withSign (signOf p) (p.extractLsb' 0 31) = p := by
  apply BitVec.eq_of_getLsbD_eq
  intro i hi
  simp only [withSign, signOf, BitVec.getLsbD_append, BitVec.getLsbD_ofBool, BitVec.getLsbD_extractLsb', Nat.zero_add]
  by_cases h : i < 31
  · simp [h]
  · have : i = 31 := by omega
    subst this
    simp

@[simp] theorem signOf_withSign (neg : Bool) (r : BitVec 31) : signOf (withSign neg r) = neg := by
  simp only [signOf, withSign, BitVec.getLsbD_append, BitVec.getLsbD_ofBool]
  simp

@[simp] theorem rest_withSign (neg : Bool) (r : BitVec 31) : (withSign neg r).extractLsb' 0 31 = r := by
  apply BitVec.eq_of_getLsbD_eq
  intro i hi
  simp only [withSign, BitVec.getLsbD_extractLsb', BitVec.getLsbD_append, Nat.zero_add]
  simp [hi]

theorem expOf_eq (p : Single) : (expOf p).toNat = (p.extractLsb' 0 31).toNat / 2 ^ 23 := by
  simp only [expOf, BitVec.extractLsb'_toNat, Nat.shiftRight_eq_div_pow]
  omega

theorem fracOf_eq (p : Single) : (fracOf p).toNat = (p.extractLsb' 0 31).toNat % 2 ^ 23 := by
  simp only [fracOf, BitVec.extractLsb'_toNat, Nat.shiftRight_eq_div_pow]
  omega

/-- The classes in terms of the 31 bits below the sign, read as a number. -/
theorem isZero_iff (p : Single) : isZero p = true ↔ (p.extractLsb' 0 31).toNat = 0 := by
  simp only [isZero, beq_iff_eq]
  exact ⟨fun h => by rw [h]; rfl, fun h => BitVec.eq_of_toNat_eq h⟩

theorem isInf_iff (p : Single) : isInf p = true ↔ (p.extractLsb' 0 31).toNat = 0x7F800000 := by
  simp only [isInf, beq_iff_eq]
  exact ⟨fun h => by rw [h]; rfl, fun h => BitVec.eq_of_toNat_eq h⟩

theorem expOf_beq (p : Single) (n : BitVec 8) : (expOf p == n) = decide ((expOf p).toNat = n.toNat) := by
  rw [Bool.eq_iff_iff]
  simp only [beq_iff_eq, decide_eq_true_eq]
  exact ⟨fun h => by rw [h], fun h => BitVec.eq_of_toNat_eq h⟩

theorem fracOf_bne (p : Single) : (fracOf p != 0#23) = decide ((fracOf p).toNat ≠ 0) := by
  rw [Bool.eq_iff_iff]
  simp only [bne_iff_ne, decide_eq_true_eq, ne_eq]
  exact ⟨fun h e => h (BitVec.eq_of_toNat_eq e), fun h e => h (by rw [e]; rfl)⟩

theorem isDen_iff (p : Single) :
    isDen p = true ↔ 0 < (p.extractLsb' 0 31).toNat ∧ (p.extractLsb' 0 31).toNat < 2 ^ 23 := by
  simp only [isDen, expOf_beq, fracOf_bne, Bool.and_eq_true, decide_eq_true_eq, expOf_eq, fracOf_eq, BitVec.toNat_ofNat]
  omega

theorem isNaN_iff (p : Single) : isNaN p = true ↔ 0x7F800000 < (p.extractLsb' 0 31).toNat := by
  have := (p.extractLsb' 0 31).isLt
  simp only [isNaN, expOf_beq, fracOf_bne, Bool.and_eq_true, decide_eq_true_eq, expOf_eq, fracOf_eq, BitVec.toNat_ofNat]
  omega

/-- A finite pattern's magnitude from its 31 bits. -/
theorem magnitude_eq (p : Single) :
    magnitude p =
      if (p.extractLsb' 0 31).toNat < 2 ^ 23 then (p.extractLsb' 0 31).toNat
      else (2 ^ 23 + (p.extractLsb' 0 31).toNat % 2 ^ 23) * 2 ^ ((p.extractLsb' 0 31).toNat / 2 ^ 23 - 1) := by
  have h : expOf p = 0#8 ↔ (p.extractLsb' 0 31).toNat < 2 ^ 23 := by
    constructor
    · intro h
      have := expOf_eq p
      rw [h, BitVec.toNat_ofNat] at this
      omega
    · intro h
      apply BitVec.eq_of_toNat_eq
      rw [expOf_eq, BitVec.toNat_ofNat]
      omega
  simp only [magnitude, h, expOf_eq, fracOf_eq]
  split
  · exact Nat.mod_eq_of_lt ‹_›
  · rfl

/-! ### DAZ -/

theorem applyDaz_off (p : Single) : applyDaz false p = p := rfl

theorem applyDaz_nan (daz : Bool) (p : Single) : isNaN (applyDaz daz p) = isNaN p := by
  unfold applyDaz
  split
  · rename_i h
    simp only [Bool.and_eq_true] at h
    have h1 := (isDen_iff p).1 h.2
    have h2 : isNaN p = false := by
      cases hn : isNaN p with
      | false => rfl
      | true => have := (isNaN_iff p).1 hn; omega
    have h3 : isNaN (withSign (signOf p) 0#31) = false := by
      cases hn : isNaN (withSign (signOf p) 0#31) with
      | false => rfl
      | true => have := (isNaN_iff _).1 hn; rw [rest_withSign] at this; simp at this
    rw [h2, h3]
  · rfl

theorem applyDaz_inf (daz : Bool) (p : Single) : isInf (applyDaz daz p) = isInf p := by
  unfold applyDaz
  split
  · rename_i h
    simp only [Bool.and_eq_true] at h
    have h1 := (isDen_iff p).1 h.2
    have h2 : isInf p = false := by
      cases hn : isInf p with
      | false => rfl
      | true => have := (isInf_iff p).1 hn; omega
    have h3 : isInf (withSign (signOf p) 0#31) = false := by
      cases hn : isInf (withSign (signOf p) 0#31) with
      | false => rfl
      | true => have := (isInf_iff _).1 hn; rw [rest_withSign] at this; simp at this
    rw [h2, h3]
  · rfl

@[simp] theorem applyDaz_sign (daz : Bool) (p : Single) : signOf (applyDaz daz p) = signOf p := by
  unfold applyDaz
  split <;> simp

/-- After DAZ no operand is denormal. -/
theorem applyDaz_den (p : Single) : isDen (applyDaz true p) = false := by
  unfold applyDaz
  split
  · cases hn : isDen (withSign (signOf p) 0#31) with
    | false => rfl
    | true => have := (isDen_iff _).1 hn; rw [rest_withSign] at this; simp at this
  · rename_i h
    simpa using h

/-! ### Delivery -/

/-- All that `deliver` can do. -/
theorem deliver_spec (m : FpMasks) (res : Single) (fl : FpFlags) :
    (fl.unmasked m = false ∧ deliver m res fl = .done res fl) ∨ (fl.unmasked m = true ∧ deliver m res fl = .stopped fl) := by
  unfold deliver
  cases h : fl.unmasked m
  · exact .inl ⟨rfl, rfl⟩
  · exact .inr ⟨rfl, rfl⟩

@[simp] theorem deliver_flags (m : FpMasks) (res : Single) (fl : FpFlags) : (deliver m res fl).flags = fl := by
  unfold deliver
  split <;> rfl

/-! ### Rounding -/

/-- `roundTo` answers one of the two neighbouring multiples of the unit. -/
theorem roundTo_spec (rm : Rounding) (neg : Bool) (m k : Nat) :
    (m % 2 ^ k = 0 ∧ roundTo rm neg m k = m) ∨
      (m % 2 ^ k ≠ 0 ∧ roundTo rm neg m k = m / 2 ^ k * 2 ^ k ∧ roundsUp rm neg k (m / 2 ^ k) (m % 2 ^ k) = false) ∨
      (m % 2 ^ k ≠ 0 ∧ roundTo rm neg m k = (m / 2 ^ k + 1) * 2 ^ k ∧ roundsUp rm neg k (m / 2 ^ k) (m % 2 ^ k) = true) := by
  unfold roundTo
  split
  · exact .inl ⟨‹_›, rfl⟩
  · cases h : roundsUp rm neg k (m / 2 ^ k) (m % 2 ^ k)
    · exact .inr (.inl ⟨‹_›, rfl, rfl⟩)
    · exact .inr (.inr ⟨‹_›, rfl, rfl⟩)

/-- A rounded value is a multiple of the unit. -/
theorem roundTo_dvd (rm : Rounding) (neg : Bool) (m k : Nat) : 2 ^ k ∣ roundTo rm neg m k := by
  rcases roundTo_spec rm neg m k with ⟨h1, h2⟩ | ⟨_, h2, _⟩ | ⟨_, h2, _⟩
  · rw [h2]; exact Nat.dvd_of_mod_eq_zero h1
  · rw [h2]; exact Nat.dvd_mul_left _ _
  · rw [h2]; exact Nat.dvd_mul_left _ _

/-- A rounded value lies between the multiples of the unit around the exact value. -/
theorem roundTo_bounds (rm : Rounding) (neg : Bool) (m k : Nat) :
    m / 2 ^ k * 2 ^ k ≤ roundTo rm neg m k ∧ roundTo rm neg m k ≤ (m / 2 ^ k + 1) * 2 ^ k := by
  have hd := Nat.div_add_mod m (2 ^ k)
  have hm := Nat.mod_lt m (Nat.two_pow_pos k)
  rw [Nat.mul_comm] at hd
  rw [Nat.add_mul, Nat.one_mul]
  rcases roundTo_spec rm neg m k with ⟨h1, h2⟩ | ⟨_, h2, _⟩ | ⟨_, h2, _⟩
  · omega
  · omega
  · rw [h2, Nat.add_mul, Nat.one_mul]; omega

/-! ### Rounding to 24 bits and encoding -/

/-- `round24` of a value of at least 24 bits: a 24-bit significand (or 2^24) times a power of two. -/
theorem round24_form (rm : Rounding) (neg : Bool) (m : Nat) (hm : 2 ^ 23 ≤ m) :
    ∃ c, 2 ^ 23 ≤ c ∧ c ≤ 2 ^ 24 ∧ 23 ≤ Nat.log2 m ∧ round24 rm neg m = c * 2 ^ (Nat.log2 m - 23) := by
  have h0 : m ≠ 0 := by rintro rfl; simp at hm
  have hL : 23 ≤ Nat.log2 m := (Nat.le_log2 h0).2 hm
  have h1 := Nat.log2_self_le h0
  have h2 : m < 2 ^ (Nat.log2 m + 1) := Nat.lt_log2_self
  obtain ⟨k, hk⟩ : ∃ k, Nat.log2 m = 23 + k := ⟨Nat.log2 m - 23, by omega⟩
  have hkk : Nat.log2 m - 23 = k := by omega
  have hk' : (2:Nat) ^ (23 + k) = 2 ^ 23 * 2 ^ k := by rw [pow_add]
  have hk2 : (2:Nat) ^ (23 + k + 1) = 2 ^ 24 * 2 ^ k := by rw [show 23 + k + 1 = 24 + k by omega, pow_add]
  rw [hk, hk'] at h1
  rw [hk, hk2] at h2
  have hp := Nat.two_pow_pos k
  have ha : 2 ^ 23 ≤ m / 2 ^ k := (Nat.le_div_iff_mul_le hp).2 h1
  have hb : m / 2 ^ k < 2 ^ 24 := (Nat.div_lt_iff_lt_mul hp).2 h2
  unfold round24
  rw [hkk]
  have hd := Nat.div_add_mod m (2 ^ k)
  rcases roundTo_spec rm neg m k with ⟨e, h⟩ | ⟨_, h, _⟩ | ⟨_, h, _⟩
  · refine ⟨m / 2 ^ k, ha, by omega, hL, ?_⟩
    rw [h, Nat.mul_comm]; omega
  · exact ⟨m / 2 ^ k, ha, by omega, hL, h⟩
  · exact ⟨m / 2 ^ k + 1, by omega, by omega, hL, h⟩

/-- Below 2^24 units nothing is rounded. -/
theorem round24_small (rm : Rounding) (neg : Bool) (m : Nat) (hm : m < 2 ^ 24) : round24 rm neg m = m := by
  have : Nat.log2 m - 23 = 0 := by
    by_cases h0 : m = 0
    · subst h0; rfl
    · have : Nat.log2 m < 24 := (Nat.log2_lt h0).2 hm
      omega
  unfold round24 roundTo
  rw [this]; simp [Nat.mod_one]

/-- A value of 24 significant bits, encoded: exponent and fraction together are one number. -/
theorem encode_normal (neg : Bool) (c k : Nat) (h1 : 2 ^ 23 ≤ c) (h2 : c ≤ 2 ^ 24) (h3 : 149 ≤ k)
    (h4 : c * 2 ^ k < 2 ^ 426) :
    encodeMagnitude neg (c * 2 ^ k) = withSign neg (BitVec.ofNat 31 ((k - 149) * 2 ^ 23 + c)) ∧
      (k - 149) * 2 ^ 23 + c < 0x7F800000 := by
  have hp := Nat.two_pow_pos k
  have hk : k < 403 := by
    have h5 : 2 ^ 23 * 2 ^ k < 2 ^ 426 := lt_of_le_of_lt (Nat.mul_le_mul_right _ h1) h4
    rw [← pow_add] at h5
    have := (Nat.pow_lt_pow_iff_right (by omega : 1 < 2)).1 h5
    omega
  have hge : ¬ c * 2 ^ k < 2 ^ 172 := by
    have : (2:Nat) ^ 149 ≤ 2 ^ k := Nat.pow_le_pow_right (by omega) h3
    have : 2 ^ 23 * 2 ^ 149 ≤ c * 2 ^ k := Nat.mul_le_mul h1 this
    have e : (2:Nat) ^ 23 * 2 ^ 149 = 2 ^ 172 := by rw [← pow_add]
    omega
  have hne : c * 2 ^ k ≠ 0 := by positivity
  have hlt : k = 402 → c < 2 ^ 24 := by
    rintro rfl
    by_contra hge
    have : c = 2 ^ 24 := by omega
    subst this
    have e : (2:Nat) ^ 24 * 2 ^ 402 = 2 ^ 426 := by rw [← pow_add]
    omega
  unfold encodeMagnitude
  rw [if_neg hge]
  by_cases hc : c < 2 ^ 24
  · have hl : Nat.log2 (c * 2 ^ k) = 23 + k := by
      rw [Nat.log2_eq_iff hne]
      constructor
      · rw [pow_add]; exact Nat.mul_le_mul_right _ h1
      · rw [show 23 + k + 1 = 24 + k by omega, pow_add]; exact (Nat.mul_lt_mul_right hp).2 hc
    rw [hl, show 23 + k - 23 = k by omega, Nat.mul_div_cancel _ hp]
    refine ⟨?_, by omega⟩
    have e : (23 + k - 171) * 2 ^ 23 + (c - 2 ^ 23) = (k - 149) * 2 ^ 23 + c := by omega
    rw [e]
  · have hc : c = 2 ^ 24 := by omega
    subst hc
    have hl : Nat.log2 (2 ^ 24 * 2 ^ k) = 24 + k := by rw [← pow_add, Nat.log2_two_pow]
    rw [hl, show 24 + k - 23 = k + 1 by omega, show (2:Nat) ^ 24 * 2 ^ k = 2 ^ 23 * 2 ^ (k + 1) by ring,
      Nat.mul_div_cancel _ (Nat.two_pow_pos _)]
    refine ⟨?_, by omega⟩
    have e : (24 + k - 171) * 2 ^ 23 + (2 ^ 23 - 2 ^ 23) = (k - 149) * 2 ^ 23 + 2 ^ 24 := by omega
    rw [e]

/-- A multiple of 2^-149 below 2^-126, encoded. -/
theorem encode_denormal (neg : Bool) (n : Nat) (h : n < 2 ^ 23) :
    encodeMagnitude neg (n * 2 ^ 149) = withSign neg (BitVec.ofNat 31 n) := by
  have hp := Nat.two_pow_pos 149
  have h2 : n * 2 ^ 149 < 2 ^ 172 := by
    have := (Nat.mul_lt_mul_right hp).2 h
    rwa [← pow_add] at this
  unfold encodeMagnitude
  rw [if_pos h2, Nat.mul_div_cancel _ hp]

/-- The magnitude of a pattern, from the number that its lower 31 bits are. -/
theorem magnitude_fields (neg : Bool) (n : Nat) (h : n < 2 ^ 31) :
    magnitude (withSign neg (BitVec.ofNat 31 n)) =
      if n / 2 ^ 23 = 0 then n % 2 ^ 23 else (2 ^ 23 + n % 2 ^ 23) * 2 ^ (n / 2 ^ 23 - 1) := by
  have hr : ((withSign neg (BitVec.ofNat 31 n)).extractLsb' 0 31).toNat = n := by
    rw [rest_withSign, BitVec.toNat_ofNat, Nat.mod_eq_of_lt h]
  unfold magnitude
  have he := expOf_eq (withSign neg (BitVec.ofNat 31 n))
  have hf := fracOf_eq (withSign neg (BitVec.ofNat 31 n))
  rw [hr] at he hf
  have : (expOf (withSign neg (BitVec.ofNat 31 n)) = 0#8) ↔ (n / 2 ^ 23 = 0) := by
    rw [← he]
    exact ⟨fun h => by rw [h]; rfl, fun h => BitVec.eq_of_toNat_eq h⟩
  simp only [this, he, hf]

/-- A multiple of 2^-149 below 2^-126, or a value of 24 significant bits from 2^-126 up, in units of 2^-298. -/
def Representable (q : Nat) : Prop :=
  (∃ n, n < 2 ^ 23 ∧ q = n * 2 ^ 149) ∨ (∃ c k, 2 ^ 23 ≤ c ∧ c ≤ 2 ^ 24 ∧ 149 ≤ k ∧ q = c * 2 ^ k)

/-- What `encodeMagnitude` answers for a representable value below 2^128: a finite
pattern of the given sign and of that magnitude, normal from 2^-126 up. -/
theorem encode_value (neg : Bool) (q : Nat) (h : q < 2 ^ 426) (hform : Representable q) :
    isNaN (encodeMagnitude neg q) = false ∧ isInf (encodeMagnitude neg q) = false ∧ signOf (encodeMagnitude neg q) = neg ∧
    magnitude (encodeMagnitude neg q) * 2 ^ 149 = q ∧ (2 ^ 172 ≤ q → isDen (encodeMagnitude neg q) = false) := by
  obtain ⟨n, hn, he, hm, hd⟩ : ∃ n, n < 0x7F800000 ∧ encodeMagnitude neg q = withSign neg (BitVec.ofNat 31 n) ∧
      magnitude (withSign neg (BitVec.ofNat 31 n)) * 2 ^ 149 = q ∧ (2 ^ 172 ≤ q → 2 ^ 23 ≤ n) := by
    rcases hform with ⟨n, hn, rfl⟩ | ⟨c, k, h1, h2, h3, rfl⟩
    · refine ⟨n, by omega, encode_denormal neg n hn, ?_, ?_⟩
      · rw [magnitude_fields neg n (by omega), if_pos (by omega), Nat.mod_eq_of_lt hn]
      · intro h
        exfalso
        have := (Nat.mul_lt_mul_right (Nat.two_pow_pos 149)).2 hn
        rw [← pow_add] at this
        omega
    · obtain ⟨e, hb⟩ := encode_normal neg c k h1 h2 h3 h
      refine ⟨_, hb, e, ?_, fun _ => by omega⟩
      rw [magnitude_fields neg _ (by omega), if_neg (by omega)]
      obtain ⟨j, rfl⟩ : ∃ j, k = 149 + j := ⟨k - 149, by omega⟩
      by_cases hc : c < 2 ^ 24
      · have e1 : ((149 + j - 149) * 2 ^ 23 + c) / 2 ^ 23 - 1 = j := by omega
        have e2 : 2 ^ 23 + ((149 + j - 149) * 2 ^ 23 + c) % 2 ^ 23 = c := by omega
        rw [e1, e2, pow_add]; ring
      · have : c = 2 ^ 24 := by omega
        subst this
        have e1 : ((149 + j - 149) * 2 ^ 23 + 2 ^ 24) / 2 ^ 23 - 1 = j + 1 := by omega
        have e2 : 2 ^ 23 + ((149 + j - 149) * 2 ^ 23 + 2 ^ 24) % 2 ^ 23 = 2 ^ 23 := by omega
        rw [e1, e2, pow_add, pow_succ]; ring
  rw [he]
  have hr : ((withSign neg (BitVec.ofNat 31 n)).extractLsb' 0 31).toNat = n := by
    rw [rest_withSign, BitVec.toNat_ofNat, Nat.mod_eq_of_lt (by omega)]
  refine ⟨?_, ?_, signOf_withSign _ _, hm, fun h => ?_⟩
  · rw [Bool.eq_false_iff]; intro h; have := (isNaN_iff _).1 h; omega
  · rw [Bool.eq_false_iff]; intro h; have := (isInf_iff _).1 h; omega
  · have := hd h; rw [Bool.eq_false_iff]; intro h; have := (isDen_iff _).1 h; omega

/-- Rounding does not lead below a power of two. -/
theorem round24_ge (rm : Rounding) (neg : Bool) (m : Nat) (e : Nat) (he : 24 ≤ e) (h : 2 ^ e ≤ m) :
    2 ^ e ≤ round24 rm neg m := by
  have h24 : 2 ^ 23 ≤ m := le_trans (Nat.pow_le_pow_right (by omega) (by omega)) h
  obtain ⟨c, h1, h2, h3, h4⟩ := round24_form rm neg m h24
  have h0 : m ≠ 0 := by rintro rfl; simp at h24
  have hL : e ≤ Nat.log2 m := (Nat.le_log2 h0).2 h
  rw [h4]
  calc 2 ^ e ≤ 2 ^ (Nat.log2 m) := Nat.pow_le_pow_right (by omega) hL
    _ = 2 ^ 23 * 2 ^ (Nat.log2 m - 23) := by rw [← pow_add]; congr 1; omega
    _ ≤ _ := Nat.mul_le_mul_right _ h1

/-- A rounded value from 2^-126 up is representable. -/
theorem round24_normal (rm : Rounding) (neg : Bool) (m : Nat) (h : 2 ^ 172 ≤ round24 rm neg m) :
    Representable (round24 rm neg m) := by
  right
  have h23 : 2 ^ 23 ≤ m := by
    by_contra hlt
    rw [round24_small rm neg m (by omega)] at h
    omega
  obtain ⟨c, h1, h2, h3, h4⟩ := round24_form rm neg m h23
  by_cases hk : 149 ≤ Nat.log2 m - 23
  · exact ⟨c, _, h1, h2, hk, h4⟩
  · -- then c = 2^24 and k = 148
    have hk' : Nat.log2 m - 23 ≤ 148 := by omega
    have hle : c * 2 ^ (Nat.log2 m - 23) ≤ 2 ^ 24 * 2 ^ 148 := Nat.mul_le_mul h2 (Nat.pow_le_pow_right (by omega) hk')
    rw [← pow_add] at hle
    rw [h4] at h
    refine ⟨2 ^ 23, 149, le_refl _, by omega, le_refl _, ?_⟩
    rw [← pow_add, h4]
    omega

/-- What rounds below 2^-126 is below it. -/
theorem lt_of_round24_lt {rm : Rounding} {neg : Bool} {m : Nat} (h : round24 rm neg m < 2 ^ 172) : m < 2 ^ 172 := by
  by_contra hge
  have := round24_ge rm neg m 172 (by omega) (by omega)
  omega

/-- The rounding to a multiple of 2^-149 gives a representable value. -/
theorem roundDenormal_form (rm : Rounding) (neg : Bool) (m : Nat) (h : m < 2 ^ 172) :
    roundDenormal rm neg m < 2 ^ 426 ∧ Representable (roundDenormal rm neg m) := by
  unfold roundDenormal
  obtain ⟨n, hn⟩ := roundTo_dvd rm neg m 149
  have hb := (roundTo_bounds rm neg m 149).2
  have h1 : m / 2 ^ 149 + 1 ≤ 2 ^ 23 := by omega
  have h2 : (m / 2 ^ 149 + 1) * 2 ^ 149 ≤ 2 ^ 23 * 2 ^ 149 := Nat.mul_le_mul_right _ h1
  rw [← pow_add] at h2
  refine ⟨by omega, ?_⟩
  by_cases hs : n < 2 ^ 23
  · exact .inl ⟨n, hs, by rw [hn, Nat.mul_comm]⟩
  · exact .inr ⟨2 ^ 23, 149, le_refl _, by omega, le_refl _, by omega⟩

end Sys2Proof.Machine
end

