-- ==== Sys2Proof/Laws/PerInstr.lean ====
section
/-! SUPPORT. A statement for every instruction, one lemma per constructor. -/

namespace Sys2Proof.Laws

/-- R71 and D24: the encoding of a well-formed instruction has `Instr.size` bytes, at least 5 and at most 15. -/
def EncodingLength.Statement (i : Instr) : Prop :=
  i.wf = true → (encode i).length = i.size ∧ 5 ≤ i.size ∧ i.size ≤ 15

/-- The VEX part of the statement. -/
theorem encodingLength_vex (op : Byte) (f : VexForm) (h : f.wf = true) :
    (encodeVex op f).length = f.size ∧ 5 ≤ f.size ∧ f.size ≤ 15 := by
  simp only [VexForm.wf, Bool.and_eq_true, decide_eq_true_eq] at h
  exact ⟨encodeVex_length op f, by unfold VexForm.size; omega, h.2⟩

/-- The EVEX part of the statement. -/
theorem encodingLength_evex (op : Byte) (f : EvexForm) (h : f.wf = true) :
    (encodeEvex op f).length = f.size ∧ 5 ≤ f.size ∧ f.size ≤ 15 := by
  simp only [EvexForm.wf, Bool.and_eq_true, decide_eq_true_eq] at h
  exact ⟨encodeEvex_length op f, by unfold EvexForm.size; omega, h.2⟩

theorem EncodingLength.vfmadd132ssVex (f : VexForm) : EncodingLength.Statement (.vfmadd132ssVex f) :=
  fun h => encodingLength_vex _ f h

theorem EncodingLength.vfmadd213ssVex (f : VexForm) : EncodingLength.Statement (.vfmadd213ssVex f) :=
  fun h => encodingLength_vex _ f h

theorem EncodingLength.vfmadd231ssVex (f : VexForm) : EncodingLength.Statement (.vfmadd231ssVex f) :=
  fun h => encodingLength_vex _ f h

theorem EncodingLength.vfmadd132ssEvex (f : EvexForm) : EncodingLength.Statement (.vfmadd132ssEvex f) :=
  fun h => encodingLength_evex _ f h

theorem EncodingLength.vfmadd213ssEvex (f : EvexForm) : EncodingLength.Statement (.vfmadd213ssEvex f) :=
  fun h => encodingLength_evex _ f h

theorem EncodingLength.vfmadd231ssEvex (f : EvexForm) : EncodingLength.Statement (.vfmadd231ssEvex f) :=
  fun h => encodingLength_evex _ f h

end Sys2Proof.Laws
end

