-- ==== Sys2Proof/Machine/Assembly.lean ====
section
/-! DEFINITION. The assembler syntax of R93: an instruction written in Intel and in AT&T syntax, in 64-bit mode. No step reads
it. -/

namespace Sys2Proof.Machine

/-- A text in braces. -/
def braced (t : String) : String := String.singleton (Char.ofNat 0x7B) ++ t ++ String.singleton (Char.ofNat 0x7D)

/-- The names of the 64-bit general registers by number (R25). -/
def gprNames64 : List String :=
  ["rax", "rcx", "rdx", "rbx", "rsp", "rbp", "rsi", "rdi", "r8", "r9", "r10", "r11", "r12", "r13", "r14", "r15"]

/-- The names of their low 32 bits (R25). -/
def gprNames32 : List String :=
  ["eax", "ecx", "edx", "ebx", "esp", "ebp", "esi", "edi", "r8d", "r9d", "r10d", "r11d", "r12d", "r13d", "r14d", "r15d"]

/-- The name of a general register; 67H selects the 32-bit names (R83). -/
def gprName (a32 : Bool) (n : BitVec 4) : String := ((if a32 then gprNames32 else gprNames64)[n.toNat]?).getD ""

/-- The name of a vector register. -/
def vregName (n : Nat) : String := "xmm" ++ toString n

/-- The three mnemonics (R70). -/
def mnemonicText : Opcode → String
  | .op132 => "vfmadd132ss"
  | .op213 => "vfmadd213ss"
  | .op231 => "vfmadd231ss"

/-- A memory reference split into the parts that both syntaxes print. -/
structure AddrText where
  segment : Option String
  base : Option String
  index : Option (String × Nat)
  disp : Int
  deriving DecidableEq, Repr

/-- The displacement that is printed; disp8 of an EVEX form counts times 4 (R82). -/
def dispInt (evex : Bool) : Disp → Int
  | .none => 0
  | .disp8 d => if evex then 4 * d.toInt else d.toInt
  | .disp32 d => d.toInt

/-- The segment that is printed: the last of 64H and 65H (R83). -/
def segmentText (legacy : List LegacyByte) : Option String :=
  legacy.foldl (fun t p => match p with
    | .fs => some "fs"
    | .gs => some "gs"
    | _ => t) none

/-- The index that is printed: none for register 4 (R81). -/
def indexText (a32 x : Bool) (scale : BitVec 2) (index : BitVec 3) : Option (String × Nat) :=
  if BitVec.ofBool x ++ index = 4#4 then none else some (gprName a32 (BitVec.ofBool x ++ index), 2 ^ scale.toNat)

/-- The parts of a memory reference. -/
def addrText (evex : Bool) (legacy : List LegacyByte) (x b : Bool) (a : Addr) : AddrText :=
  let a32 := legacy.contains .addrSize
  match a with
  | .ripRel d => ⟨segmentText legacy, some (if a32 then "eip" else "rip"), none, d.toInt⟩
  | .base rm d => ⟨segmentText legacy, some (gprName a32 (BitVec.ofBool b ++ rm)), none, dispInt evex d⟩
  | .sib sc i bs d =>
    ⟨segmentText legacy, some (gprName a32 (BitVec.ofBool b ++ bs)), indexText a32 x sc i, dispInt evex d⟩
  | .sibNoBase sc i d => ⟨segmentText legacy, none, indexText a32 x sc i, d.toInt⟩

/-- A displacement after another term. -/
def signedText (d : Int) : String := if d = 0 then "" else if d < 0 then toString d else "+" ++ toString d

/-- A memory reference in Intel syntax. -/
def AddrText.intel (t : AddrText) : String :=
  let seg := match t.segment with
    | some g => g ++ ":"
    | none => ""
  let idx := match t.index with
    | some (n, sc) => n ++ "*" ++ toString sc
    | none => ""
  let inner := match t.base, t.index with
    | some bn, none => bn ++ signedText t.disp
    | some bn, some _ => bn ++ "+" ++ idx ++ signedText t.disp
    | none, some _ => idx ++ signedText t.disp
    | none, none => toString t.disp
  "dword ptr " ++ seg ++ "[" ++ inner ++ "]"

/-- A memory reference in AT&T syntax. -/
def AddrText.att (t : AddrText) : String :=
  let seg := match t.segment with
    | some g => "%" ++ g ++ ":"
    | none => ""
  let disp := if t.disp = 0 && (t.base.isSome || t.index.isSome) then "" else toString t.disp
  let idx := match t.index with
    | some (n, sc) => ",%" ++ n ++ "," ++ toString sc
    | none => ""
  let inner := match t.base, t.index with
    | some bn, _ => "(%" ++ bn ++ idx ++ ")"
    | none, some _ => "(" ++ idx ++ ")"
    | none, none => ""
  seg ++ disp ++ inner

/-- Operand 3 in Intel syntax. -/
def operand3Intel (evex : Bool) (legacy : List LegacyByte) : Operand3 → String
  | .reg x b rm => vregName (BitVec.ofBool (evex && x) ++ BitVec.ofBool b ++ rm).toNat
  | .mem x b a => (addrText evex legacy x b a).intel

/-- Operand 3 in AT&T syntax. -/
def operand3Att (evex : Bool) (legacy : List LegacyByte) : Operand3 → String
  | .reg x b rm => "%" ++ vregName (BitVec.ofBool (evex && x) ++ BitVec.ofBool b ++ rm).toNat
  | .mem x b a => (addrText evex legacy x b a).att

/-- A VEX form in Intel syntax, destination first. -/
def vexIntel (o : Opcode) (f : VexForm) : String :=
  mnemonicText o ++ " " ++ vregName f.dst.toNat ++ ", " ++ vregName f.src2.toNat ++ ", " ++
    operand3Intel false f.legacy f.op3

/-- A VEX form in AT&T syntax, destination last. -/
def vexAtt (o : Opcode) (f : VexForm) : String :=
  mnemonicText o ++ " " ++ operand3Att false f.legacy f.op3 ++ ", %" ++ vregName f.src2.toNat ++ ", %" ++
    vregName f.dst.toNat

/-- A register above 15 as operand 3. -/
def Operand3.isHigh : Operand3 → Bool
  | .reg x _ _ => x
  | .mem _ _ _ => false

/-- An assembler chooses the EVEX form of its own accord only for a mask, a rounding specifier or a register above 15 (R93);
otherwise the pseudo-word in braces forces it. -/
def EvexForm.chosen (f : EvexForm) : Bool :=
  f.aaa != 0#3 || f.b || f.dst.getLsbD 4 || f.src2.getLsbD 4 || Operand3.isHigh f.op3

/-- The word that forces the EVEX form, where it is needed. -/
def evexForce (f : EvexForm) : String := if EvexForm.chosen f then "" else braced "evex" ++ " "

/-- Writemask and zeroing after the destination; `reg` is what stands before a register name. -/
def maskText (reg : String) (f : EvexForm) : String :=
  if f.aaa = 0#3 then "" else braced (reg ++ "k" ++ toString f.aaa.toNat) ++ (if f.z then braced "z" else "")

/-- The spelling of a static rounding mode (R84). -/
def roundingText (rc : BitVec 2) : String :=
  braced (if rc = 0#2 then "rn-sae" else if rc = 1#2 then "rd-sae" else if rc = 2#2 then "ru-sae" else "rz-sae")

/-- An EVEX form in Intel syntax. -/
def evexIntel (o : Opcode) (f : EvexForm) : String :=
  evexForce f ++ mnemonicText o ++ " " ++ vregName f.dst.toNat ++ maskText "" f ++ ", " ++ vregName f.src2.toNat ++ ", " ++
    operand3Intel true f.legacy f.op3 ++ (if f.b then ", " ++ roundingText f.ll else "")

/-- An EVEX form in AT&T syntax. -/
def evexAtt (o : Opcode) (f : EvexForm) : String :=
  evexForce f ++ mnemonicText o ++ " " ++ (if f.b then roundingText f.ll ++ ", " else "") ++
    operand3Att true f.legacy f.op3 ++ ", %" ++ vregName f.src2.toNat ++ ", %" ++ vregName f.dst.toNat ++ maskText "%" f

/-- The Intel syntax of an instruction. -/
def intelSyntax : Instr → String
  | .vfmadd132ssVex f => vexIntel .op132 f
  | .vfmadd213ssVex f => vexIntel .op213 f
  | .vfmadd231ssVex f => vexIntel .op231 f
  | .vfmadd132ssEvex f => evexIntel .op132 f
  | .vfmadd213ssEvex f => evexIntel .op213 f
  | .vfmadd231ssEvex f => evexIntel .op231 f

/-- The AT&T syntax of an instruction. -/
def attSyntax : Instr → String
  | .vfmadd132ssVex f => vexAtt .op132 f
  | .vfmadd213ssVex f => vexAtt .op213 f
  | .vfmadd231ssVex f => vexAtt .op231 f
  | .vfmadd132ssEvex f => evexAtt .op132 f
  | .vfmadd213ssEvex f => evexAtt .op213 f
  | .vfmadd231ssEvex f => evexAtt .op231 f

end Sys2Proof.Machine
end

