-- ==== Sys2Proof/Tests/Slice0.lean ====
section
/-! SUPPORT. The tests: well-formedness, decoding, one step of each instruction against the vectors of 95_test_vectors.md, and
for each obligation with hypotheses a state and operands that meet them. -/

namespace Sys2Proof.Tests

open Sys2Proof Sys2Proof.Machine

-- One theorem after the other: the kernel evaluations need much stack, and all at once exceed the memory limit.
set_option Elab.async false

/-! ### Helpers -/

/-- Bytes from numbers. -/
def bytes (ns : List Nat) : List Byte := ns.map (BitVec.ofNat 8)

/-- A vector register whose bits 31:0 are `w` and whose other bits are not zero. -/
def marked (w : Single) : VecReg := 0xAAAAAAAA#32 ++ 0#224 ++ 0xDDDD#128 ++ 0x111111112222222233333333#96 ++ w

/-- A launched program in 64-bit mode at CPL 3, every byte of memory one of its bytes: V[0], V[1], V[2] hold 2.0, 3.0, 5.0 and RDI is 2000H (95_test_vectors.md). -/
def ready : State :=
  { State.reset.launch64 with
    pc := 0x1000#64
    csSel := 0x33#16
    cs16 := false
    program := [⟨0#64, 2 ^ 64⟩]
    x := State.reset.x.set 7 0x2000#64
    v := ((State.reset.v.set 0 (marked 0x40000000#32)).set 1 (marked 0x40400000#32)).set 2 (marked 0x40A00000#32) }

/-- `ready` with another MXCSR. -/
def withMxcsr (w : BitVec 32) : State := { ready with mxcsr := w }

/-- `ready` with one opmask register set. -/
def withMask (n : Fin 8) (w : Word64) : State := { ready with k := ready.k.set n w }

/-- `ready` in 32-bit mode. -/
def ready32 : State := { ready with csL := false }

/-- Store bytes at the program counter. -/
def placed (s : State) (ns : List Nat) : State := s.setMem (s.mem.writeBytes (s.fetchAddress 0) (bytes ns))

/-- Store 5.0 at an address. -/
def withFive (s : State) (a : Word64) : State := s.setMem (s.mem.writeBytes a (bytes [0x00, 0x00, 0xA0, 0x40]))

/-- A page that is not present. -/
def absentPage (a : Nat) : Region := ⟨a, 4096, { PageAttr.ordinary with present := false }⟩

/-- A page of device registers. -/
def devicePage (a : Nat) : Region := ⟨a, 4096, { PageAttr.ordinary with device := true }⟩

/-- What the tests look at in a result: bits 31:0 of a register, whether its bits 127:32 are those marked and the bits above
zero, the program counter and MXCSR. -/
def seen (n : BitVec 5) : Result → Option (Single × Bool × Word64 × BitVec 32)
  | .next t =>
    some (t.low n, (t.vreg n).extractLsb' 32 96 == 0x111111112222222233333333#96 && (t.vreg n).extractLsb' 128 384 == 0#384,
      t.pc, t.mxcsr)
  | _ => none

/-- The exception of a result, with MXCSR and whether everything else is as in `s`. -/
def faulted (s : State) : Result → Option (Exception × BitVec 32 × Bool)
  | .fault (.exception e t) => some (e, t.mxcsr, decide ({ t with mxcsr := s.mxcsr, cr2 := s.cr2 } = s))
  | _ => none

/-- Only the `n` bytes at the program counter are the program. -/
def programOf (s : State) (n : Nat) : State := { s with program := [⟨s.fetchAddress 0, n⟩] }

/-- An answer that the oracle gives outright to every access of one kind at one address, at every CPL. -/
def answering (s : State) (kind : AccessKind) (a : Nat) (answer : OracleAnswer) : State :=
  { s with answers := [⟨a, 1, kind, 15#4, answer⟩] }

/-- The refusal of a result. -/
def refusal : Result → Option Refusal
  | .refused r => some r
  | _ => none

/-- Whether the bytes stand at the program counter and can be fetched. -/
def fetchesAll (s : State) (bs : List Byte) : Bool :=
  (List.range bs.length).all fun k => match fetchByte s k with
    | .ok b => some b == bs[k]?
    | .error _ => false

theorem fetches_of_all {s : State} {bs : List Byte} (h : fetchesAll s bs = true) : s.FetchesBytes bs := by
  intro k hk
  have h1 := List.all_eq_true.1 h k (List.mem_range.2 hk)
  cases hf : fetchByte s k with
  | error e => simp [hf] at h1
  | ok b =>
    simp only [hf, List.getElem?_eq_getElem hk, beq_iff_eq, Option.some.injEq] at h1
    rw [h1]

/-- `State.NoReadFault` and no refusal of the oracle, as a Bool, where the oracle answers nothing outright. -/
def noReadStop (s : State) (la : Word64) : Bool :=
  s.answerAt .read la == none && (operandBytes la).all fun a => s.pageFaultAt .read a == none

theorem noReadFault_of_all {s : State} {la : Word64} (h : noReadStop s la = true) :
    s.NoReadFault la ∧ ∀ reason, s.answerAt .read la ≠ some (.refuse reason) := by
  simp only [noReadStop, Bool.and_eq_true, List.all_eq_true, beq_iff_eq] at h
  refine ⟨⟨fun code addr e => ?_, fun _ => h.2⟩, fun reason e => ?_⟩ <;> rw [h.1] at e <;> cases e

/-- The conditions of `State.OperandReadable` as a Bool, where the oracle answers nothing outright. -/
def readable (s : State) (la : Word64) : Bool :=
  (operandBytes la).all (fun a => s.canonical a && !(s.attrAt a).device) && noReadStop s la &&
    (!s.alignmentChecked || la.toNat % 4 == 0)

theorem operandReadable_of_all {s : State} {la : Word64} (h : readable s la = true) : s.OperandReadable la := by
  simp only [readable, Bool.and_eq_true, List.all_eq_true, Bool.or_eq_true, beq_iff_eq, Bool.not_eq_true'] at h
  refine ⟨h.1.1, (noReadFault_of_all h.1.2).1, (noReadFault_of_all h.1.2).2, fun hc => ?_⟩
  rcases h.2 with h2 | h2
  · rw [hc] at h2; cases h2
  · exact h2

/-! ### Well-formedness: one refused term for each check -/

/-- A base register form cannot have rm = 100b, which announces SIB (R81). -/
theorem test_wf_base_not_sib : (Addr.base 4#3 (.disp8 0#8)).wf = false := by decide

/-- mod = 00b, rm = 101b is the RIP-relative form (R81). -/
theorem test_wf_base_needs_disp : (Addr.base 5#3 .none).wf = false := by decide

/-- mod = 00b, SIB.base = 101b is the form without a base (R81). -/
theorem test_wf_sib_needs_disp : (Addr.sib 0#2 0#3 5#3 .none).wf = false := by decide

/-- 11 legacy bytes and 5 more make 16 (R71). -/
theorem test_wf_too_long : (Instr.vfmadd132ssVex ⟨List.replicate 11 .es, false, 0#4, 0#4, .reg false false 0#3⟩).wf = false := by
  decide

/-- The same limit for an EVEX form. -/
theorem test_wf_too_long_evex :
    (Instr.vfmadd132ssEvex ⟨List.replicate 10 .es, 0#5, 0#5, .reg false false 0#3, 0#3, false, false, 0#2⟩).wf = false := by
  decide

/-- `b` with a memory operand (R84). -/
theorem test_wf_b_with_memory :
    (Instr.vfmadd213ssEvex ⟨[], 0#5, 0#5, .mem false false (.base 0#3 .none), 0#3, false, true, 0#2⟩).wf = false := by decide

/-- L'L = 11b without `b` (R84). -/
theorem test_wf_length_eleven :
    (Instr.vfmadd213ssEvex ⟨[], 0#5, 0#5, .reg false false 0#3, 0#3, false, false, 3#2⟩).wf = false := by decide

/-- Zeroing without a writemask (R85). -/
theorem test_wf_zeroing_without_mask :
    (Instr.vfmadd231ssEvex ⟨[], 0#5, 0#5, .reg false false 0#3, 0#3, true, false, 0#2⟩).wf = false := by decide

/-! ### Decoding: the words of section 4 of 95_test_vectors.md, and the rows of spec/opcode_table.json -/

/-- EV1: 132, n1 = 0, n2 = 1, n3 = 2. -/
theorem test_decode_vex132 : decode .long64 (bytes [0xC4, 0xE2, 0x71, 0x99, 0xC2]) =
    .ok (.vfmadd132ssVex ⟨[], false, 0#4, 1#4, .reg false false 2#3⟩, []) := by decide

/-- EV7: 213, n1 = 15, n2 = 0, n3 = 7. -/
theorem test_decode_vex213 : decode .long64 (bytes [0xC4, 0x62, 0x79, 0xA9, 0xFF]) =
    .ok (.vfmadd213ssVex ⟨[], false, 15#4, 0#4, .reg false false 7#3⟩, []) := by decide

/-- EV10: 231, n1 = 3, n2 = 4, RSI + RCX * 4 + 100H. -/
theorem test_decode_vex231 : decode .long64 (bytes [0xC4, 0xE2, 0x59, 0xB9, 0x9C, 0x8E, 0x00, 0x01, 0x00, 0x00]) =
    .ok (.vfmadd231ssVex ⟨[], false, 3#4, 4#4, .mem false false (.sib 2#2 1#3 6#3 (.disp32 0x100#32))⟩, []) := by decide

/-- EV35: 132, n1 = 28, n2 = 29, R15 + R14 * 2, disp8 = -2. -/
theorem test_decode_evex132 : decode .long64 (bytes [0x62, 0x02, 0x15, 0x00, 0x99, 0x64, 0x77, 0xFE]) =
    .ok (.vfmadd132ssEvex ⟨[], 28#5, 29#5, .mem true true (.sib 1#2 6#3 7#3 (.disp8 0xFE#8)), 0#3, false, false, 0#2⟩, []) := by
  decide

/-- EV22: 213, n1 = 16, n2 = 17, n3 = 18. -/
theorem test_decode_evex213 : decode .long64 (bytes [0x62, 0xA2, 0x75, 0x00, 0xA9, 0xC2]) =
    .ok (.vfmadd213ssEvex ⟨[], 16#5, 17#5, .reg true false 2#3, 0#3, false, false, 0#2⟩, []) := by decide

/-- EV29: 231, n1 = 31, n2 = 30, n3 = 29, k7, zeroing, static rounding up. -/
theorem test_decode_evex231 : decode .long64 (bytes [0x62, 0x02, 0x0D, 0xD7, 0xB9, 0xFD]) =
    .ok (.vfmadd231ssEvex ⟨[], 31#5, 30#5, .reg true true 5#3, 7#3, true, true, 2#2⟩, []) := by decide

/-- The `match` numbers of the table's rows, in both byte orders, name the rows' instructions; a VEX number first. -/
theorem test_table_vex : decodeTableWord 40 0x00990102C4 = decodeTableWord 40 0xC402019900 ∧
    decodeTableWord 40 0xC40201A900 =
      some (.vfmadd213ssVex ⟨[], false, 8#4, 15#4, .mem true true (.base 0#3 .none)⟩) := by decide

/-- W = 1, a forbidden 66H, zeroing without a mask, and LES in 32-bit mode: each rejected by its name (R75, R92, R85, R96). -/
theorem test_decode_refusals :
    decode .long64 (bytes [0xC4, 0xE2, 0xF1, 0x99, 0xC2]) = .error .doublePrecision ∧
      decode .long64 (bytes [0x66, 0xC4, 0xE2, 0x71, 0x99, 0xC2]) = .error .forbiddenLegacy ∧
      decode .long64 (bytes [0x62, 0xF2, 0x75, 0x88, 0x99, 0xC2]) = .error .evexSetting ∧
      decode (.prot false) (bytes [0xC4, 0x42, 0x01, 0x99, 0xC1]) = .error .lesOrBound := by decide

/-- REX among other prefix bytes (R186, R190, U9): 48 66, 66 48 2E and 40 40 before C4H are forbidden; 40 2E alone is refused
(log entry 16), with the byte C4H the last one read. -/
theorem test_decode_rex :
    decode .long64 (bytes [0x48, 0x66, 0xC4, 0xE2, 0x71, 0x99, 0xC2]) = .error .forbiddenLegacy ∧
      decode .long64 (bytes [0x66, 0x48, 0x2E, 0xC4, 0xE2, 0x71, 0x99, 0xC2]) = .error .forbiddenLegacy ∧
      decode .long64 (bytes [0x40, 0x40, 0x62, 0xF2, 0x75, 0x08, 0xA9, 0xC2]) = .error .forbiddenLegacy ∧
      decode .long64 (bytes [0x40, 0x2E, 0xC4]) = .error .strayRex := by decide

/-- What is not one of the forms is told from the bytes that tell it (R87, R96, R97, R98): LES from two bytes, another map from
three, the 16-bit ModRM table from the ModRM byte; and in real-address mode a form is known by its opcode byte (R4). -/
theorem test_decode_order :
    decode (.prot false) (bytes [0xC4, 0x00]) = .error .lesOrBound ∧
      decode .long64 (bytes [0xC4, 0xE1, 0x78]) = .error .otherMap ∧
      decode .long64 (bytes [0x62, 0xF6, 0x75, 0x08]) = .error .otherMap ∧
      decode (.prot true) (bytes [0xC4, 0xE2, 0x71, 0x99, 0x04]) = .error .addressing16 ∧
      decode .legacy (bytes [0xC4, 0xE2, 0x71, 0x99]) = .error .notRecognised ∧
      decode .long64 (bytes [0xC4, 0xE2, 0x71, 0x99]) = .error .truncated := by decide

/-! ### One step of each instruction (S rows of 95_test_vectors.md) -/

/-- S1 to S3: 2*5+3, 3*2+5, 3*5+2. -/
theorem test_step_vex :
    seen 0#5 (step (placed ready [0xC4, 0xE2, 0x71, 0x99, 0xC2])) = some (0x41500000#32, true, 0x1005#64, 0x1F80#32) ∧
    seen 0#5 (step (placed ready [0xC4, 0xE2, 0x71, 0xA9, 0xC2])) = some (0x41300000#32, true, 0x1005#64, 0x1F80#32) ∧
    seen 0#5 (step (placed ready [0xC4, 0xE2, 0x71, 0xB9, 0xC2])) = some (0x41880000#32, true, 0x1005#64, 0x1F80#32) := by
  decide +kernel

/-- S7: 213 with the 32-bit memory operand at RDI + 4. -/
theorem test_step_vex_memory :
    seen 0#5 (step (withFive (placed ready [0xC4, 0xE2, 0x71, 0xA9, 0x47, 0x04]) 0x2004#64)) =
      some (0x41300000#32, true, 0x1006#64, 0x1F80#32) := by decide +kernel

/-- S30, S31 and S32: 132 under k1 with zeroing, masked on and off, and off with merging. -/
theorem test_step_evex132 :
    seen 0#5 (step (placed (withMask 1 1#64) [0x62, 0xF2, 0x75, 0x89, 0x99, 0xC2])) =
      some (0x41500000#32, true, 0x1006#64, 0x1F80#32) ∧
    seen 0#5 (step (placed (withMask 1 0#64) [0x62, 0xF2, 0x75, 0x89, 0x99, 0xC2])) =
      some (0#32, true, 0x1006#64, 0x1F80#32) ∧
    seen 0#5 (step (placed (withMask 1 2#64) [0x62, 0xF2, 0x75, 0x09, 0x99, 0xC2])) =
      some (0x40000000#32, true, 0x1006#64, 0x1F80#32) := by decide +kernel

/-- 213 without a mask, and S39: 231 under k2 with disp8 = 1 scaled to 4. -/
theorem test_step_evex213_and_memory :
    seen 0#5 (step (placed ready [0x62, 0xF2, 0x75, 0x08, 0xA9, 0xC2])) = some (0x41300000#32, true, 0x1006#64, 0x1F80#32) ∧
    seen 0#5 (step (withFive (placed (withMask 2 1#64) [0x62, 0xF2, 0x75, 0x0A, 0xB9, 0x47, 0x01]) 0x2004#64)) =
      some (0x41880000#32, true, 0x1007#64, 0x1F80#32) := by decide +kernel

/-- The operands of S19: 2^-25, 1.0, 1.0. -/
def tinyAdd (w : BitVec 32) : State :=
  { withMxcsr w with
    v := ((ready.v.set 0 (marked 0x33000000#32)).set 1 (marked 0x3F800000#32)).set 2 (marked 0x3F800000#32) }

/-- S35: static rounding up, MXCSR rounding toward zero and no flag; S36: the same by MXCSR sets PE. -/
theorem test_step_evex231_rounding :
    seen 0#5 (step (placed (tinyAdd 0x7F80#32) [0x62, 0xF2, 0x75, 0x58, 0xB9, 0xC2])) =
      some (0x3F800001#32, true, 0x1006#64, 0x7F80#32) ∧
    seen 0#5 (step (placed (tinyAdd 0x7F80#32) [0x62, 0xF2, 0x75, 0x08, 0xB9, 0xC2])) =
      some (0x3F800000#32, true, 0x1006#64, 0x7FA0#32) := by decide +kernel

/-- S44: an unmasked invalid operation is #XM with IE set and nothing else changed; without OSXMMEXCPT it is #UD (S17). -/
theorem test_step_unmasked :
    (let s := placed { withMxcsr 0#32 with v := ready.v.set 0 (marked 0x7F800001#32) } [0x62, 0xF2, 0x75, 0x08, 0xB9, 0xC2]
     faulted s (step s) = some (.xm, 1#32, true) ∧
       faulted { s with cr4 := 0x40200#64 } (step { s with cr4 := 0x40200#64 }) = some (.ud, 1#32, true)) := by decide +kernel

/-- S11, S14 and S15: page fault, #GP(0) and #SS(0) of a memory operand. -/
theorem test_step_memory_faults :
    (let s := placed { ready with oracle := [absentPage 0x2000] } [0xC4, 0xE2, 0x71, 0xA9, 0x07]
     faulted s (step s) = some (.pf 4#32 0x2000#64, 0x1F80#32, true)) ∧
    (let s := placed { ready with x := ready.x.set 7 0x0000800000000000#64 } [0xC4, 0xE2, 0x71, 0xA9, 0x07]
     faulted s (step s) = some (.gp, 0x1F80#32, true)) ∧
    (let s := placed { ready with x := ready.x.set 5 0x0000800000000000#64 } [0xC4, 0xE2, 0x71, 0xA9, 0x45, 0x00]
     faulted s (step s) = some (.ss, 0x1F80#32, true)) := by decide +kernel

/-- The first instruction after reset, placed from the table's number (EV1, first byte most significant): 0*0+0. -/
theorem test_fetch_word :
    fetchInstr (State.reset.withFetchWord 40 0xC4E27199C2) =
      .ok (.vfmadd132ssVex ⟨[], false, 0#4, 1#4, .reg false false 2#3⟩) ∧
    seen 0#5 (step (State.reset.withFetchWord 40 0xC4E27199C2)) = some (0#32, false, 0xFFF5#64, 0x1F80#32) := by
  decide +kernel

/-- Log entry 35: an operand in a device page that is not present is a page fault; one in a present device page is refused. -/
theorem test_device_after_page_fault :
    let absentDevice : Region := ⟨0x2000, 4096, { PageAttr.ordinary with present := false, device := true }⟩
    let s := { ready with oracle := [absentDevice] }
    (faulted (placed s [0xC4, 0xE2, 0x71, 0xA9, 0x07]) (step (placed s [0xC4, 0xE2, 0x71, 0xA9, 0x07]))).map (·.1) =
        some (.pf 4#32 0x2000#64) ∧
      refusal (step (placed { ready with oracle := [devicePage 0x2000] } [0xC4, 0xE2, 0x71, 0xA9, 0x07])) =
        some .deviceMemory := by decide +kernel

/-- R96: in 32-bit mode the refusal carries the effective address: mod 00b with rm 101b is the disp32 alone, and EDI - 4, with a
VEX and with an EVEX disp8, wraps modulo 2^32. -/
theorem test_address_in_32_bit_mode :
    (let s := { ready32 with x := ready.x.set 7 0xFFFFFFFF00000002#64 }
     refusal (exec (.vfmadd132ssVex ⟨[], false, 0#4, 1#4, .mem false false (.ripRel 0x12345678#32)⟩) s) =
        some (.segmentedOperand 0x12345678#32) ∧
      refusal (exec (.vfmadd132ssVex ⟨[], false, 0#4, 1#4, .mem false false (.base 7#3 (.disp8 0xFC#8))⟩) s) =
        some (.segmentedOperand 0xFFFFFFFE#32) ∧
      refusal (exec (.vfmadd132ssEvex ⟨[], 0#5, 1#5, .mem false false (.base 7#3 (.disp8 0xFF#8)), 0#3, false, false, 0#2⟩)
          s) =
        some (.segmentedOperand 0xFFFFFFFE#32)) := by decide +kernel

/-- Log entry 37: fifteen bytes that do not tell yet what they are raise #GP(0). -/
theorem test_fifteen_prefix_bytes :
    (faulted (placed ready (List.replicate 15 0x2E)) (step (placed ready (List.replicate 15 0x2E)))).map (·.1) = some .gp ∧
      (faulted (placed ready (List.replicate 14 0x2E ++ [0xC4])) (step (placed ready (List.replicate 14 0x2E ++ [0xC4])))).map
        (·.1) = some .gp := by decide +kernel

/-- R207: an instruction cut off by the end of the program bytes is refused; LES (R96) and a form with the 16-bit ModRM table
(R97) at that end are refused as what they are. -/
theorem test_end_of_program :
    refusal (step (programOf (placed ready [0xC4, 0xE2, 0x71, 0x99]) 4)) = some .endOfProgram ∧
      refusal (step (programOf (placed ready32 [0xC4, 0x00]) 2)) = some (.notInSpec .lesOrBound) ∧
      refusal (step (programOf (placed { ready32 with cs16 := true } [0xC4, 0xE2, 0x71, 0x99, 0x04]) 5)) =
        some (.notInSpec .addressing16) := by decide +kernel

/-- R57: what the oracle answers outright is passed on: a page-fault code of its own for a read, a refusal for a fetch. -/
theorem test_oracle_answers :
    (let s := answering (placed ready [0xC4, 0xE2, 0x71, 0xA9, 0x07]) .read 0x2000 (.fault 1#32 (some 0x2003#64))
     faulted s (step s) = some (.pf 1#32 0x2003#64, 0x1F80#32, true)) ∧
    refusal (step (answering (placed ready [0xC4, 0xE2, 0x71, 0xA9, 0x07]) .fetch 0x1002 (.refuse "no answer"))) =
      some (.oracleRefuses "no answer") := by decide +kernel

/-! ### The arithmetic (section 2 of 95_test_vectors.md) -/

/-- `fma32` on MXCSR and three patterns: the result and MXCSR[5:0]. -/
def fmaOf (w : BitVec 32) (x y z : Single) : Option Single × BitVec 6 :=
  match fma32 .ofSpec (.ofMxcsr w) x y z with
  | .done r fl => (some r, fl.bits)
  | .stopped fl => (none, fl.bits)

/-- AV3: one rounding, not two; AV13: a tie to even; AV18: an exact zero with RD; AV27 and AV30: overflow. -/
theorem test_fma_rounding :
    fmaOf 0x1F80#32 0x3F800800#32 0x3F800800#32 0xBF801000#32 = (some 0x33800000#32, 0#6) ∧
      fmaOf 0x1F80#32 0x3F800000#32 0x3F800001#32 0x33800000#32 = (some 0x3F800002#32, 0x20#6) ∧
      fmaOf 0x3F80#32 0x3F800000#32 0x3F800000#32 0xBF800000#32 = (some 0x80000000#32, 0#6) ∧
      fmaOf 0x3F80#32 0x7F7FFFFF#32 0x40000000#32 0x00000000#32 = (some 0x7F7FFFFF#32, 0x28#6) ∧
      fmaOf 0x1F80#32 0xFF7FFFFF#32 0x40000000#32 0x00000000#32 = (some 0xFF800000#32, 0x28#6) := by decide +kernel

/-! ### Assembler syntax (the examples of R93) -/

theorem test_syntax_intel :
    intelSyntax (.vfmadd213ssVex ⟨[], false, 0#4, 1#4, .mem false false (.base 7#3 (.disp8 4#8))⟩) =
      "vfmadd213ss xmm0, xmm1, dword ptr [rdi+4]" := by decide +kernel

theorem test_syntax_att :
    attSyntax (.vfmadd213ssVex ⟨[], false, 0#4, 1#4, .mem false false (.base 7#3 (.disp8 4#8))⟩) =
      "vfmadd213ss 4(%rdi), %xmm1, %xmm0" := by decide +kernel

/-! ### Witnesses: states and operands that meet the hypotheses of the obligations -/

/-- The register form of EV1 to EV3. -/
def regForm : VexForm := ⟨[], false, 0#4, 1#4, .reg false false 2#3⟩

/-- The memory form [RDI]. -/
def memForm : VexForm := ⟨[], false, 0#4, 1#4, .mem false false (.base 7#3 .none)⟩

/-- The EVEX register form of EV27. -/
def evexRegForm : EvexForm := ⟨[], 0#5, 1#5, .reg false false 2#3, 0#3, false, false, 0#2⟩

/-- The EVEX memory form [RDI]. -/
def evexMemForm : EvexForm := ⟨[], 0#5, 1#5, .mem false false (.base 7#3 .none), 0#3, false, false, 0#2⟩

/-- `ready` with 5.0 at [RDI]. -/
def readyMem : State := withFive ready 0x2000#64

/-- The longest well-formed instruction: 15 bytes. -/
def longest : Instr :=
  .vfmadd231ssEvex ⟨List.replicate 4 .fs, 31#5, 30#5, .mem true true (.sib 3#2 7#3 7#3 (.disp32 0xFFFFFFFF#32)), 7#3, true, false,
    2#2⟩

/-- DecodeReadsTheEncoding, at the 15-byte limit. -/
theorem witness_DecodeReadsTheEncoding : longest.wf = true ∧ longest.size = 15 := by decide

/-- DecodedBytesAreTheEncoding, in 64-bit and in 32-bit mode. -/
theorem witness_DecodedBytesAreTheEncoding :
    decode .long64 (bytes [0xC4, 0xE2, 0x71, 0x99, 0xC2, 0x90]) = .ok (.vfmadd132ssVex regForm, bytes [0x90]) ∧
      decode (.prot false) (bytes [0xC4, 0xE2, 0x71, 0x99, 0xC2]) = .ok (.vfmadd132ssVex regForm, []) := by decide

/-- LengthBitsChangeNothing. -/
theorem witness_LengthBitsChangeNothing : evexRegForm.b = false ∧ evexRegForm.ll ≠ 3#2 ∧ (2#2 : BitVec 2) ≠ 3#2 := by decide

/-- Bytes before EV1 for `ForbiddenLegacyByteRaisesUD`: each forbidden byte after nine null overrides, at the limit of 15 bytes,
a REX byte at both ends of its range, and the orders 48 66, 66 48 2E, 40 40 and 40 2E 4F. -/
def forbiddenPrefixes : List (List Nat) :=
  ([0xF0, 0x66, 0xF2, 0xF3].map fun p => List.replicate 9 0x3E ++ [p]) ++
    [[0x40], [0x4F], [0x48, 0x66], [0x66, 0x48, 0x2E], [0x40, 0x40], [0x40, 0x2E, 0x4F]]

/-- A forbidden byte of R92, REX apart. -/
def isForbidden (p : Byte) : Bool := p == 0xF0#8 || p == 0x66#8 || p == 0xF2#8 || p == 0xF3#8

/-- A REX byte by its range. -/
def inRexRange (p : Byte) : Bool := decide (0x40#8 ≤ p) && decide (p ≤ 0x4F#8)

/-- ForbiddenLegacyByteRaisesUD. -/
theorem witness_ForbiddenLegacyByteRaisesUD : ready.is64 = true ∧ (Instr.vfmadd132ssVex regForm).wf = true ∧
    (Instr.vfmadd132ssVex regForm).legacy = [] ∧
    (forbiddenPrefixes.all fun ns =>
      let ps := bytes ns
      ps.all (fun p => p == LegacyByte.ds.toByte || p == LegacyByte.cs.toByte || isForbidden p || inRexRange p) &&
        (ps.any isForbidden || (ps.getLast?.map inRexRange).getD false) &&
        decide (ps.length + (Instr.vfmadd132ssVex regForm).size ≤ 15) &&
        fetchesAll (placed ready (ns ++ [0xC4, 0xE2, 0x71, 0x99, 0xC2]))
          (ps ++ encode (.vfmadd132ssVex regForm))) = true := by decide +kernel

/-- ReservedEvexBitRaisesUD: bit 3 of P0 set, bit 2 of P1 clear. -/
theorem witness_ReservedEvexBitRaisesUD :
    (evexRegForm.wf = true ∧ (placed ready [0x62, 0xFA, 0x75, 0x08, 0xB9, 0xC2]).pc.toNat + evexRegForm.size ≤ 2 ^ 64 ∧ 0xFA#8 &&& 0xF7#8 = evexRegForm.p0 &&& 0xF7#8 ∧ 0x75#8 &&& 0xFB#8 = evexRegForm.p1 &&& 0xFB#8 ∧
      (0xFA#8).getLsbD 3 = true ∧
      fetchesAll (placed ready [0x62, 0xFA, 0x75, 0x08, 0xB9, 0xC2])
        (0x62#8 :: 0xFA#8 :: 0x75#8 :: evexRegForm.p2 :: 0xB9#8 :: modRMBytes 0#3 evexRegForm.op3) = true) ∧
    (0xF2#8 &&& 0xF7#8 = evexRegForm.p0 &&& 0xF7#8 ∧ 0x71#8 &&& 0xFB#8 = evexRegForm.p1 &&& 0xFB#8 ∧
      (0x71#8).getLsbD 2 = false ∧
      fetchesAll (placed ready [0x62, 0xF2, 0x71, 0x08, 0xB9, 0xC2])
        (0x62#8 :: 0xF2#8 :: 0x71#8 :: evexRegForm.p2 :: 0xB9#8 :: modRMBytes 0#3 evexRegForm.op3) = true) := by
  decide +kernel

/-- IllegalEvexSettingRaisesUD: `b` with memory, L'L = 11b, `z` without a mask. -/
theorem witness_IllegalEvexSettingRaisesUD :
    ∀ f ∈ [{ evexMemForm with b := true }, { evexRegForm with ll := 3#2 }, { evexRegForm with z := true }],
      f.op3.wf = true ∧ f.size ≤ 15 ∧
        ((f.b = true ∧ f.op3 = .mem false false (.base 7#3 .none)) ∨ (f.b = false ∧ f.ll = 3#2) ∨ (f.z = true ∧ f.aaa = 0#3)) ∧
        fetchesAll (ready.setMem (ready.mem.writeBytes ready.pc (encodeEvex 0x99#8 f))) (encodeEvex 0x99#8 f) = true := by
  decide +kernel

/-- TooLongRaisesGP, at 16 bytes. -/
theorem witness_TooLongRaisesGP :
    let i := Instr.vfmadd132ssVex regForm
    let before := List.replicate 11 LegacyByte.cs
    let bs := (before.map LegacyByte.toByte ++ encode i).take 15
    i.wf = true ∧ before.length + i.size = 16 ∧
      fetchesAll (ready.setMem (ready.mem.writeBytes ready.pc bs)) bs = true := by decide +kernel

/-- NeighboursAreRefused, the fixed fields: another map, W = 1 and pp = 00b, the bytes up to them alone in the program. -/
theorem witness_NeighboursAreRefused_fields :
    ([[0xC4, 0xE1, 0x71], [0xC4, 0xE2, 0xF1], [0xC4, 0xE2, 0x70]].all fun q =>
      fetchesAll (programOf (placed ready q) 3) (bytes q) &&
        ((bytes q)[1]!.extractLsb' 0 5 != 2#5 || (bytes q)[2]!.getLsbD 7 || (bytes q)[2]!.extractLsb' 0 2 != 1#2)) = true ∧
    ([[0x62, 0xF1, 0x75, 0x08], [0x62, 0xF2, 0xF5, 0x08], [0x62, 0xF2, 0x74, 0x08]].all fun q =>
      fetchesAll (programOf (placed ready q) 4) (bytes q) &&
        ((bytes q)[1]!.extractLsb' 0 3 != 2#3 || (bytes q)[2]!.getLsbD 7 || (bytes q)[2]!.extractLsb' 0 2 != 1#2)) = true := by
  decide +kernel

/-- NeighboursAreRefused: opcode 9BH, LES and BOUND outside 64-bit mode, and the 16-bit ModRM table in a 16-bit code segment and
in a 32-bit one with 67H; nothing after the bytes named is in the program. -/
theorem witness_NeighboursAreRefused_rest :
    fetchesAll (programOf (placed ready [0xC4, 0xE2, 0x71, 0x9B]) 4) (bytes [0xC4, 0xE2, 0x71, 0x9B]) = true ∧
      fetchesAll (programOf (placed ready [0x62, 0xF2, 0x75, 0x08, 0x9B]) 5) (bytes [0x62, 0xF2, 0x75, 0x08, 0x9B]) = true ∧
      ready32.is64 = false ∧ (0x00#8).extractLsb' 6 2 ≠ 3#2 ∧
      fetchesAll (programOf (placed ready32 [0xC4, 0x00]) 2) (bytes [0xC4, 0x00]) = true ∧
      fetchesAll (programOf (placed ready32 [0x62, 0x00]) 2) (bytes [0x62, 0x00]) = true ∧
      (let s : State := { ready32 with cs16 := true }
       s.mode = .protected32 ∧ s.cs16 ≠ ([] : List LegacyByte).contains .addrSize ∧ (0x04#8).extractLsb' 6 2 ≠ 3#2 ∧
         fetchesAll (programOf (placed s [0xC4, 0xE2, 0x71, 0x99, 0x04]) 5) (bytes [0xC4, 0xE2, 0x71, 0x99, 0x04]) = true) ∧
      ready32.cs16 ≠ ([LegacyByte.addrSize]).contains .addrSize ∧
      fetchesAll (programOf (placed ready32 [0x67, 0x62, 0xF2, 0x75, 0x08, 0x99, 0x04]) 7)
        (bytes [0x67, 0x62, 0xF2, 0x75, 0x08, 0x99, 0x04]) = true := by decide +kernel

/-- NeighboursAreRefused, another first byte: C5H in each mode, 50H, the byte after the REX bytes, and outside 64-bit mode 40H,
each alone in the program behind a null override. -/
theorem witness_NeighboursAreRefused_first :
    ([(ready, 0xC5), (ready, 0x50), (ready32, 0xC5), (ready32, 0x40), (State.reset, 0xC5)].all fun sc =>
      let s := programOf (placed sc.1 [0x3E, sc.2]) 2
      let c := BitVec.ofNat 8 sc.2
      fetchesAll s (bytes [0x3E, sc.2]) && c != 0xC4#8 && c != 0x62#8 &&
        ([.es, .cs, .ss, .ds, .fs, .gs, .addrSize] : List LegacyByte).all (fun p => c != p.toByte) &&
        !(bytes [0xF0, 0x66, 0xF2, 0xF3]).contains c && (!s.is64 || decide (¬ (0x40#8 ≤ c ∧ c ≤ 0x4F#8)))) = true := by
  decide +kernel

/-- StepRunsTheDecodedInstruction, with TF clear and set, and where `exec` answers a next state and where it does not. -/
theorem witness_StepRunsTheDecodedInstruction :
    let bs := bytes [0xC4, 0xE2, 0x71, 0x99, 0xC2]
    let s := placed ready [0xC4, 0xE2, 0x71, 0x99, 0xC2]
    let i := Instr.vfmadd132ssVex regForm
    decode s.codeMode bs = .ok (i, []) ∧ fetchesAll s bs = true ∧ s.tf = false ∧ ({ s with rflags := 0x102#64 } : State).tf = true ∧
      (seen 0#5 (exec i { s with rflags := 0x102#64 })).isSome = true ∧
      (seen 0#5 (exec i { s with rflags := 0x102#64, cr4 := 0#64 })).isNone = true := by decide +kernel

/-- EV1 with its first byte at `pc`. -/
def ev1At (s : State) (pc : Word64) : State := placed { s with pc := pc } [0xC4, 0xE2, 0x71, 0x99, 0xC2]

/-- FetchFaultComesFirst, for the last byte of EV1: beyond the canonical addresses, past the end of the program, in a page that
is not present, and in a device page. -/
theorem witness_FetchFaultComesFirst :
    (let t := ev1At ready 0x7FFFFFFFFFFC#64
     fetchesAll t (bytes [0xC4, 0xE2, 0x71, 0x99]) = true ∧ t.canonical (t.pc + 4#64) = false) ∧
    (let t := programOf (ev1At ready 0x2FFC#64) 4
     fetchesAll t (bytes [0xC4, 0xE2, 0x71, 0x99]) = true ∧ t.canonical (t.pc + 4#64) = true ∧
       t.inProgram (t.pc + 4#64) = false) ∧
    (let t := ev1At { ready with oracle := [absentPage 0x3000] } 0x2FFC#64
     fetchesAll t (bytes [0xC4, 0xE2, 0x71, 0x99]) = true ∧ t.canonical (t.pc + 4#64) = true ∧
       t.inProgram (t.pc + 4#64) = true ∧ t.answerAt .fetch (t.pc + 4#64) = none ∧
       t.pageFaultAt .fetch (t.pc + 4#64) = some 0x14#32) ∧
    (let t := ev1At { ready with oracle := [devicePage 0x3000] } 0x2FFC#64
     fetchesAll t (bytes [0xC4, 0xE2, 0x71, 0x99]) = true ∧ t.pageFaultAt .fetch (t.pc + 4#64) = none ∧
       (t.attrAt (t.pc + 4#64)).device = true) := by decide +kernel

/-- FetchFaultComesFirst, where the oracle answers outright for that byte: a fault and a refusal. -/
theorem witness_FetchFaultComesFirst_answers :
    (let t := answering (ev1At ready 0x2FFC#64) .fetch 0x3000 (.fault 0x15#32 none)
     fetchesAll t (bytes [0xC4, 0xE2, 0x71, 0x99]) = true ∧ t.inProgram (t.pc + 4#64) = true ∧
       t.answerAt .fetch (t.pc + 4#64) = some (.fault 0x15#32 none)) ∧
    (let t := answering (ev1At ready 0x2FFC#64) .fetch 0x3000 (.refuse "no answer")
     fetchesAll t (bytes [0xC4, 0xE2, 0x71, 0x99]) = true ∧
       t.answerAt .fetch (t.pc + 4#64) = some (.refuse "no answer")) := by decide +kernel

/-- LaunchEnablesTheForms. -/
theorem witness_LaunchEnablesTheForms : State.reset.cfg.hasFma = true ∧ State.reset.cfg.hasAvx512f = true := by decide

/-- UnavailableRaisesUD: a state for each cause. -/
theorem witness_UnavailableRaisesUD :
    State.reset.mode = .realAddress ∧ ({ ready with efer := 0#64, rflags := 0x20002#64 } : State).mode = .virtual8086 ∧
      ({ ready with cr4 := 0x600#64 } : State).cr4.getLsbD 18 = false ∧
      ({ ready with xcr0 := 0xE3#64 } : State).xcr0.extractLsb' 1 2 ≠ 3#2 ∧
      ({ ready with xcr0 := 0x67#64 } : State).xcr0.extractLsb' 5 3 ≠ 7#3 ∧
      ({ ready with cfg := { ready.cfg with hasFma := false } } : State).cfg.hasFma = false ∧
      ({ ready with cfg := { ready.cfg with hasAvx512f := false } } : State).cfg.hasAvx512f = false := by decide +kernel

/-- UnavailableRaisesUD, the steps: prefix and opcode alone in the program, in real-address and in virtual-8086 mode. -/
theorem witness_UnavailableRaisesUD_steps :
    regForm.p1.extractLsb' 6 2 = 3#2 ∧ evexRegForm.p0.extractLsb' 6 2 = 3#2 ∧
      ([State.reset, { ready with efer := 0#64, rflags := 0x20002#64 }].all fun s =>
        (s.mode == .realAddress || s.mode == .virtual8086) &&
        fetchesAll (programOf (placed s [0xC4, 0xE2, 0x71, 0x99]) 4) [0xC4#8, regForm.p1, regForm.p2, 0x99#8] &&
        fetchesAll (programOf (placed s [0x62, 0xF2, 0x75, 0x08, 0x99]) 5)
          [0x62#8, evexRegForm.p0, evexRegForm.p1, evexRegForm.p2, 0x99#8]) = true := by decide +kernel

/-- TaskSwitchedRaisesNM: TS set in a state both encodings are usable in, and an instruction that completes. -/
theorem witness_TaskSwitchedRaisesNM :
    let s := ({ ready with cr0 := ready.cr0 ||| 8#64 } : State)
    s.cr0.getLsbD 3 = true ∧ s.vexUsable = true ∧ s.evexUsable = true ∧ evexRegForm.legal = true ∧
      (seen 0#5 (exec (.vfmadd132ssVex regForm) ready)).isSome = true := by decide +kernel

/-- The hypotheses on the state that the result statements share. -/
theorem ready_is_ready : ready.is64 = true ∧ ready.ReadyVex ∧ ready.ReadyEvex ∧ ready.PcFits regForm.size ∧
    ready.PcFits evexRegForm.size := by
  unfold State.ReadyVex State.ReadyEvex State.PcFits
  decide +kernel

/-- The outcome of `fma32` that the result statements ask for, in each operand order. -/
theorem ready_outcomes :
    let c := FpControl.ofMxcsr ready.mxcsr
    let d := ready.low 0#5
    let s2 := ready.low 1#5
    let s3 := ready.low 2#5
    fma32 ready.cfg.switches c d s3 s2 = .done 0x41500000#32 {} ∧ fma32 ready.cfg.switches c s2 d s3 = .done 0x41300000#32 {} ∧
      fma32 ready.cfg.switches c s2 s3 d = .done 0x41880000#32 {} := by decide +kernel

/-- VexRegisterResult. -/
theorem witness_VexRegisterResult : regForm.op3 = .reg false false 2#3 ∧ ready.is64 = true ∧ ready.ReadyVex ∧
    ready.PcFits regForm.size ∧
    fma32 ready.cfg.switches (.ofMxcsr ready.mxcsr) (ready.low (regForm.dst.setWidth 5)) (ready.low 2#5)
      (ready.low (regForm.src2.setWidth 5)) = .done 0x41500000#32 {} :=
  ⟨rfl, ready_is_ready.1, ready_is_ready.2.1, ready_is_ready.2.2.2.1, ready_outcomes.1⟩

/-- VexMemoryResult and EvexMemoryResult: an operand at 2000H, the last word below the canonical limit, a misaligned one. -/
theorem witness_MemoryResults :
    (let la := linearAddress readyMem false [] false false memForm.size (.base 7#3 .none)
     la = 0x2000#64 ∧ readyMem.is64 = true ∧ readyMem.vexUsable = true ∧ readyMem.ts = false ∧
       fma32 readyMem.cfg.switches (.ofMxcsr readyMem.mxcsr) (readyMem.low 0#5) (readyMem.mem.read32 la) (readyMem.low 1#5) =
         .done 0x41500000#32 {}) ∧
    linearAddress readyMem true [] false false evexMemForm.size (.base 7#3 .none) = 0x2000#64 ∧ readyMem.evexUsable = true ∧
    evexMemForm.legal = true ∧ evexMemForm.aaa = 0#3 := by decide +kernel

theorem witness_MemoryResults_operand : readyMem.OperandReadable 0x2000#64 ∧ readyMem.OperandReadable 0x7FFFFFFFFFFC#64 ∧
    readyMem.OperandReadable 0x2001#64 ∧ readyMem.PcFits memForm.size ∧ readyMem.PcFits evexMemForm.size := by
  refine ⟨operandReadable_of_all ?_, operandReadable_of_all ?_, operandReadable_of_all ?_, ?_⟩
  · decide +kernel
  · decide +kernel
  · decide +kernel
  · unfold State.PcFits
    decide +kernel

/-- EvexRegisterResult, without a writemask and with an active element. -/
theorem witness_EvexRegisterResult : evexRegForm.op3 = .reg false false 2#3 ∧ evexRegForm.legal = true ∧ evexRegForm.b = false ∧
    evexRegForm.aaa = 0#3 ∧ (withMask 7 1#64).maskBit 7#3 = true ∧ ready.is64 = true ∧ ready.ReadyEvex ∧
    ready.PcFits evexRegForm.size ∧
    fma32 ready.cfg.switches (.ofMxcsr ready.mxcsr) (ready.low evexRegForm.dst) (ready.low 2#5) (ready.low evexRegForm.src2) =
      .done 0x41500000#32 {} :=
  ⟨rfl, by decide, rfl, rfl, by decide +kernel, ready_is_ready.1, ready_is_ready.2.2.1, ready_is_ready.2.2.2.2, ready_outcomes.1⟩

/-- StaticRoundingResult. -/
theorem witness_StaticRoundingResult :
    let f := { evexRegForm with b := true, ll := 3#2 }
    f.op3 = .reg false false 2#3 ∧ f.legal = true ∧ f.b = true ∧ f.aaa = 0#3 ∧ ready.is64 = true ∧ ready.ReadyEvex ∧
      ready.PcFits f.size :=
  ⟨rfl, by decide, rfl, rfl, ready_is_ready.1, ready_is_ready.2.2.1, ready_is_ready.2.2.2.2⟩

/-- MaskedOffResult, and the hypotheses of MaskTestReadsBitZero (all bits of k1 but bit 0, and bit 0 alone). -/
theorem witness_MaskedOffResult :
    let f := { evexMemForm with aaa := 1#3, z := true }
    f.legal = true ∧ f.aaa ≠ 0#3 ∧ (withMask 1 0xFFFFFFFFFFFFFFFE#64).maskBit f.aaa = false ∧
      (withMask 1 0xFFFFFFFFFFFFFFFE#64).is64 = true ∧ (withMask 1 0xFFFFFFFFFFFFFFFE#64).ReadyEvex ∧
      (withMask 1 0xFFFFFFFFFFFFFFFE#64).PcFits f.size := by
  unfold State.ReadyEvex State.PcFits
  decide +kernel

/-- MaskTestReadsBitZero, its three clauses. -/
theorem witness_MaskTestReadsBitZero :
    (withMask 1 1#64).maskBit 1#3 = true ∧
      (∀ n, ((withMask 1 0xFFFFFFFFFFFFFFFF#64).k.get n).getLsbD 0 = ((withMask 1 1#64).k.get n).getLsbD 0) ∧
      (seen 0#5 (exec (.vfmadd132ssEvex { evexRegForm with aaa := 1#3 }) (withMask 1 1#64))).isSome = true ∧
      (withMask 1 2#64).maskBit 1#3 = false ∧
      (seen 0#5 (exec (.vfmadd132ssEvex { evexRegForm with aaa := 1#3 }) (withMask 1 2#64))).isSome = true := by decide +kernel

/-- EvexAgreesWithVex, for the register and for the memory form. -/
theorem witness_EvexAgreesWithVex :
    evexRegForm.legal = true ∧ evexRegForm.aaa = 0#3 ∧ evexRegForm.b = false ∧ evexRegForm.dst = regForm.dst.setWidth 5 ∧
      evexRegForm.src2 = regForm.src2.setWidth 5 ∧ regForm.op3 = .reg false false 2#3 ∧
      evexRegForm.op3 = .reg false false 2#3 ∧ usesStack [] false (.base 7#3 .none) = false ∧
      linearAddress ready false [] false false memForm.size (.base 7#3 .none) =
        linearAddress ready true [] false false evexMemForm.size (.base 7#3 .none) := by decide +kernel

/-- SameRegisterFormsAgree. -/
theorem witness_SameRegisterFormsAgree :
    let f : VexForm := ⟨[], false, 15#4, 15#4, .reg false true 7#3⟩
    f.op3 = .reg false true 7#3 ∧ f.dst = f.src2 ∧ f.dst = BitVec.ofBool true ++ 7#3 := by decide

/-- MaskedFormsComplete: the masks of the reset MXCSR, and forms whose rounding is that of MXCSR. -/
theorem witness_MaskedFormsComplete : ready.mxcsr.extractLsb' 7 6 = 0x3F#6 ∧ ready.is64 = true ∧ ready.ReadyVex ∧
    ready.ReadyEvex ∧ ready.PcFits regForm.size ∧ ready.PcFits evexRegForm.size ∧ evexRegForm.legal = true ∧
    evexRegForm.b = false ∧ evexRegForm.aaa = 0#3 :=
  ⟨by decide +kernel, ready_is_ready.1, ready_is_ready.2.1, ready_is_ready.2.2.1, ready_is_ready.2.2.2.1,
    ready_is_ready.2.2.2.2, by decide, rfl, rfl⟩

/-- ThirtyTwoBitRegisterResult: the register forms, static rounding, a masked-off element, and an accessed memory operand. -/
theorem witness_ThirtyTwoBitRegisterResult :
    ready32.mode = .protected32 ∧ ready32.ReadyVex ∧ ready32.ReadyEvex ∧ ready32.pc.toNat + regForm.size < 2 ^ 32 ∧
      ready32.pc.toNat + evexRegForm.size < 2 ^ 32 ∧
      fma32 ready32.cfg.switches (.ofMxcsr ready32.mxcsr) (ready32.low 0#5) (ready32.low 2#5) (ready32.low 1#5) =
        .done 0x41500000#32 {} ∧
      ({ evexRegForm with b := true, ll := 2#2 } : EvexForm).legal = true ∧
      (let f := { evexRegForm with aaa := 1#3, z := true }
       f.legal = true ∧ f.aaa ≠ 0#3 ∧ ready32.maskBit f.aaa = false) ∧
      evexMemForm.legal = true ∧ evexMemForm.aaa = 0#3 := by
  unfold State.ReadyVex State.ReadyEvex
  decide +kernel

/-- UnmaskedConditionFaults with a readable memory operand (S16, S17): an SNaN at [RDI]. -/
theorem witness_UnmaskedConditionFaults_memory :
    let s := (withMxcsr 0#32).setMem (ready.mem.writeBytes 0x2000#64 (bytes [0x01, 0x00, 0x80, 0x7F]))
    let la := linearAddress s false [] false false memForm.size (.base 7#3 .none)
    s.OperandReadable la ∧ s.mem.read32 la = 0x7F800001#32 ∧
      linearAddress s true [] false false evexMemForm.size (.base 7#3 .none) = la ∧
      fma32 s.cfg.switches (.ofMxcsr s.mxcsr) (s.low 0#5) 0x7F800001#32 (s.low 1#5) = .stopped { ie := true } ∧
      fma32 s.cfg.switches (.ofMxcsr s.mxcsr) (s.low 1#5) (s.low 0#5) 0x7F800001#32 = .stopped { ie := true } ∧
      fma32 s.cfg.switches (.ofMxcsr s.mxcsr) (s.low 1#5) 0x7F800001#32 (s.low 0#5) = .stopped { ie := true } :=
  ⟨operandReadable_of_all (by decide +kernel), by decide +kernel⟩

/-- UnmaskedConditionFaults: an SNaN as the first factor with every exception unmasked, in each operand order. -/
theorem witness_UnmaskedConditionFaults :
    let s : State := { withMxcsr 0#32 with v := ready.v.set 0 (marked 0x7F800001#32) }
    s.is64 = true ∧ s.ReadyVex ∧ s.ReadyEvex ∧ evexRegForm.legal = true ∧
      fma32 s.cfg.switches (.ofMxcsr s.mxcsr) (s.low 0#5) (s.low 2#5) (s.low 1#5) = .stopped { ie := true } ∧
      fma32 s.cfg.switches (.ofMxcsr s.mxcsr) (s.low 1#5) (s.low 0#5) (s.low 2#5) = .stopped { ie := true } ∧
      fma32 s.cfg.switches (.ofMxcsr s.mxcsr) (s.low 1#5) (s.low 2#5) (s.low 0#5) = .stopped { ie := true } := by
  unfold State.ReadyVex State.ReadyEvex
  decide +kernel

/-- NonCanonicalOperandFaults: only the last of four bytes is not canonical, through RDI, through RBP and through RBP with FS. -/
theorem witness_NonCanonicalOperandFaults :
    let s : State := { ready with x := (ready.x.set 7 0x7FFFFFFFFFFD#64).set 5 0x7FFFFFFFFFFD#64 }
    s.is64 = true ∧ s.ReadyVex ∧ s.ReadyEvex ∧
      (operandBytes (linearAddress s false [] false false memForm.size (.base 7#3 .none))).all s.canonical = false ∧
      baseIsStack false (.base 7#3 .none) = false ∧
      (operandBytes (linearAddress s false [] false false 6 (.base 5#3 (.disp8 0#8)))).all s.canonical = false ∧
      baseIsStack false (.base 5#3 (.disp8 0#8)) = true ∧
      (operandBytes (linearAddress s false [.fs] false false 7 (.base 5#3 (.disp8 0#8)))).all s.canonical = false := by
  unfold State.ReadyVex State.ReadyEvex
  decide +kernel

/-- MisalignedOperandFaults: RFLAGS.AC and CR0.AM set at CPL 3, an operand at 2001H; an aligned one; and the check switched
off. -/
theorem witness_MisalignedOperandFaults :
    let s : State := { ready with rflags := 0x40002#64, cr0 := ready.cr0 ||| 0x40000#64, x := ready.x.set 7 0x2001#64 }
    let la := linearAddress s false [] false false memForm.size (.base 7#3 .none)
    s.is64 = true ∧ s.ReadyVex ∧ s.ReadyEvex ∧ la.toNat % 4 ≠ 0 ∧ s.cr0.getLsbD 18 = true ∧ s.rflags.getLsbD 18 = true ∧
      s.cpl = 3#2 ∧ (operandBytes la).all s.canonical = true ∧ s.NoReadFault la ∧
      linearAddress ready false [] false false memForm.size (.base 7#3 .none) = 0x2000#64 ∧ ready.rflags.getLsbD 18 = false := by
  refine ⟨by decide +kernel, ?_, ?_, by decide +kernel, by decide +kernel, by decide +kernel, by decide +kernel,
    by decide +kernel, (noReadFault_of_all (by decide +kernel)).1, by decide +kernel⟩
  · unfold State.ReadyVex
    decide +kernel
  · unfold State.ReadyEvex
    decide +kernel

/-- OperandPageFaults: one page for each reason, the supervisor page at CPL 3, and the error code of R189 that follows. -/
theorem witness_OperandPageFaults :
    [({ PageAttr.ordinary with present := false }, 4#32), ({ PageAttr.ordinary with reservedSet := true }, 13#32),
      ({ PageAttr.ordinary with keyDenied := true }, 0x25#32), ({ PageAttr.ordinary with sgxDenied := true }, 0x8005#32),
      ({ PageAttr.ordinary with user := false }, 5#32)].all (fun pc =>
        let s : State := { ready with oracle := [⟨0x2000, 4096, pc.1⟩] }
        let la := linearAddress s false [] false false memForm.size (.base 7#3 .none)
        s.is64 && la.toNat % 4 == 0 && (operandBytes la).all (fun q => s.canonical q && s.attrAt q == s.attrAt la) &&
          s.answerAt .read la == none && s.attrAt la == pc.1 && s.cpl == 3#2 &&
          s.pageFaultAt .read la == some pc.2) = true := by decide +kernel

/-- OperandPageFaults, a fault the oracle answers outright: the code is its own (1: a supervisor access by R57). -/
theorem witness_OperandPageFaults_answer :
    let s := answering ready .read 0x2000 (.fault 1#32 (some 0x2003#64))
    let la := linearAddress s false [] false false memForm.size (.base 7#3 .none)
    s.is64 = true ∧ la.toNat % 4 = 0 ∧ (operandBytes la).all s.canonical = true ∧
      s.answerAt .read la = some (.fault 1#32 (some 0x2003#64)) := by decide +kernel

/-- DeviceOperandRefused: only the last byte lies in the device page; and an answer of the oracle that refuses. -/
theorem witness_DeviceOperandRefused :
    let s : State := { ready with oracle := [devicePage 0x2000], x := ready.x.set 7 0x1FFD#64 }
    let la := linearAddress s false [] false false memForm.size (.base 7#3 .none)
    s.is64 = true ∧ s.ReadyVex ∧ (operandBytes la).all s.canonical = true ∧
      (s.alignmentChecked = true → la.toNat % 4 = 0) ∧ (s.NoReadFault la ∧ ∀ reason, s.answerAt .read la ≠ some (.refuse reason)) ∧
      ((operandBytes la).any fun q => (s.attrAt q).device) = true ∧
      (answering ready .read 0x2000 (.refuse "no answer")).answerAt .read 0x2000#64 = some (.refuse "no answer") := by
  refine ⟨by decide +kernel, ?_, by decide +kernel, by decide +kernel, noReadFault_of_all (by decide +kernel), by decide +kernel⟩
  unfold State.ReadyVex
  decide +kernel

/-- ExceptionsArePrecise and the second case of MxcsrFlagsAreSticky: a SIMD floating-point fault and a page fault. -/
theorem witness_ExceptionsArePrecise :
    (let s : State := { withMxcsr 0#32 with v := ready.v.set 0 (marked 0x7F800001#32) }
     faulted s (exec (.vfmadd132ssVex regForm) s) = some (.xm, 1#32, true)) ∧
    (let s : State := { ready with oracle := [absentPage 0x2000] }
     faulted s (exec (.vfmadd132ssVex memForm) s) = some (.pf 4#32 0x2000#64, 0x1F80#32, true)) := by decide +kernel

/-- StepKeepsLaunchPremises and StepKeepsFixedState: a state that meets the invariant and takes a step. -/
theorem witness_StepKeepsLaunchPremises :
    let s := placed ready [0xC4, 0xE2, 0x71, 0x99, 0xC2]
    s.wf = true ∧ (seen 0#5 (step s)).isSome = true := by decide +kernel

/-- OnlyTheDestinationChanges, ProgramCounterAdvances and the first case of MxcsrFlagsAreSticky: instructions that complete in
64-bit mode, at the last address that PC + L may reach, and in 32-bit mode. -/
theorem witness_ProgramCounterAdvances :
    (seen 0#5 (exec (.vfmadd132ssVex regForm) { ready with pc := 0x7FFFFFFFFFFA#64 })).isSome = true ∧
      (seen 0#5 (exec (.vfmadd132ssVex regForm) { ready with pc := 0x7FFFFFFFFFFB#64 })).isSome = false ∧
      (seen 0#5 (exec (.vfmadd132ssVex regForm) { ready32 with pc := 0xFFFFFFFA#64 })).isSome = true ∧
      (seen 0#5 (exec (.vfmadd132ssVex regForm) { ready32 with pc := 0xFFFFFFFB#64 })).isSome = false := by decide +kernel

/-- PrivilegeLevelDoesNotMatter: an instruction that completes, a page fault of a page and one of the oracle's own, and a
refusal. -/
theorem witness_PrivilegeLevelDoesNotMatter :
    let absent : State := { ready with oracle := [absentPage 0x2000] }
    let own := answering ready .read 0x2000 (.fault 1#32 none)
    let device : State := { ready with oracle := [devicePage 0x2000] }
    ready.rflags.getLsbD 18 = false ∧ (absent.oracle ++ device.oracle).all (fun r => r.attr.user) = true ∧
      own.answers.all (fun e => e.cpls == 15#4) = true ∧
      (seen 0#5 (exec (.vfmadd132ssVex regForm) ready)).isSome = true ∧
      (faulted absent (exec (.vfmadd132ssVex memForm) absent)).isSome = true ∧
      (faulted own (exec (.vfmadd132ssVex memForm) own)).isSome = true ∧
      refusal (exec (.vfmadd132ssVex memForm) device) = some .deviceMemory := by decide +kernel

/-- OnlyNamedRegistersAreRead: other upper bits and another register differ. -/
theorem witness_OnlyNamedRegistersAreRead :
    let w := (ready.v.set 5 (marked 7#32)).set 0 ((0x111111112222222233333333#96 ++ 0x40000000#32).setWidth 512)
    let u : State := { ready with v := w }
    w ≠ ready.v ∧ (u.vreg 0#5).extractLsb' 0 128 = (ready.vreg 0#5).extractLsb' 0 128 ∧ u.low 1#5 = ready.low 1#5 ∧
      u.low 2#5 = ready.low 2#5 ∧ thirdRegister (.vfmadd132ssVex regForm) = some 2#5 ∧
      (seen 0#5 (exec (.vfmadd132ssVex regForm) ready)).isSome = true := by decide +kernel

/-- EffectiveAddresses, in both modes; with and without 67H. -/
theorem witness_EffectiveAddresses : ready.is64 = true ∧ ready32.is64 = false ∧ ready32.mode = .protected32 ∧
    LegacyByte.addrSize ∈ [LegacyByte.fs, .addrSize] ∧ LegacyByte.addrSize ∉ [LegacyByte.fs] := by decide +kernel

/-- LastSegmentOverrideCounts: what may follow the last override. -/
theorem witness_LastSegmentOverrideCounts : ∀ p ∈ [LegacyByte.addrSize, .ds], p ≠ .fs ∧ p ≠ .gs := by decide

/-- NanOperandResult: a signalling and a quiet NaN, in each place. -/
theorem witness_NanOperandResult : isSNaN 0x7F800001#32 = true ∧ isNaN 0x7FC00000#32 = true ∧ isSNaN 0x7FC00000#32 = false ∧
    isNaN 0xFFFFFFFF#32 = true ∧ isSNaN 0x3F800000#32 = false := by decide

/-- InvalidOperationResult, each cause; a denormal counts as zero under DAZ. -/
theorem witness_InvalidOperationResult :
    anyNaN 0x7F800000#32 0x80000000#32 0x3F800000#32 = false ∧ isInf 0x7F800000#32 = true ∧ isZero 0x80000000#32 = true ∧
      isDen 0x007FFFFF#32 = true ∧ isInf 0xFF800000#32 = true ∧
      signOf 0xFF800000#32 ≠ (signOf 0x7F800000#32 != signOf 0x3F800000#32) := by decide

/-- DenormalOperandFlag: the smallest and the largest denormal; masked and unmasked. -/
theorem witness_DenormalOperandFlag :
    isDen 0x00000001#32 = true ∧ isDen 0x807FFFFF#32 = true ∧ anyNaN 0x807FFFFF#32 0x3F800000#32 0x3F800000#32 = false ∧
      invalidOp 0x807FFFFF#32 0x3F800000#32 0x3F800000#32 = false ∧ (FpControl.ofMxcsr 0x1F80#32).daz = false ∧
      (FpControl.ofMxcsr 0x1F80#32).masks.dm = true ∧ (FpControl.ofMxcsr 0x1E80#32).masks.dm = false := by decide

/-- InfiniteOperandResult: an infinite factor, and an infinite addend alone, with a denormal beside it. -/
theorem witness_InfiniteOperandResult :
    anyNaN 0x7F800000#32 0x00000001#32 0x3F800000#32 = false ∧ anyDen 0x7F800000#32 0x00000001#32 0x3F800000#32 = true ∧
      invalidOp 0x7F800000#32 0x00000001#32 0x3F800000#32 = false ∧
      invalidOp 0x00000001#32 0x3F800000#32 0xFF800000#32 = false ∧ isInf 0x00000001#32 = false ∧
      isInf 0x3F800000#32 = false ∧ isInf 0xFF800000#32 = true := by decide

/-- ExactZeroResult: a cancellation, and zeros of equal and of different signs. -/
theorem witness_ExactZeroResult :
    exactFma 0x3F800000#32 0x3F800000#32 0xBF800000#32 = 0 ∧ exactFma 0x80000000#32 0x3F800000#32 0x80000000#32 = 0 ∧
      exactFma 0x00000000#32 0x3F800000#32 0x80000000#32 = 0 := by decide +kernel

/-- RoundingToAUnit: below, at and above the middle of a unit, and an exact multiple. -/
theorem witness_RoundingToAUnit : 9 % 2 ^ 2 = 1 ∧ 2 * (9 % 2 ^ 2) < 2 ^ 2 ∧ 2 * (10 % 2 ^ 2) = 2 ^ 2 ∧
    2 ^ 2 < 2 * (11 % 2 ^ 2) ∧ 12 % 2 ^ 2 = 0 := by decide

/-- NormalResultIsRoundedOnce: AV13, and the least normal magnitude from both sides. -/
theorem witness_NormalResultIsRoundedOnce :
    (let v := exactFma 0x3F800000#32 0x3F800001#32 0x33800000#32
     2 ^ 172 ≤ round24 .rne (decide (v < 0)) v.natAbs ∧ round24 .rne (decide (v < 0)) v.natAbs < 2 ^ 426) ∧
    (let v := exactFma 0x00800000#32 0x3F800000#32 0x00000000#32
     round24 .rne (decide (v < 0)) v.natAbs = 2 ^ 172) ∧
    (FpControl.ofMxcsr 0x1F80#32).daz = false ∧ Switches.ofSpec.tininess = .afterRounding := by decide +kernel

/-- OverflowResult: the rounded magnitude is 2^128 itself (AV34). -/
theorem witness_OverflowResult :
    (let v := exactFma 0x7F7FFFFF#32 0x3F800000#32 0x73000000#32
     round24 .rne (decide (v < 0)) v.natAbs = 2 ^ 426) ∧ Switches.ofSpec.peWithUnmaskedOu = false := by decide +kernel

/-- TinyResult: half of the least normal number (exact), and its product with 1 - 2^-24 (inexact); with FTZ, with UM clear and
with PM clear. -/
theorem witness_TinyResult :
    (let v := exactFma 0x00800000#32 0x3F000000#32 0x00000000#32
     v ≠ 0 ∧ round24 .rne (decide (v < 0)) v.natAbs < 2 ^ 172 ∧ roundDenormal .rne (decide (v < 0)) v.natAbs = v.natAbs) ∧
    (let v := exactFma 0x00800001#32 0x3F000000#32 0x00000000#32
     round24 .rne (decide (v < 0)) v.natAbs < 2 ^ 172 ∧ roundDenormal .rne (decide (v < 0)) v.natAbs ≠ v.natAbs) ∧
    (FpControl.ofMxcsr 0x1780#32).masks.um = false ∧ (FpControl.ofMxcsr 0x9F80#32).ftz = true ∧
    (let c := FpControl.ofMxcsr 0x0F80#32
     c.masks.pm = false ∧ c.masks.um = true ∧ c.ftz = false) := by decide +kernel

/-- FlagCombinations: an overflow that is delivered and one that is not. -/
theorem witness_FlagCombinations :
    fmaOf 0x1F80#32 0x7F7FFFFF#32 0x40000000#32 0x00000000#32 = (some 0x7F800000#32, 0x28#6) ∧
      fmaOf 0x1B80#32 0x7F7FFFFF#32 0x40000000#32 0x00000000#32 = (none, 0x08#6) := by decide +kernel

/-- FactorsCommute: one NaN among the factors. -/
theorem witness_FactorsCommute : ¬ (isNaN 0x7FC00000#32 = true ∧ isNaN 0x3F800000#32 = true) := by decide

/-- NegationMirrorsTheResult: an infinite operand, and a finite sum other than zero. -/
theorem witness_NegationMirrorsTheResult :
    anyNaN 0x7F800000#32 0x3F800000#32 0x3F800000#32 = false ∧ invalidOp 0x7F800000#32 0x3F800000#32 0x3F800000#32 = false ∧
      exactFma 0x3F800000#32 0x3F800000#32 0x33000000#32 ≠ 0 := by decide +kernel

/-- NanResultsComeFromNansOrInvalid: an operation with a result. -/
theorem witness_NanResultsComeFromNansOrInvalid :
    fmaOf 0x1F80#32 0x7F800000#32 0x00000000#32 0x3F800000#32 = (some 0xFFC00000#32, 1#6) ∧
      fmaOf 0x1F80#32 0x40000000#32 0x40A00000#32 0x40400000#32 = (some 0x41500000#32, 0#6) := by decide +kernel

/-- ProductAndSumAreSpecialCases: a zero product without DAZ. -/
theorem witness_ProductAndSumAreSpecialCases : isNaN 0x80000000#32 = false ∧ isInf 0x3F800000#32 = false ∧
    isZero 0x80000000#32 = true ∧ isDen 0x80000000#32 = false ∧ (FpControl.ofMxcsr 0x1F80#32).daz = false := by decide

end Sys2Proof.Tests
end

section
/-! PROOFS. What an available form with an active memory operand answers when the read of that operand is stopped, and the
canonical check of R56. -/

namespace Sys2Proof.Machine

/-! ### A form whose operand 3 is stopped -/

/-- The six arms of `exec`, three at a time: a VEX form runs R110 in the operand order of its opcode. -/
theorem exec_ofVex (o : Opcode) (f : VexForm) (s : State) : exec (.ofVex o f) s = runVex o f s := by
  cases o <;> rfl

/-- An EVEX form runs R120 in the operand order of its opcode. -/
theorem exec_ofEvex (o : Opcode) (f : EvexForm) (s : State) : exec (.ofEvex o f) s = runEvex o f s := by
  cases o <;> rfl

@[simp] theorem size_ofVex (o : Opcode) (f : VexForm) : (Instr.ofVex o f).size = f.size := by
  cases o <;> rfl

@[simp] theorem size_ofEvex (o : Opcode) (f : EvexForm) : (Instr.ofEvex o f).size = f.size := by
  cases o <;> rfl

/-- The element is active without a writemask or with bit 0 of the opmask register set (R120 step 2). -/
theorem State.isActive_iff (s : State) (f : EvexForm) :
    s.isActive f = true ↔ f.aaa = 0#3 ∨ s.maskBit f.aaa = true := by
  simp [State.isActive]

/-- What stops operand 3 of an available VEX form is the outcome of the form. -/
theorem runVex_of_stop {op : Opcode} {f : VexForm} {s : State} {st : Stop} (hready : s.ReadyVex)
    (hstop : readOperand3 s false f.legacy f.size f.op3 = .error st) : runVex op f s = st.outcome s := by
  obtain ⟨husable, hts⟩ := hready
  simp [runVex, husable, hts, hstop]

/-- What stops operand 3 of an available EVEX form with an active element is the outcome of the form. -/
theorem runEvex_of_stop {op : Opcode} {f : EvexForm} {s : State} {st : Stop} (hready : s.ReadyEvex)
    (hlegal : f.legal = true) (hactive : s.isActive f = true)
    (hstop : readOperand3 s true f.legacy f.size f.op3 = .error st) : runEvex op f s = st.outcome s := by
  obtain ⟨husable, hts⟩ := hready
  simp [runEvex, husable, hts, hlegal, hactive, hstop]

/-- `i` is an available form with the memory operand `x`, `b`, `a` and the legacy bytes `legacy`, and its element is active: the
hypothesis that the statements about memory operands share. -/
def AccessesMemory (s : State) (o : Opcode) (x b : Bool) (a : Addr) (evex : Bool) (i : Instr)
    (legacy : List LegacyByte) : Prop :=
  (evex = false ∧ s.ReadyVex ∧ ∃ f : VexForm, i = .ofVex o f ∧ f.op3 = .mem x b a ∧ f.legacy = legacy) ∨
    (evex = true ∧ s.ReadyEvex ∧ ∃ f : EvexForm, i = .ofEvex o f ∧ f.op3 = .mem x b a ∧ f.legacy = legacy ∧
      f.legal = true ∧ (f.aaa = 0#3 ∨ s.maskBit f.aaa = true))

/-- What stops the read of an accessed memory operand is the outcome of the instruction, in the VEX and the EVEX encoding. -/
theorem AccessesMemory.exec_of_stop {s : State} {o : Opcode} {x b : Bool} {a : Addr} {evex : Bool} {i : Instr}
    {legacy : List LegacyByte} {st : Stop} (h : AccessesMemory s o x b a evex i legacy)
    (hstop : readOperand3 s evex legacy i.size (.mem x b a) = .error st) : exec i s = st.outcome s := by
  rcases h with ⟨rfl, hready, f, rfl, hop3, rfl⟩ | ⟨rfl, hready, f, rfl, hop3, rfl, hlegal, hactive⟩
  · rw [size_ofVex, ← hop3] at hstop
    rw [exec_ofVex, runVex_of_stop hready hstop]
  · rw [size_ofEvex, ← hop3] at hstop
    rw [exec_ofEvex, runEvex_of_stop hready hlegal ((s.isActive_iff f).2 hactive) hstop]

/-! ### The segment and the canonical check (R56, R83) -/

/-- FS or GS overrides exactly when its byte is among the legacy bytes. -/
theorem hasOverride_iff (legacy : List LegacyByte) : hasOverride legacy = true ↔ .fs ∈ legacy ∨ .gs ∈ legacy := by
  simp [hasOverride]

/-- With no legacy byte but 67H the base register alone decides whether the access uses SS. -/
theorem usesStack_of_only_addrSize {legacy : List LegacyByte} (h : ∀ p ∈ legacy, p = .addrSize) (b : Bool) (a : Addr) :
    usesStack legacy b a = baseIsStack b a := by
  have hnone : hasOverride legacy = false := by
    rw [← Bool.not_eq_true, hasOverride_iff]
    rintro (hfs | hgs)
    · cases h _ hfs
    · cases h _ hgs
  simp [usesStack, hnone]

/-- FS, GS or a base register other than RSP and RBP takes the access out of SS. -/
theorem usesStack_eq_false {legacy : List LegacyByte} {b : Bool} {a : Addr}
    (h : .fs ∈ legacy ∨ .gs ∈ legacy ∨ baseIsStack b a = false) : usesStack legacy b a = false := by
  rw [← or_assoc, ← hasOverride_iff] at h
  rcases h with hover | hbase
  · simp [usesStack, hover]
  · simp [usesStack, hbase]

/-- One byte is enough to make the operand not canonical. -/
theorem State.operandCanonical_eq_false {s : State} {la : Word64} (h : ∃ q ∈ operandBytes la, s.canonical q = false) :
    s.operandCanonical la = false := by
  simpa [State.operandCanonical, List.all_eq_false] using h

/-- The canonical check comes first: the access below it is not looked at. -/
theorem memRead_nonCanonical {s : State} {la : Word64} (h : ∃ q ∈ operandBytes la, s.canonical q = false) (stack : Bool) :
    memRead s stack la = .error (.raises (if stack then .ss else .gp)) := by
  simp [memRead, State.operandCanonical_eq_false h]

/-- A non-canonical operand of an instruction raises #SS(0) where the access uses SS, #GP(0) elsewhere, and the state at the
fault is the state before. -/
theorem AccessesMemory.exec_nonCanonical {s : State} {o : Opcode} {x b : Bool} {a : Addr} {evex : Bool} {i : Instr}
    {legacy : List LegacyByte} (h : AccessesMemory s o x b a evex i legacy) (h64 : s.is64 = true)
    (hbad : ∃ q ∈ operandBytes (linearAddress s evex legacy x b i.size a), s.canonical q = false) :
    exec i s = .fault (.exception (if usesStack legacy b a then .ss else .gp) s) := by
  have hstop : readOperand3 s evex legacy i.size (.mem x b a) =
      .error (.raises (if usesStack legacy b a then .ss else .gp)) := by
    rw [readOperand3, if_pos h64, memRead_nonCanonical hbad]
  rw [h.exec_of_stop hstop]
  cases usesStack legacy b a <;> rfl

/-- Settles O29: the stop of the canonical check is the outcome, and the legacy bytes and the base register say whether it is
#SS(0) or #GP(0). -/
theorem nonCanonicalOperandFaults : Obligations.NonCanonicalOperandFaults := by
  unfold Obligations.NonCanonicalOperandFaults
  intro s o x b a evex i legacy haccess h64 hbad
  have hexec := AccessesMemory.exec_nonCanonical haccess h64 hbad
  refine ⟨fun honly hstack => ?_, fun hother => ?_, rfl, rfl⟩
  · rw [hexec, usesStack_of_only_addrSize honly, hstack, if_pos rfl]
  · rw [hexec, usesStack_eq_false hother, if_neg Bool.false_ne_true]

end Sys2Proof.Machine
end

section
/-! PROOFS. What the decoder answers for the bytes of an EVEX form that a check of step 6 of R87 rejects, and the reserved bits of
R91. -/

namespace Sys2Proof

/-! ### Bytes that agree under a mask -/

/-- Two words that agree under a mask agree in every bit that the mask keeps. -/
theorem getLsbD_eq_of_and_eq {n : Nat} {p q mask : BitVec n} (h : p &&& mask = q &&& mask) {i : Nat}
    (hmask : mask.getLsbD i = true) : p.getLsbD i = q.getLsbD i := by
  have hbit := congrArg (·.getLsbD i) h
  simpa [BitVec.getLsbD_and, hmask] using hbit

/-- Two words that agree under a mask agree in every field that the mask keeps. -/
theorem extractLsb'_eq_of_and_eq {n : Nat} {p q mask : BitVec n} (h : p &&& mask = q &&& mask) {start len : Nat}
    (hmask : mask.extractLsb' start len = BitVec.allOnes len) : p.extractLsb' start len = q.extractLsb' start len := by
  have hfield := congrArg (·.extractLsb' start len) h
  simpa [BitVec.extractLsb'_and, hmask] using hfield

/-! ### P0 and P1 with the reserved bits left free (R78, R91) -/

/-- P0 and P1 are those of the EVEX form `f`, but for the reserved bits: bit 3 of P0 and bit 2 of P1. -/
structure EvexForm.FixedFields (f : EvexForm) (p0 p1 : Byte) : Prop where
  p0_eq : p0 &&& 0xF7#8 = f.p0 &&& 0xF7#8
  p1_eq : p1 &&& 0xFB#8 = f.p1 &&& 0xFB#8

/-- Step 3 of R87 does not look at the reserved bits. -/
theorem EvexForm.FixedFields.evexMismatch_eq_none {f : EvexForm} {p0 p1 : Byte} (h : f.FixedFields p0 p1) :
    evexMismatch p0 p1 = none := by
  obtain ⟨hmap, -⟩ := f.p0_fields
  obtain ⟨hw, hpp, -⟩ := f.p1_fields
  have hmap' : p0.extractLsb' 0 3 = 2#3 := (extractLsb'_eq_of_and_eq h.p0_eq (by decide)).trans hmap
  have hw' : p1.extractLsb' 7 1 = 0#1 := (extractLsb'_eq_of_and_eq h.p1_eq (by decide)).trans hw
  have hpp' : p1.extractLsb' 0 2 = 1#2 := (extractLsb'_eq_of_and_eq h.p1_eq (by decide)).trans hpp
  simp [evexMismatch, hmap', hw', hpp']

theorem EvexForm.FixedFields.x_eq {f : EvexForm} {p0 p1 : Byte} (h : f.FixedFields p0 p1) :
    (!p0.getLsbD 6) = f.op3.x := by
  obtain ⟨-, -, hx, -⟩ := f.p0_fields
  rw [getLsbD_eq_of_and_eq h.p0_eq (by decide), hx]

theorem EvexForm.FixedFields.b_eq {f : EvexForm} {p0 p1 : Byte} (h : f.FixedFields p0 p1) :
    (!p0.getLsbD 5) = f.op3.b := by
  obtain ⟨-, -, -, hb, -⟩ := f.p0_fields
  rw [getLsbD_eq_of_and_eq h.p0_eq (by decide), hb]

/-! ### The bytes of a form, rejected by the last checks -/

/-- In 64-bit mode the decoder reads the opcode, ModRM and what follows back from their bytes. -/
theorem takeOpcode_bytes (legacy : List LegacyByte) (o : Opcode) (reg : BitVec 3) (op3 : Operand3) (rest : List Byte)
    (hwf : op3.wf = true) :
    takeOpcode .long64 legacy op3.x op3.b (o.toByte :: (modRMBytes reg op3 ++ rest)) = .ok (o, reg, op3, rest) := by
  simp [takeOpcode, uses16BitTable, takeModRM_bytes reg op3 rest hwf]

/-- Where the fixed fields of P0 and P1 are right and the rest is read, what the last checks find is the answer. -/
theorem decodeEvex_of_checks {m : CodeMode} {legacy : List LegacyByte} {bad : Bool} {p0 p1 p2 : Byte} {bs rest : List Byte}
    {o : Opcode} {reg : BitVec 3} {op3 : Operand3} {e : DecodeError} (hfixed : evexMismatch p0 p1 = none)
    (hop : takeOpcode m legacy (!p0.getLsbD 6) (!p0.getLsbD 5) bs = .ok (o, reg, op3, rest))
    (hchecks : evexChecks bad p0 p1 (evexFormOf legacy p0 p1 p2 reg op3) = some e) :
    decodeEvex m legacy bad p0 (p1 :: p2 :: bs) = .error e := by
  simp only [decodeEvex, hfixed, hop, hchecks]

/-- In 64-bit mode legacy bytes of R83 and then 62H lead to the EVEX decoder, with nothing found that R92 forbids. -/
theorem decode_legacy_then_evex (legacy : List LegacyByte) (p0 : Byte) (bs : List Byte) :
    decode .long64 (legacy.map LegacyByte.toByte ++ 0x62#8 :: p0 :: bs) = decodeEvex .long64 legacy false p0 bs := by
  have hclean : (PrefixCheck.clean == PrefixCheck.forbidden) = false := rfl
  simp [decode, takeLegacy_map _ legacy 0x62#8 (p0 :: bs) (by decide), isVexOrEvex, isLesOrBound, hclean]

/-- The size of a form does not depend on P0, P1 and P2. -/
theorem evexFormOf_size (f : EvexForm) (p0 p1 p2 : Byte) (reg : BitVec 3) :
    (evexFormOf f.legacy p0 p1 p2 reg f.op3).size = f.size := rfl

/-- A form that is not too long and has no byte of R92 before it is rejected for a wrong reserved bit (R91), before R84 and R85 are
looked at. -/
theorem evexChecks_reservedBit {p0 p1 : Byte} {f : EvexForm} (hsize : f.size ≤ 15)
    (hbit : p0.getLsbD 3 = true ∨ p1.getLsbD 2 = false) : evexChecks false p0 p1 f = some .reservedBit := by
  have hwrong : (p0.getLsbD 3 || !p1.getLsbD 2) = true := by simpa using hbit
  simp only [evexChecks, if_neg hsize.not_gt, if_pos hwrong, Bool.false_eq_true, if_false]

/-- The bytes of an EVEX form with a wrong reserved bit are rejected for that bit. -/
theorem decode_reservedBit {f : EvexForm} (o : Opcode) {p0 p1 : Byte} (p2 : Byte) (reg : BitVec 3)
    (hwf : f.op3.wf = true) (hsize : f.size ≤ 15) (hfixed : f.FixedFields p0 p1)
    (hbit : p0.getLsbD 3 = true ∨ p1.getLsbD 2 = false) :
    decode .long64 (f.legacy.map LegacyByte.toByte ++ 0x62#8 :: p0 :: p1 :: p2 :: o.toByte :: modRMBytes reg f.op3) =
      .error .reservedBit := by
  have hop : takeOpcode .long64 f.legacy (!p0.getLsbD 6) (!p0.getLsbD 5) (o.toByte :: modRMBytes reg f.op3) =
      .ok (o, reg, f.op3, []) := by
    rw [hfixed.x_eq, hfixed.b_eq]
    simpa using takeOpcode_bytes f.legacy o reg f.op3 [] hwf
  have hsize' : (evexFormOf f.legacy p0 p1 p2 reg f.op3).size ≤ 15 := (evexFormOf_size f p0 p1 p2 reg).trans_le hsize
  rw [decode_legacy_then_evex]
  exact decodeEvex_of_checks hfixed.evexMismatch_eq_none hop (evexChecks_reservedBit hsize' hbit)

namespace Machine

/-- Settles O6: the bytes are fetched whole, the decoder rejects them for the reserved bit, and that stop raises #UD without a
change of the state. -/
theorem reservedEvexBitRaisesUD : Obligations.ReservedEvexBitRaisesUD := by
  unfold Obligations.ReservedEvexBitRaisesUD
  intro s o f p0 p1 h64 hwf _ hp0 hp1 hbit hfetch
  obtain ⟨⟨hop3, -⟩, hsize⟩ : (f.op3.wf = true ∧ f.legal = true) ∧ f.size ≤ 15 := by simpa [EvexForm.wf] using hwf
  have hdecode := decode_reservedBit o f.p2 (f.dst.extractLsb' 0 3) hop3 hsize ⟨hp0, hp1⟩ hbit
  rw [← State.codeMode_long h64] at hdecode
  have hlength : (f.legacy.map LegacyByte.toByte ++
      0x62#8 :: p0 :: p1 :: f.p2 :: o.toByte :: modRMBytes (f.dst.extractLsb' 0 3) f.op3).length ≤ 15 := by
    simpa [encodeEvex] using (encodeEvex_length o.toByte f).trans_le hsize
  obtain ⟨stop, hstop⟩ := fetchInstr_of_error hlength hfetch hdecode (by decide)
  rw [step_of_fetch_error hstop]
  rfl

end Machine

end Sys2Proof
end

section
/-! PROOFS. The writemask of the EVEX forms: what a masked-off element does (R126), and that the mask test reads bit 0 of the
opmask register and nothing else (R122). -/

namespace Sys2Proof.Machine

/-! ### The masked-off element (R120 step 3, R126) -/

/-- Bits 31:0 of the destination `n` of a masked-off element: cleared by zeroing, kept by merging. -/
def maskedOffLow (f : EvexForm) (n : BitVec 5) (s : State) : Single := if f.z then 0#32 else s.low n

theorem State.isActive_eq_false {s : State} {f : EvexForm} (haaa : f.aaa ≠ 0#3) (hbit : s.maskBit f.aaa = false) :
    s.isActive f = false := by
  simp [State.isActive, haaa, hbit]

/-- A masked-off element ends as an operation without flags and without a read event. -/
theorem finishMaskedOff_eq_advance (f : EvexForm) (n : BitVec 5) (s : State) :
    finishMaskedOff f n s = advance f.size (((s.orFlags {}).noteRead none).writeLow n (maskedOffLow f n s)) := by
  rw [State.orFlags_none, State.noteRead_none, finishMaskedOff, EvexForm.length_eq_size, maskedOffLow]

/-- In 64-bit mode, with the next address in range, a masked-off element completes. -/
theorem finishMaskedOff_done {f : EvexForm} {s : State} (h64 : s.is64 = true) (hp : s.PcFits f.size) (n : BitVec 5) :
    finishMaskedOff f n s = .next (s.completed n (maskedOffLow f n s) {} none f.size) := by
  obtain ⟨hlt, hcanonical⟩ := hp
  rw [finishMaskedOff_eq_advance, advance_completedAt, advance_long h64 hlt hcanonical]
  rfl

/-- In every mode, what a masked-off element that completes has done, the new program counter left open. -/
theorem finishMaskedOff_completedAt {f : EvexForm} {n : BitVec 5} {s t : State} (h : finishMaskedOff f n s = .next t) :
    ∃ a, t = completedAt s n (maskedOffLow f n s) {} none a := by
  rw [finishMaskedOff_eq_advance] at h
  obtain ⟨a, ht, -⟩ := advance_completedAt_next h
  exact ⟨a, ht⟩

/-- An available legal form whose element is masked off does not come to its operand 3. -/
theorem runEvex_of_maskedOff {op : Opcode} {f : EvexForm} {s : State} (hready : s.ReadyEvex) (hlegal : f.legal = true)
    (hoff : s.isActive f = false) : runEvex op f s = finishMaskedOff f (s.regNumber f.dst) s := by
  obtain ⟨husable, hts⟩ := hready
  simp [runEvex, husable, hts, hlegal, hoff]

/-- Settles O22: each of the three forms is masked off before operand 3 is looked at, and the masked-off element completes. -/
theorem maskedOffResult : Obligations.MaskedOffResult := by
  unfold Obligations.MaskedOffResult
  intro f s hlegal haaa hbit h64 hready hpc t
  have hexec (o : Opcode) : exec (.ofEvex o f) s = .next t := by
    rw [exec_ofEvex, runEvex_of_maskedOff hready hlegal (State.isActive_eq_false haaa hbit), State.regNumber_long h64,
      finishMaskedOff_done h64 hpc]
    rfl
  exact ⟨hexec .op132, hexec .op213, hexec .op231⟩

/-! ### What a form answers with the element active or masked off (R122) -/

/-- An EVEX form that completes has passed the checks of #UD and #NM. -/
theorem ready_of_runEvex_next {op : Opcode} {f : EvexForm} {s t : State} (h : runEvex op f s = .next t) : s.ReadyEvex := by
  unfold runEvex at h
  split at h
  · cases h
  next hud =>
    split at h
    · cases h
    next hnm =>
      simp only [Bool.or_eq_true, Bool.not_eq_true', not_or, Bool.not_eq_false] at hud
      exact ⟨hud.2, by simpa using hnm⟩

@[simp] theorem completedAt_low_same (s : State) (n : BitVec 5) (low : Single) (fl : FpFlags) (event : Option ReadEvent)
    (a : Word64) : (completedAt s n low fl event a).low n = low := by
  rw [State.low, completedAt_vreg_same, mergeLow_low]

/-- What is seen of a masked-off element that has completed: the low bits of the destination, MXCSR and the reads. -/
theorem runEvex_maskedOff_next {op : Opcode} {f : EvexForm} {s t : State} (hlegal : f.legal = true)
    (hoff : s.isActive f = false) (h : runEvex op f s = .next t) :
    t.low (s.regNumber f.dst) = maskedOffLow f (s.regNumber f.dst) s ∧ t.mxcsr = s.mxcsr ∧ t.reads = s.reads := by
  rw [runEvex_of_maskedOff (ready_of_runEvex_next h) hlegal hoff] at h
  obtain ⟨a, rfl⟩ := finishMaskedOff_completedAt h
  simp

/-- The form without its writemask; zeroing goes with it, since it is legal only with a writemask (R85). -/
def withoutMask (f : EvexForm) : EvexForm := { f with aaa := 0#3, z := false }

theorem withoutMask_legal {f : EvexForm} (h : f.legal = true) : (withoutMask f).legal = true := by
  simp only [EvexForm.legal, Bool.and_eq_true] at h
  obtain ⟨hcontrol, -⟩ := h
  simp only [EvexForm.legal, withoutMask, Bool.false_and, Bool.not_false, Bool.and_true]
  exact hcontrol

/-- With the element active the writemask is not looked at again: after the mask test R120 reads neither `aaa` nor `z`. -/
theorem runEvex_withoutMask {op : Opcode} {f : EvexForm} {s : State} (hlegal : f.legal = true)
    (hactive : s.isActive f = true) : runEvex op (withoutMask f) s = runEvex op f s := by
  have hactive' : s.isActive (withoutMask f) = true := (s.isActive_iff _).2 (.inl rfl)
  simp only [runEvex, hlegal, withoutMask_legal hlegal, hactive, hactive', EvexForm.length_eq_size]
  rfl

/-! ### The bits of the opmask registers that are not read (R122) -/

/-- The state with other opmask registers. -/
def State.setK (s : State) (k : Vector Word64 8) : State := { s with k := k }

/-- An outcome with other opmask registers in the state that it carries. -/
def resultSetK (k : Vector Word64 8) : Result → Result
  | .next t => .next (t.setK k)
  | .fault (.exception e t) => .fault (.exception e (t.setK k))
  | .refused r => .refused r

/-- The opmask registers of the state and `k` have the same bits 0. -/
def State.SameMaskBits (s : State) (k : Vector Word64 8) : Prop :=
  ∀ n, (k.get n).getLsbD 0 = (s.k.get n).getLsbD 0

theorem State.isActive_setK {s : State} {k : Vector Word64 8} (h : s.SameMaskBits k) (f : EvexForm) :
    (s.setK k).isActive f = s.isActive f := by
  have hbit : (s.setK k).maskBit f.aaa = s.maskBit f.aaa := h _
  rw [State.isActive, State.isActive, hbit]

/-- Operand 3, its address and its access do not depend on the opmask registers. -/
theorem readOperand3_setK (s : State) (k : Vector Word64 8) (evex : Bool) (legacy : List LegacyByte) (len : Nat)
    (o : Operand3) : readOperand3 (s.setK k) evex legacy len o = readOperand3 s evex legacy len o := by
  cases o <;> rfl

theorem raise_setK (e : Exception) (s : State) (k : Vector Word64 8) : raise e (s.setK k) = resultSetK k (raise e s) := by
  cases e <;> rfl

theorem Stop.outcome_setK (st : Stop) (s : State) (k : Vector Word64 8) :
    st.outcome (s.setK k) = resultSetK k (st.outcome s) := by
  cases st with
  | raises e => exact raise_setK e s k
  | refuses r => rfl

theorem advance_setK (len : Nat) (s : State) (k : Vector Word64 8) :
    advance len (s.setK k) = resultSetK k (advance len s) := by
  have h64 : (s.setK k).is64 = s.is64 := rfl
  have hpc : (s.setK k).pc = s.pc := rfl
  have hcanonical (a : Word64) : (s.setK k).canonical a = s.canonical a := rfl
  simp only [advance, h64, hpc, hcanonical]
  split
  · split <;> rfl
  · split <;> rfl

theorem finishMxcsr_setK (out : FmaOutcome) (event : Option ReadEvent) (n : BitVec 5) (len : Nat) (s : State)
    (k : Vector Word64 8) : finishMxcsr out event n len (s.setK k) = resultSetK k (finishMxcsr out event n len s) := by
  cases out with
  | stopped fl => exact raise_setK _ (s.orFlags fl) k
  | done res fl => exact advance_setK len (((s.orFlags fl).noteRead event).writeLow n res) k

theorem finishSae_setK (out : FmaOutcome) (event : Option ReadEvent) (n : BitVec 5) (len : Nat) (s : State)
    (k : Vector Word64 8) : finishSae out event n len (s.setK k) = resultSetK k (finishSae out event n len s) := by
  cases out with
  | stopped fl => exact raise_setK _ (s.orFlags fl) k
  | done res fl => exact advance_setK len ((s.noteRead event).writeLow n res) k

theorem finishMaskedOff_setK (f : EvexForm) (n : BitVec 5) (s : State) (k : Vector Word64 8) :
    finishMaskedOff f n (s.setK k) = resultSetK k (finishMaskedOff f n s) :=
  advance_setK f.length (s.writeLow n (maskedOffLow f n s)) k

/-- A VEX form has no writemask: its outcome does not depend on the opmask registers at all. -/
theorem runVex_setK (op : Opcode) (f : VexForm) (s : State) (k : Vector Word64 8) :
    runVex op f (s.setK k) = resultSetK k (runVex op f s) := by
  have husable : (s.setK k).vexUsable = s.vexUsable := rfl
  have hts : (s.setK k).ts = s.ts := rfl
  simp only [runVex, husable, hts, readOperand3_setK]
  split
  · exact raise_setK .ud s k
  · split
    · exact raise_setK .nm s k
    · split
      · exact Stop.outcome_setK _ s k
      · exact finishMxcsr_setK _ _ _ _ s k

/-- An EVEX form reads bit 0 of an opmask register in the mask test, and nothing else of them. -/
theorem runEvex_setK (op : Opcode) (f : EvexForm) {s : State} {k : Vector Word64 8} (h : s.SameMaskBits k) :
    runEvex op f (s.setK k) = resultSetK k (runEvex op f s) := by
  have husable : (s.setK k).evexUsable = s.evexUsable := rfl
  have hts : (s.setK k).ts = s.ts := rfl
  simp only [runEvex, husable, hts, State.isActive_setK h, readOperand3_setK]
  split
  · exact raise_setK .ud s k
  · split
    · exact raise_setK .nm s k
    · split
      · exact finishMaskedOff_setK f _ s k
      · split
        · exact Stop.outcome_setK _ s k
        · split
          · exact finishSae_setK _ _ _ _ s k
          · exact finishMxcsr_setK _ _ _ _ s k

/-- Opmask registers with the same bits 0 give every instruction the same outcome, faults and refusals included. -/
theorem exec_setK (i : Instr) {s : State} {k : Vector Word64 8} (h : s.SameMaskBits k) :
    exec i (s.setK k) = resultSetK k (exec i s) := by
  cases i with
  | vfmadd132ssVex f => exact runVex_setK .op132 f s k
  | vfmadd213ssVex f => exact runVex_setK .op213 f s k
  | vfmadd231ssVex f => exact runVex_setK .op231 f s k
  | vfmadd132ssEvex f => exact runEvex_setK .op132 f h
  | vfmadd213ssEvex f => exact runEvex_setK .op213 f h
  | vfmadd231ssEvex f => exact runEvex_setK .op231 f h

/-- Settles O23: an active element is that of the form without its writemask, a masked-off one leaves what R126 says, and the
other bits of the opmask registers are carried along unread. -/
theorem maskTestReadsBitZero : Obligations.MaskTestReadsBitZero := by
  unfold Obligations.MaskTestReadsBitZero
  refine ⟨fun f s hlegal _ hbit => ?_, fun o f s t hlegal haaa hbit hnext => ?_, fun i s t k hbits hnext => ?_⟩
  · have hexec (o : Opcode) : exec (.ofEvex o f) s = exec (.ofEvex o (withoutMask f)) s := by
      rw [exec_ofEvex, exec_ofEvex, runEvex_withoutMask hlegal ((s.isActive_iff f).2 (.inr hbit))]
    exact ⟨hexec .op132, hexec .op213, hexec .op231⟩
  · rw [exec_ofEvex] at hnext
    exact runEvex_maskedOff_next hlegal (State.isActive_eq_false haaa hbit) hnext
  · have hexec := exec_setK i (s := s) hbits
    rw [hnext] at hexec
    exact hexec

end Sys2Proof.Machine
end

section
/-! PROOFS. What DAZ does to the operands of `fma32` (R144), which flags of an operation report a denormal operand, and the
result of an infinite operand (R149). -/

namespace Sys2Proof.Machine

/-! ### DAZ on one operand (R144) -/

/-- The sign bit alone is the zero of the sign. -/
theorem and_signBit_eq_withSign (p : Single) : p &&& 0x80000000#32 = withSign (signOf p) 0#31 := by
  have hsign : signOf (p &&& 0x80000000#32) = signOf p := by simp [signOf]
  have hrest : (p &&& 0x80000000#32).extractLsb' 0 31 = 0#31 := by
    rw [BitVec.extractLsb'_and]
    exact BitVec.and_zero
  rw [← withSign_fields (p &&& 0x80000000#32), hsign, hrest]

/-- DAZ clears all bits of a denormal but its sign. -/
theorem applyDaz_on (p : Single) : applyDaz true p = if isDen p then p &&& 0x80000000#32 else p := by
  rw [and_signBit_eq_withSign]
  rfl

theorem applyDaz_of_isDen_eq_false {p : Single} (h : isDen p = false) (daz : Bool) : applyDaz daz p = p := by
  simp [applyDaz, h]

theorem isDen_eq_false_of_isInf {p : Single} (h : isInf p = true) : isDen p = false := by
  have hinf := (isInf_iff p).1 h
  rw [← Bool.not_eq_true, isDen_iff]
  omega

theorem applyDaz_of_isInf {p : Single} (h : isInf p = true) (daz : Bool) : applyDaz daz p = p :=
  applyDaz_of_isDen_eq_false (isDen_eq_false_of_isInf h) daz

/-- An operand that DAZ has been applied to is not changed again. -/
@[simp] theorem applyDaz_applyDaz (p : Single) (daz : Bool) : applyDaz daz (applyDaz true p) = applyDaz true p :=
  applyDaz_of_isDen_eq_false (applyDaz_den p) daz

/-! ### DAZ on the three operands -/

/-- DAZ makes no NaN and removes none. -/
theorem anyNaN_applyDaz (daz : Bool) (x y z : Single) :
    anyNaN (applyDaz daz x) (applyDaz daz y) (applyDaz daz z) = anyNaN x y z := by
  simp only [anyNaN, applyDaz_nan]

/-- A denormal operand is left for the later steps exactly where there is one and DAZ is off. -/
theorem anyDen_applyDaz (daz : Bool) (x y z : Single) :
    anyDen (applyDaz daz x) (applyDaz daz y) (applyDaz daz z) = (!daz && anyDen x y z) := by
  cases daz with
  | false => rfl
  | true => simp [anyDen, applyDaz_den]

/-- Steps 2 to 10 do not read DAZ. -/
theorem fmaAfterDaz_setDaz (sw : Switches) (c : FpControl) (daz : Bool) (x y z : Single) :
    fmaAfterDaz sw { c with daz := daz } x y z = fmaAfterDaz sw c x y z := rfl

theorem fma32_daz_off (sw : Switches) (c : FpControl) (x y z : Single) :
    fma32 sw { c with daz := false } x y z = fmaAfterDaz sw { c with daz := false } x y z := rfl

/-- On operands that DAZ has been applied to, `fma32` is the steps after it, with DAZ on and off. -/
theorem fma32_applyDaz (sw : Switches) (c : FpControl) (daz : Bool) (x y z : Single) :
    fma32 sw { c with daz := daz } (applyDaz true x) (applyDaz true y) (applyDaz true z) =
      fma32 sw { c with daz := true } x y z := by
  simp only [fma32, applyDaz_applyDaz, fmaAfterDaz_setDaz]

/-! ### DE: the later steps neither add it nor drop it -/

theorem overflowOutcome_flags_de (sw : Switches) (c : FpControl) (neg : Bool) (m r : Nat) (fl : FpFlags) :
    (overflowOutcome sw c neg m r fl).flags.de = fl.de := by
  unfold overflowOutcome
  split
  · rfl
  · rw [deliver_flags]

theorem tinyOutcome_flags_de (sw : Switches) (c : FpControl) (neg : Bool) (m r : Nat) (fl : FpFlags) (inexact : Bool) :
    (tinyOutcome sw c neg m r fl inexact).flags.de = fl.de := by
  unfold tinyOutcome
  split
  · rfl
  · split <;> rw [deliver_flags]

theorem roundOutcome_flags_de (sw : Switches) (c : FpControl) (neg : Bool) (m : Nat) (fl : FpFlags) (inexact : Bool) :
    (roundOutcome sw c neg m fl inexact).flags.de = fl.de := by
  simp only [roundOutcome]
  split
  · exact overflowOutcome_flags_de ..
  · split
    · exact tinyOutcome_flags_de ..
    · rw [deliver_flags]

theorem finiteOutcome_flags_de (sw : Switches) (c : FpControl) (x y z : Single) (fl : FpFlags) :
    (finiteOutcome sw c x y z fl).flags.de = fl.de := by
  simp only [finiteOutcome]
  split
  · rw [deliver_flags]
  · exact roundOutcome_flags_de ..

/-- Without a denormal operand no step detects DE. -/
theorem fmaAfterDaz_flags_de_eq_false {x y z : Single} (h : anyDen x y z = false) (sw : Switches) (c : FpControl) :
    (fmaAfterDaz sw c x y z).flags.de = false := by
  simp only [fmaAfterDaz, h, Bool.false_and, Bool.false_eq_true, if_false]
  split
  · simp [nanOutcome, h]
  · split
    · simp [invalidOutcome, h]
    · split
      · rw [infiniteOutcome, deliver_flags]
      · exact finiteOutcome_flags_de ..

/-- Settles O47: the zeroed operands of the statement are those that DAZ makes, the steps after DAZ do not read it, and they find
no denormal among them. -/
theorem denormalsAreZeros : Obligations.DenormalsAreZeros := by
  unfold Obligations.DenormalsAreZeros
  intro sw c x y z zeroed
  have hzeroed (p : Single) : zeroed p = applyDaz true p := (applyDaz_on p).symm
  have hnone : anyDen (applyDaz true x) (applyDaz true y) (applyDaz true z) = false := by
    rw [anyDen_applyDaz, Bool.not_true, Bool.false_and]
  simp only [hzeroed]
  exact ⟨(fma32_applyDaz sw c true x y z).symm, rfl, (fma32_applyDaz sw c false x y z).symm,
    fmaAfterDaz_flags_de_eq_false hnone sw _, fma32_daz_off sw c x y z, fun _ _ => ⟨rfl, rfl⟩⟩

/-! ### An infinite operand (R149) -/

/-- DE alone is delivered with the result unless it is unmasked. -/
theorem deliver_de {m : FpMasks} {den : Bool} (h : den = true → m.dm = true) (res : Single) :
    deliver m res { de := den } = .done res { de := den } := by
  have hmasked : ({ de := den } : FpFlags).unmasked m = false := by
    cases den with
    | false => rfl
    | true => simp [FpFlags.unmasked, h rfl]
  simp [deliver, hmasked]

/-- With no NaN, no invalid operation and no unmasked denormal, an infinite operand gives the result of step 5. -/
theorem fmaAfterDaz_of_infinite {sw : Switches} {c : FpControl} {x y z : Single} (hnan : anyNaN x y z = false)
    (hvalid : invalidOp x y z = false) (hden : anyDen x y z = true → c.masks.dm = true)
    (hinf : (isInf x || isInf y || isInf z) = true) :
    fmaAfterDaz sw c x y z =
      .done (if isInf x || isInf y then withSign (productSign x y) infinity else z) { de := anyDen x y z } := by
  have hmasked : (anyDen x y z && !c.masks.dm) = false := by simpa using hden
  simp only [fmaAfterDaz, hnan, hvalid, hmasked, hinf, Bool.false_eq_true, if_false, if_true, infiniteOutcome]
  exact deliver_de hden _

/-- The same of `fma32`, in terms of the operands before DAZ: DAZ keeps the infinities, the NaNs and the signs. -/
theorem fma32_of_infinite {sw : Switches} {c : FpControl} {x y z : Single} (hnan : anyNaN x y z = false)
    (hden : (!c.daz && anyDen x y z) = true → c.masks.dm = true)
    (hvalid : invalidOp (applyDaz c.daz x) (applyDaz c.daz y) (applyDaz c.daz z) = false)
    (hinf : (isInf x || isInf y || isInf z) = true) :
    fma32 sw c x y z =
      .done (if isInf x || isInf y then withSign (productSign x y) infinity else applyDaz c.daz z)
        { de := !c.daz && anyDen x y z } := by
  rw [fma32, fmaAfterDaz_of_infinite ((anyNaN_applyDaz c.daz x y z).trans hnan) hvalid
    (by rwa [anyDen_applyDaz]) (by simpa only [applyDaz_inf] using hinf), anyDen_applyDaz]
  simp only [applyDaz_inf, productSign, applyDaz_sign]

/-- The two infinities as patterns. -/
theorem withSign_infinity (neg : Bool) : withSign neg infinity = if neg then 0xFF800000#32 else 0x7F800000#32 := by
  cases neg <;> rfl

/-- Settles O51: an infinite factor gives the infinity of the product's sign; with finite factors an infinite addend is the
result, and DAZ has not changed it. -/
theorem infiniteOperandResult : Obligations.InfiniteOperandResult := by
  unfold Obligations.InfiniteOperandResult
  intro sw c x y z hnan den hden hvalid
  refine ⟨fun hfactor => ?_, fun hx hy hz => ?_⟩
  · have hproduct : (isInf x || isInf y) = true := by simpa using hfactor
    rw [fma32_of_infinite hnan hden hvalid (by rw [hproduct, Bool.true_or]), if_pos hproduct, withSign_infinity]
    rfl
  · rw [fma32_of_infinite hnan hden hvalid (by simp [hz]), applyDaz_of_isInf hz]
    simp [hx, hy, den]

end Sys2Proof.Machine
end

section
/-! PROOFS. The bits of CR0 that an instruction reads are PE, TS and AM: TS raises #NM (R187), and CR0.EM, like every other bit, is
carried along unread. -/

namespace Sys2Proof.Machine

/-! ### CR0.TS (R187) -/

/-- Once the causes of #UD are out of the way, TS stops a VEX form before its operands (R198). -/
theorem runVex_of_ts {op : Opcode} {f : VexForm} {s : State} (husable : s.vexUsable = true) (hts : s.ts = true) :
    runVex op f s = .fault (.exception .nm s) := by
  simp only [runVex, husable, hts, Bool.not_true, Bool.false_eq_true, if_false, if_true]
  rfl

/-- TS stops a legal EVEX form before its writemask is looked at (R198). -/
theorem runEvex_of_ts {op : Opcode} {f : EvexForm} {s : State} (husable : s.evexUsable = true) (hlegal : f.legal = true)
    (hts : s.ts = true) : runEvex op f s = .fault (.exception .nm s) := by
  simp only [runEvex, husable, hlegal, hts, Bool.not_true, Bool.or_self, Bool.false_eq_true, if_false, if_true]
  rfl

/-! ### The state with another CR0 of the same PE, TS and AM -/

/-- The state with another CR0. -/
def State.setCr0 (s : State) (c : Word64) : State := { s with cr0 := c }

/-- An outcome with another CR0 in the state that it carries. -/
def resultSetCr0 (c : Word64) : Result → Result
  | .next t => .next (t.setCr0 c)
  | .fault (.exception e t) => .fault (.exception e (t.setCr0 c))
  | .refused r => .refused r

/-- `c` has the three bits of the state's CR0 that the model names, PE, TS and AM. -/
structure State.SameCr0Reads (s : State) (c : Word64) : Prop where
  pe : (s.setCr0 c).pe = s.pe
  ts : (s.setCr0 c).ts = s.ts
  am : (s.setCr0 c).am = s.am

/-- Inverting CR0.EM, bit 2, leaves the three bits as they are. -/
theorem State.sameCr0Reads_invert_em (s : State) : s.SameCr0Reads (s.cr0 ^^^ 4#64) where
  pe := by simp [State.pe, State.setCr0]
  ts := by simp [State.ts, State.setCr0]
  am := by simp [State.am, State.setCr0]

section
variable {s : State} {c : Word64} (h : s.SameCr0Reads c)
include h

theorem State.SameCr0Reads.mode : (s.setCr0 c).mode = s.mode := by
  simp only [State.mode, h.pe]
  rfl

theorem State.SameCr0Reads.is64 : (s.setCr0 c).is64 = s.is64 := by
  simp only [State.is64, h.mode]

theorem State.SameCr0Reads.cpl : (s.setCr0 c).cpl = s.cpl := by
  simp only [State.cpl, h.mode]
  rfl

theorem State.SameCr0Reads.recognises : (s.setCr0 c).recognises = s.recognises := by
  simp only [State.recognises, h.mode]

theorem State.SameCr0Reads.vexUsable : (s.setCr0 c).vexUsable = s.vexUsable := by
  simp only [State.vexUsable, h.recognises]
  rfl

theorem State.SameCr0Reads.evexUsable : (s.setCr0 c).evexUsable = s.evexUsable := by
  simp only [State.evexUsable, h.recognises]
  rfl

theorem State.SameCr0Reads.regNumber (n : BitVec 5) : (s.setCr0 c).regNumber n = s.regNumber n := by
  simp only [State.regNumber, h.is64]

theorem State.SameCr0Reads.alignmentChecked : (s.setCr0 c).alignmentChecked = s.alignmentChecked := by
  simp only [State.alignmentChecked, h.am, h.cpl]
  rfl

/-! ### Operand 3 under that CR0 -/

theorem State.SameCr0Reads.gprNumber (n : BitVec 4) : (s.setCr0 c).gprNumber n = s.gprNumber n := by
  simp only [State.gprNumber, h.is64]

theorem State.SameCr0Reads.basePart (a32 b : Bool) (base : BitVec 3) :
    basePart (s.setCr0 c) a32 b base = basePart s a32 b base := by
  simp only [Machine.basePart, h.gprNumber]
  rfl

theorem State.SameCr0Reads.indexPart (a32 x : Bool) (scale : BitVec 2) (index : BitVec 3) :
    indexPart (s.setCr0 c) a32 x scale index = indexPart s a32 x scale index := by
  simp only [Machine.indexPart, h.gprNumber]
  rfl

theorem State.SameCr0Reads.addressSum (evex a32 x b : Bool) (next : Word64) (a : Addr) :
    addressSum (s.setCr0 c) evex a32 x b next a = addressSum s evex a32 x b next a := by
  cases a <;> simp only [Machine.addressSum, h.is64, h.basePart, h.indexPart]

theorem State.SameCr0Reads.effectiveAddress (evex : Bool) (legacy : List LegacyByte) (x b : Bool) (len : Nat) (a : Addr) :
    effectiveAddress (s.setCr0 c) evex legacy x b len a = effectiveAddress s evex legacy x b len a := by
  simp only [Machine.effectiveAddress, State.addressSize32, h.is64, h.addressSum]
  rfl

theorem State.SameCr0Reads.linearAddress (evex : Bool) (legacy : List LegacyByte) (x b : Bool) (len : Nat) (a : Addr) :
    linearAddress (s.setCr0 c) evex legacy x b len a = linearAddress s evex legacy x b len a := by
  simp only [Machine.linearAddress, h.effectiveAddress]
  rfl

/-- The oracle is asked with the CPL, which the mode decides with CS, and the mode reads PE alone of CR0. -/
theorem State.SameCr0Reads.readStop (la : Word64) : (s.setCr0 c).readStop la = s.readStop la := by
  have hanswer : (s.setCr0 c).answerAt .read la = s.answerAt .read la := by
    simp only [State.answerAt, h.cpl]
    rfl
  have hpage : (s.setCr0 c).pageFaultAt .read = s.pageFaultAt .read := by
    funext a
    simp only [State.pageFaultAt, h.cpl]
    rfl
  have hfault : (s.setCr0 c).readPageFault la = s.readPageFault la := by
    simp only [State.readPageFault, hpage]
    rfl
  simp only [State.readStop, State.accessStop, hanswer, hfault]
  rfl

theorem State.SameCr0Reads.memRead (stack : Bool) (la : Word64) : memRead (s.setCr0 c) stack la = memRead s stack la := by
  simp only [Machine.memRead, accessOperand, h.alignmentChecked, h.readStop]
  rfl

theorem State.SameCr0Reads.readOperand3 (evex : Bool) (legacy : List LegacyByte) (len : Nat) (o : Operand3) :
    readOperand3 (s.setCr0 c) evex legacy len o = readOperand3 s evex legacy len o := by
  cases o with
  | reg x b rm =>
    simp only [Machine.readOperand3, h.regNumber]
    rfl
  | mem x b a => simp only [Machine.readOperand3, h.is64, h.memRead, h.linearAddress, h.effectiveAddress]

end

/-! ### The end of an instruction under that CR0 -/

theorem raise_setCr0 (e : Exception) (s : State) (c : Word64) : raise e (s.setCr0 c) = resultSetCr0 c (raise e s) := by
  cases e <;> rfl

theorem Stop.outcome_setCr0 (st : Stop) (s : State) (c : Word64) :
    st.outcome (s.setCr0 c) = resultSetCr0 c (st.outcome s) := by
  cases st with
  | raises e => exact raise_setCr0 e s c
  | refuses r => rfl

theorem advance_setCr0 {s : State} {c : Word64} (h : s.SameCr0Reads c) (len : Nat) :
    advance len (s.setCr0 c) = resultSetCr0 c (advance len s) := by
  have hpc : (s.setCr0 c).pc = s.pc := rfl
  have hcanonical (a : Word64) : (s.setCr0 c).canonical a = s.canonical a := rfl
  simp only [advance, h.is64, hpc, hcanonical]
  split
  · split <;> rfl
  · split <;> rfl

/-- The writes of an instruction before it ends do not touch CR0. -/
theorem State.SameCr0Reads.of_writes {s : State} {c : Word64} (h : s.SameCr0Reads c) (fl : FpFlags)
    (event : Option ReadEvent) (n : BitVec 5) (low : Single) :
    (((s.orFlags fl).noteRead event).writeLow n low).SameCr0Reads c :=
  ⟨h.pe, h.ts, h.am⟩

section
variable {s : State} {c : Word64} (h : s.SameCr0Reads c)
include h

theorem finishMxcsr_setCr0 (out : FmaOutcome) (event : Option ReadEvent) (n : BitVec 5) (len : Nat) :
    finishMxcsr out event n len (s.setCr0 c) = resultSetCr0 c (finishMxcsr out event n len s) := by
  cases out with
  | stopped fl => exact raise_setCr0 _ (s.orFlags fl) c
  | done res fl => exact advance_setCr0 (h.of_writes fl event n res) len

theorem finishSae_setCr0 (out : FmaOutcome) (event : Option ReadEvent) (n : BitVec 5) (len : Nat) :
    finishSae out event n len (s.setCr0 c) = resultSetCr0 c (finishSae out event n len s) := by
  cases out with
  | stopped fl => exact raise_setCr0 _ (s.orFlags fl) c
  | done res fl =>
    have hend := h.of_writes {} event n res
    rw [State.orFlags_none] at hend
    exact advance_setCr0 hend len

theorem finishMaskedOff_setCr0 (f : EvexForm) (n : BitVec 5) :
    finishMaskedOff f n (s.setCr0 c) = resultSetCr0 c (finishMaskedOff f n s) := by
  have hend := h.of_writes {} none n (maskedOffLow f n s)
  rw [State.orFlags_none, State.noteRead_none] at hend
  exact advance_setCr0 hend f.length

/-! ### An instruction under that CR0 -/

theorem runVex_setCr0 (op : Opcode) (f : VexForm) : runVex op f (s.setCr0 c) = resultSetCr0 c (runVex op f s) := by
  simp only [runVex, h.vexUsable, h.ts, h.readOperand3, h.regNumber]
  split
  · exact raise_setCr0 .ud s c
  · split
    · exact raise_setCr0 .nm s c
    · split
      · exact Stop.outcome_setCr0 _ s c
      · exact finishMxcsr_setCr0 h _ _ _ _

theorem runEvex_setCr0 (op : Opcode) (f : EvexForm) : runEvex op f (s.setCr0 c) = resultSetCr0 c (runEvex op f s) := by
  have hactive : (s.setCr0 c).isActive f = s.isActive f := rfl
  simp only [runEvex, h.evexUsable, h.ts, hactive, h.readOperand3, h.regNumber]
  split
  · exact raise_setCr0 .ud s c
  · split
    · exact raise_setCr0 .nm s c
    · split
      · exact finishMaskedOff_setCr0 h f _
      · split
        · exact Stop.outcome_setCr0 _ s c
        · split
          · exact finishSae_setCr0 h _ _ _ _
          · exact finishMxcsr_setCr0 h _ _ _ _

/-- A CR0 with the same PE, TS and AM gives every instruction the same outcome, faults and refusals included. -/
theorem exec_setCr0 (i : Instr) : exec i (s.setCr0 c) = resultSetCr0 c (exec i s) := by
  cases i with
  | vfmadd132ssVex f => exact runVex_setCr0 h .op132 f
  | vfmadd213ssVex f => exact runVex_setCr0 h .op213 f
  | vfmadd231ssVex f => exact runVex_setCr0 h .op231 f
  | vfmadd132ssEvex f => exact runEvex_setCr0 h .op132 f
  | vfmadd213ssEvex f => exact runEvex_setCr0 h .op213 f
  | vfmadd231ssEvex f => exact runEvex_setCr0 h .op231 f

end

/-- Settles O16: TS is tested right after the causes of #UD, and CR0.EM is none of the three bits of CR0 that are read. -/
theorem taskSwitchedRaisesNM : Obligations.TaskSwitchedRaisesNM := by
  unfold Obligations.TaskSwitchedRaisesNM
  refine ⟨fun s hts => ⟨fun husable f => ?_, fun husable f hlegal => ?_⟩, rfl, rfl, fun i s t => ?_⟩
  · have hexec (o : Opcode) : exec (.ofVex o f) s = .fault (.exception .nm s) := by
      rw [exec_ofVex, runVex_of_ts husable hts]
    exact ⟨hexec .op132, hexec .op213, hexec .op231⟩
  · have hexec (o : Opcode) : exec (.ofEvex o f) s = .fault (.exception .nm s) := by
      rw [exec_ofEvex, runEvex_of_ts husable hlegal hts]
    exact ⟨hexec .op132, hexec .op213, hexec .op231⟩
  · have hexec := exec_setCr0 s.sameCr0Reads_invert_em i
    refine ⟨fun hnext => ?_, fun e hfault => ?_, fun r hrefused => ?_⟩
    · rw [hnext] at hexec
      exact hexec
    · rw [hfault] at hexec
      exact hexec
    · rw [hrefused] at hexec
      exact hexec

end Sys2Proof.Machine
end

section
/-! PROOFS. What a completed instruction and an exception keep: the premises of a launch state, the fixed state, the registers
other than the destination and MXCSR's control bits. All of it follows from `exec_next` and `exec_fault`. -/

namespace Sys2Proof.Machine

/-! ### The launch premises (R223) -/

/-- The premises of a launch state by name. -/
theorem State.wf_iff (s : State) :
    s.wf = true ↔ s.mem.wf = true ∧ s.mxcsrReservedZero = true ∧ s.vectorsFit = true ∧ s.masksFit = true ∧
      s.absentZero = true ∧ paramsConsistent s.cfg = true := by
  simp [State.wf, and_assoc]

/-- The flags lie in MXCSR[5:0], so that ORing them keeps the fields above. -/
theorem orFlags_extractLsb' (w : BitVec 32) (fl : FpFlags) {start len : Nat} (h : 6 ≤ start) :
    (orFlags w fl).extractLsb' start len = w.extractLsb' start len := by
  apply BitVec.eq_of_getLsbD_eq
  intro i hi
  have habove : fl.bits.getLsbD (start + i) = false := BitVec.getLsbD_of_ge _ _ (by omega)
  simp [orFlags, habove]

theorem orFlags_ze (w : BitVec 32) (fl : FpFlags) : (orFlags w fl).getLsbD 2 = w.getLsbD 2 := by
  simp only [orFlags, BitVec.getLsbD_or, BitVec.getLsbD_setWidth, FpFlags.bits_ze, Bool.and_false, Bool.or_false]

theorem and_orFlags (w : BitVec 32) (fl : FpFlags) : w &&& orFlags w fl = w := by
  apply BitVec.eq_of_getLsbD_eq
  intro i hi
  simp only [orFlags, BitVec.getLsbD_and, BitVec.getLsbD_or]
  cases w.getLsbD i <;> rfl

theorem VecWidth.two_pow_128_le (w : VecWidth) : 2 ^ 128 ≤ 2 ^ w.bits :=
  Nat.pow_le_pow_right (by omega) (by cases w <;> decide)

/-- The destination's new value fits in every MAXVL. -/
theorem completedAt_vectorsFit {s : State} (h : s.vectorsFit = true) (n low fl ev a) :
    (completedAt s n low fl ev a).vectorsFit = true := by
  simp only [State.vectorsFit, completedAt_v, completedAt_cfg, Vector.toList_set, List.all_eq_true] at h ⊢
  intro w hw
  rcases List.mem_or_eq_of_mem_set hw with hold | rfl
  · exact h w hold
  · exact decide_eq_true ((mergeLow_lt _ _).trans_le (VecWidth.two_pow_128_le _))

/-- A write below register 16, or where all 32 registers exist, leaves the absent registers zero. -/
theorem completedAt_absentZero {s : State} (h : s.absentZero = true) {n : BitVec 5}
    (hn : s.cfg.hasAvx512f = true ∨ n.toNat < 16) (low fl ev a) :
    (completedAt s n low fl ev a).absentZero = true := by
  rcases hn with havx | hlt
  · simp [State.absentZero, Params.nvreg, havx]
  · rwa [State.absentZero, completedAt_v, completedAt_cfg, Vector.toList_set, List.drop_set_of_lt hlt]

theorem completedAt_wf {s : State} (h : s.wf = true) {n : BitVec 5} (hn : s.cfg.hasAvx512f = true ∨ n.toNat < 16)
    (low fl ev a) : (completedAt s n low fl ev a).wf = true := by
  obtain ⟨hmem, hmxcsr, hvec, hmask, habsent, hparams⟩ := (s.wf_iff).1 h
  refine (State.wf_iff _).2 ⟨hmem, ?_, completedAt_vectorsFit hvec .., hmask, completedAt_absentZero habsent hn .., hparams⟩
  rwa [State.mxcsrReservedZero, completedAt_mxcsr, orFlags_extractLsb' _ _ (by omega)]

theorem State.regNumber_toNat_le (s : State) (n : BitVec 5) : (s.regNumber n).toNat ≤ n.toNat := by
  unfold State.regNumber
  split
  · rfl
  · rw [BitVec.toNat_and]
    exact Nat.and_le_left

theorem State.hasAvx512f_of_readyEvex {s : State} (h : s.ReadyEvex) : s.cfg.hasAvx512f = true := by
  have husable := h.1
  simp only [State.evexUsable, Bool.and_eq_true] at husable
  exact husable.2

/-- Registers 16 to 31 are a destination only of the EVEX forms, which need AVX512F. -/
theorem destination_present {i : Instr} {s t : State} (h : exec i s = .next t) :
    s.cfg.hasAvx512f = true ∨ (s.regNumber (destination i)).toNat < 16 := by
  have hvex (d : BitVec 4) : (s.regNumber (d.setWidth 5)).toNat < 16 := by
    have hle := s.regNumber_toNat_le (d.setWidth 5)
    have hwidth : (d.setWidth 5).toNat ≤ d.toNat := by simp [Nat.mod_le]
    omega
  cases i with
  | vfmadd132ssVex f => exact .inr (hvex f.dst)
  | vfmadd213ssVex f => exact .inr (hvex f.dst)
  | vfmadd231ssVex f => exact .inr (hvex f.dst)
  | vfmadd132ssEvex f => exact .inl (State.hasAvx512f_of_readyEvex (ready_of_runEvex_next h))
  | vfmadd213ssEvex f => exact .inl (State.hasAvx512f_of_readyEvex (ready_of_runEvex_next h))
  | vfmadd231ssEvex f => exact .inl (State.hasAvx512f_of_readyEvex (ready_of_runEvex_next h))

/-- Settles O34: a step that answers a next state has completed an instruction, and each premise survives its writes. -/
theorem stepKeepsLaunchPremises : Obligations.StepKeepsLaunchPremises := by
  unfold Obligations.StepKeepsLaunchPremises
  intro s t hwf hstep
  obtain ⟨i, -, -, hexec⟩ := step_next hstep
  have hpresent := destination_present hexec
  obtain ⟨low, fl, event, a, rfl, -⟩ := exec_next hexec
  exact completedAt_wf hwf hpresent low fl event a

theorem zeroReg_fits (n : Nat) : (0#512 : VecReg).toNat < 2 ^ n := by
  rw [BitVec.toNat_zero]
  exact Nat.two_pow_pos n

/-- Settles O35: reset has no memory, MXCSR = 1F80H, and zero in every vector and opmask register. -/
theorem resetMeetsLaunchPremises : Obligations.ResetMeetsLaunchPremises := by
  unfold Obligations.ResetMeetsLaunchPremises
  have hvec : State.reset.vectorsFit = true := by
    refine List.all_eq_true.2 fun w hw => ?_
    rw [State.reset, Vector.toList_replicate] at hw
    rw [List.eq_of_mem_replicate hw]
    exact decide_eq_true (zeroReg_fits State.reset.cfg.maxvl.bits)
  exact (State.wf_iff _).2 ⟨reset_mem_wf, rfl, hvec, by decide, rfl, rfl⟩

/-! ### What a completed instruction leaves alone -/

/-- Settles O36: the state after a completed instruction differs in the vector registers, MXCSR, the program counter and the read
events alone. -/
theorem stepKeepsFixedState : Obligations.StepKeepsFixedState := by
  unfold Obligations.StepKeepsFixedState
  intro s t hstep
  obtain ⟨i, -, -, hexec⟩ := step_next hstep
  obtain ⟨low, fl, event, a, rfl, -⟩ := exec_next hexec
  exact ⟨⟨rfl, rfl, rfl, rfl, rfl, rfl, rfl, rfl, rfl, rfl, rfl, rfl, rfl, rfl, rfl, rfl, rfl, rfl⟩, rfl, fun _ => rfl⟩

/-- Settles O37: the one write to a vector register is `mergeLow` on the destination. -/
theorem onlyTheDestinationChanges : Obligations.OnlyTheDestinationChanges := by
  unfold Obligations.OnlyTheDestinationChanges
  intro i s t hexec n1
  obtain ⟨low, fl, event, a, rfl, -⟩ := exec_next hexec
  refine ⟨fun n hn => completedAt_vreg_ne s _ low fl event a hn, ?_, ?_⟩
  · rw [completedAt_vreg_same, mergeLow_mid]
  · rw [completedAt_vreg_same, mergeLow_high]

/-- In 64-bit mode the new program counter is the sum as integers. -/
theorem toNat_add_of_lt {pc : Word64} {len : Nat} (h : pc.toNat + len < 2 ^ 64) :
    (pc + BitVec.ofNat 64 len).toNat = pc.toNat + len := by
  rw [BitVec.toNat_add, BitVec.toNat_ofNat]
  omega

/-- Outside it the new EIP is the sum as integers, with zeros above it. -/
theorem toNat_eip_add_of_lt {pc : Word64} {len : Nat} (h : (pc.setWidth 32).toNat + len < 2 ^ 32) :
    ((pc.setWidth 32 + BitVec.ofNat 32 len).setWidth 64).toNat = pc.toNat % 2 ^ 32 + len := by
  rw [BitVec.toNat_setWidth] at h
  simp only [BitVec.toNat_setWidth, BitVec.toNat_add, BitVec.toNat_ofNat]
  omega

/-- Settles O38: the two cases of `NextPc` are the two modes of the statement. -/
theorem programCounterAdvances : Obligations.ProgramCounterAdvances := by
  unfold Obligations.ProgramCounterAdvances
  intro i s t hexec
  obtain ⟨low, fl, event, a, rfl, ⟨h64, rfl, hlt, hcanonical⟩ | ⟨h64, rfl, hlt⟩⟩ := exec_next hexec
  · refine ⟨fun _ => ⟨toNat_add_of_lt hlt, hcanonical⟩, fun h => ?_⟩
    rw [h64] at h
    cases h
  · refine ⟨fun h => ?_, fun _ => ?_⟩
    · rw [h64] at h
      cases h
    · rw [completedAt_pc, toNat_eip_add_of_lt hlt]
      rw [BitVec.toNat_setWidth] at hlt
      exact ⟨rfl, hlt⟩

/-! ### What an exception leaves alone -/

/-- MXCSR after an instruction that completes or faults: some flags have been ORed in, perhaps none. -/
theorem mxcsr_of_exec {i : Instr} {s t : State} (h : exec i s = .next t ∨ ∃ e, exec i s = .fault (.exception e t)) :
    ∃ fl, t.mxcsr = orFlags s.mxcsr fl := by
  rcases h with hnext | ⟨e, hfault⟩
  · obtain ⟨low, fl, event, a, rfl, -⟩ := exec_next hnext
    exact ⟨fl, rfl⟩
  · rcases exec_fault hfault with ⟨e', -, heq⟩ | ⟨code, a, heq⟩ | ⟨e', fl, -, heq⟩ <;> cases heq
    · exact ⟨{}, (orFlags_none _).symm⟩
    · exact ⟨{}, (orFlags_none _).symm⟩
    · exact ⟨fl, rfl⟩

/-- Settles O39: ORing flags into bits 5:0, ZE apart, keeps the bits above, ZE and the flags already set. -/
theorem mxcsrFlagsAreSticky : Obligations.MxcsrFlagsAreSticky := by
  unfold Obligations.MxcsrFlagsAreSticky
  intro i s t h
  obtain ⟨fl, hfl⟩ := mxcsr_of_exec h
  rw [hfl]
  exact ⟨orFlags_extractLsb' _ _ le_rfl, orFlags_ze _ _, and_orFlags _ _⟩

/-- Settles O33: of the three kinds of exception that `exec_fault` names, the first leaves the state, the page fault writes CR2
and the SIMD floating-point fault ORs its flags. -/
theorem exceptionsArePrecise : Obligations.ExceptionsArePrecise := by
  unfold Obligations.ExceptionsArePrecise
  intro i s t e hfault
  have hnone : s.mxcsr = s.mxcsr ||| (FpFlags.bits {}).setWidth 32 := (orFlags_none s.mxcsr).symm
  rcases exec_fault hfault with ⟨e', hplain, heq⟩ | ⟨code, a, heq⟩ | ⟨e', fl, hsimd, heq⟩ <;> cases heq
  · refine ⟨rfl, fun _ _ => rfl, ⟨{}, hnone⟩, fun code addr he => ?_, fun _ => rfl⟩
    simp [he] at hplain
  · refine ⟨rfl, fun _ _ => rfl, ⟨{}, hnone⟩, fun code' addr he => ?_, fun hno => (hno code a rfl).elim⟩
    cases he
    rfl
  · refine ⟨rfl, fun hxm hud => ?_, ⟨fl, rfl⟩, fun code addr he => ?_, fun _ => rfl⟩
    · exact (hsimd.elim hxm hud).elim
    · simp [he] at hsimd

end Sys2Proof.Machine
end

section
/-! PROOFS. The round trip of the decoder and the encoder: an encoding is read back (`decode_encode`), and what is read is an
encoding (`encode_of_decode`). -/

namespace Sys2Proof

/-! ### The forms of an instruction -/

/-- An instruction is a VEX or an EVEX form under one of the three opcodes. -/
theorem Instr.eq_ofVex_or_ofEvex (i : Instr) : (∃ o f, i = .ofVex o f) ∨ ∃ o f, i = .ofEvex o f := by
  cases i with
  | vfmadd132ssVex f => exact .inl ⟨.op132, f, rfl⟩
  | vfmadd213ssVex f => exact .inl ⟨.op213, f, rfl⟩
  | vfmadd231ssVex f => exact .inl ⟨.op231, f, rfl⟩
  | vfmadd132ssEvex f => exact .inr ⟨.op132, f, rfl⟩
  | vfmadd213ssEvex f => exact .inr ⟨.op213, f, rfl⟩
  | vfmadd231ssEvex f => exact .inr ⟨.op231, f, rfl⟩

@[simp] theorem encode_ofVex (o : Opcode) (f : VexForm) : encode (.ofVex o f) = encodeVex o.toByte f := by
  cases o <;> rfl

@[simp] theorem encode_ofEvex (o : Opcode) (f : EvexForm) : encode (.ofEvex o f) = encodeEvex o.toByte f := by
  cases o <;> rfl

@[simp] theorem wf_ofVex (o : Opcode) (f : VexForm) : (Instr.ofVex o f).wf = f.wf := by
  cases o <;> rfl

@[simp] theorem wf_ofEvex (o : Opcode) (f : EvexForm) : (Instr.ofEvex o f).wf = f.wf := by
  cases o <;> rfl

@[simp] theorem legacy_ofVex (o : Opcode) (f : VexForm) : (Instr.ofVex o f).legacy = f.legacy := by
  cases o <;> rfl

@[simp] theorem legacy_ofEvex (o : Opcode) (f : EvexForm) : (Instr.ofEvex o f).legacy = f.legacy := by
  cases o <;> rfl

theorem VexForm.wf_iff (f : VexForm) : f.wf = true ↔ f.op3.wf = true ∧ f.size ≤ 15 := by
  simp [VexForm.wf]

theorem EvexForm.wf_iff (f : EvexForm) : f.wf = true ↔ f.op3.wf = true ∧ f.legal = true ∧ f.size ≤ 15 := by
  simp [EvexForm.wf, and_assoc]

theorem encode_length (i : Instr) : (encode i).length = i.size := by
  obtain ⟨o, f, rfl⟩ | ⟨o, f, rfl⟩ := i.eq_ofVex_or_ofEvex
  · rw [encode_ofVex, encodeVex_length, Machine.size_ofVex]
  · rw [encode_ofEvex, encodeEvex_length, Machine.size_ofEvex]

theorem Instr.size_le_of_wf {i : Instr} (h : i.wf = true) : i.size ≤ 15 := by
  obtain ⟨o, f, rfl⟩ | ⟨o, f, rfl⟩ := i.eq_ofVex_or_ofEvex
  · rw [wf_ofVex, VexForm.wf_iff] at h
    simpa using h.2
  · rw [wf_ofEvex, EvexForm.wf_iff] at h
    simpa using h.2.2

/-! ### The decoder after its legacy bytes (R87 steps 2 and 3) -/

/-- Where step 1 leads to C4H, what follows is LES outside 64-bit mode or the VEX decoder's. -/
theorem decode_of_takeLegacy_vex {m : CodeMode} {bytes bs : List Byte} {legacy : List LegacyByte} {found : PrefixCheck}
    {p : Byte} (h : takeLegacy (m == .long64) bytes = (legacy, found, 0xC4#8 :: p :: bs)) (hstray : found ≠ .strayRex) :
    decode m bytes =
      if isLesOrBound m p then .error .lesOrBound else decodeVex m legacy (found == .forbidden) p bs := by
  simp [decode, h, hstray, isVexOrEvex]

/-- Where step 1 leads to 62H, what follows is BOUND outside 64-bit mode or the EVEX decoder's. -/
theorem decode_of_takeLegacy_evex {m : CodeMode} {bytes bs : List Byte} {legacy : List LegacyByte} {found : PrefixCheck}
    {p : Byte} (h : takeLegacy (m == .long64) bytes = (legacy, found, 0x62#8 :: p :: bs)) (hstray : found ≠ .strayRex) :
    decode m bytes =
      if isLesOrBound m p then .error .lesOrBound else decodeEvex m legacy (found == .forbidden) p bs := by
  simp [decode, h, hstray, isVexOrEvex]

@[simp] theorem isLesOrBound_long (p : Byte) : isLesOrBound .long64 p = false := rfl

theorem VexForm.vexMismatch_eq_none (f : VexForm) : vexMismatch f.p1 f.p2 = none := by
  obtain ⟨hmap, -⟩ := f.p1_fields
  obtain ⟨hw, hpp, -⟩ := f.p2_fields
  simp [vexMismatch, hmap, hw, hpp]

theorem EvexForm.evexMismatch_eq_none (f : EvexForm) : evexMismatch f.p0 f.p1 = none :=
  EvexForm.FixedFields.evexMismatch_eq_none (f := f) ⟨rfl, rfl⟩

/-- The fields that the decoder takes from P1, P2 and ModRM are those of the form. -/
theorem vexFormOf_encoded (f : VexForm) : vexFormOf f.legacy f.p1 f.p2 (f.dst.extractLsb' 0 3) f.op3 = f := by
  obtain ⟨-, -, -, hdstHigh, hdst⟩ := f.p1_fields
  obtain ⟨-, -, hl, hsrc2⟩ := f.p2_fields
  simp only [vexFormOf, hdstHigh, hdst, hl, hsrc2]

/-- The fields that the decoder takes from P0, P1, P2 and ModRM are those of the form. -/
theorem evexFormOf_encoded (f : EvexForm) : evexFormOf f.legacy f.p0 f.p1 f.p2 (f.dst.extractLsb' 0 3) f.op3 = f := by
  obtain ⟨-, -, -, -, hdst3, hdst4, hdst⟩ := f.p0_fields
  obtain ⟨-, -, -, hsrc2Low⟩ := f.p1_fields
  obtain ⟨hz, hll, hb, hsrc2High, haaa, hsrc2⟩ := f.p2_fields
  simp only [evexFormOf, hdst3, hdst4, hdst, hsrc2Low, hsrc2High, hsrc2, hz, hll, hb, haaa]

/-- In 64-bit mode the VEX decoder reads a form back that the last checks let pass. -/
theorem decodeVex_bytes (o : Opcode) {f : VexForm} {bad : Bool} (rest : List Byte) (hop3 : f.op3.wf = true)
    (hchecks : vexChecks bad f = none) :
    decodeVex .long64 f.legacy bad f.p1 (f.p2 :: o.toByte :: (modRMBytes (f.dst.extractLsb' 0 3) f.op3 ++ rest)) =
      .ok (.ofVex o f, rest) := by
  obtain ⟨-, hx, hb, -⟩ := f.p1_fields
  simp only [decodeVex, f.vexMismatch_eq_none, hx, hb, takeOpcode_bytes f.legacy o _ f.op3 rest hop3, vexFormOf_encoded,
    hchecks]

/-- It answers what the last checks reject. -/
theorem decodeVex_bytes_error (o : Opcode) {f : VexForm} {bad : Bool} {e : DecodeError} (rest : List Byte)
    (hop3 : f.op3.wf = true) (hchecks : vexChecks bad f = some e) :
    decodeVex .long64 f.legacy bad f.p1 (f.p2 :: o.toByte :: (modRMBytes (f.dst.extractLsb' 0 3) f.op3 ++ rest)) =
      .error e := by
  obtain ⟨-, hx, hb, -⟩ := f.p1_fields
  simp only [decodeVex, f.vexMismatch_eq_none, hx, hb, takeOpcode_bytes f.legacy o _ f.op3 rest hop3, vexFormOf_encoded,
    hchecks]

/-- In 64-bit mode the EVEX decoder reads a form back that the last checks let pass. -/
theorem decodeEvex_bytes (o : Opcode) {f : EvexForm} {bad : Bool} (rest : List Byte) (hop3 : f.op3.wf = true)
    (hchecks : evexChecks bad f.p0 f.p1 f = none) :
    decodeEvex .long64 f.legacy bad f.p0
        (f.p1 :: f.p2 :: o.toByte :: (modRMBytes (f.dst.extractLsb' 0 3) f.op3 ++ rest)) = .ok (.ofEvex o f, rest) := by
  obtain ⟨-, -, hx, hb, -⟩ := f.p0_fields
  simp only [decodeEvex, f.evexMismatch_eq_none, hx, hb, takeOpcode_bytes f.legacy o _ f.op3 rest hop3,
    evexFormOf_encoded, hchecks]

/-- It answers what the last checks reject. -/
theorem decodeEvex_bytes_error (o : Opcode) {f : EvexForm} {bad : Bool} {e : DecodeError} (rest : List Byte)
    (hop3 : f.op3.wf = true) (hchecks : evexChecks bad f.p0 f.p1 f = some e) :
    decodeEvex .long64 f.legacy bad f.p0
        (f.p1 :: f.p2 :: o.toByte :: (modRMBytes (f.dst.extractLsb' 0 3) f.op3 ++ rest)) = .error e := by
  obtain ⟨-, -, hx, hb, -⟩ := f.p0_fields
  simp only [decodeEvex, f.evexMismatch_eq_none, hx, hb, takeOpcode_bytes f.legacy o _ f.op3 rest hop3,
    evexFormOf_encoded, hchecks]

/-! ### An encoding is read back -/

theorem vexChecks_eq_none {f : VexForm} (h : f.size ≤ 15) : vexChecks false f = none := by
  simp [vexChecks, h]

theorem evexChecks_eq_none {f : EvexForm} (hsize : f.size ≤ 15) (hlegal : f.legal = true) :
    evexChecks false f.p0 f.p1 f = none := by
  obtain ⟨-, hp0, -⟩ := f.p0_fields
  obtain ⟨-, -, hp1, -⟩ := f.p1_fields
  simp only [evexChecks, if_neg hsize.not_gt, hlegal, hp0, hp1, Bool.not_true, Bool.or_self, Bool.false_eq_true, if_false]

theorem decode_encodeVex (o : Opcode) {f : VexForm} (rest : List Byte) (h : f.wf = true) :
    decode .long64 (encodeVex o.toByte f ++ rest) = .ok (.ofVex o f, rest) := by
  obtain ⟨hop3, hsize⟩ := f.wf_iff.1 h
  rw [encodeVex, List.append_assoc, List.cons_append, List.cons_append,
    decode_of_takeLegacy_vex (takeLegacy_map _ f.legacy 0xC4#8 _ rfl) (by decide), isLesOrBound_long,
    if_neg Bool.false_ne_true, List.cons_append, List.cons_append]
  exact decodeVex_bytes o rest hop3 (vexChecks_eq_none hsize)

theorem decode_encodeEvex (o : Opcode) {f : EvexForm} (rest : List Byte) (h : f.wf = true) :
    decode .long64 (encodeEvex o.toByte f ++ rest) = .ok (.ofEvex o f, rest) := by
  obtain ⟨hop3, hlegal, hsize⟩ := f.wf_iff.1 h
  rw [encodeEvex, List.append_assoc, List.cons_append, List.cons_append,
    decode_of_takeLegacy_evex (takeLegacy_map _ f.legacy 0x62#8 _ rfl) (by decide), isLesOrBound_long,
    if_neg Bool.false_ne_true, List.cons_append, List.cons_append, List.cons_append]
  exact decodeEvex_bytes o rest hop3 (evexChecks_eq_none hsize hlegal)

theorem decode_encode {i : Instr} (rest : List Byte) (h : i.wf = true) :
    decode .long64 (encode i ++ rest) = .ok (i, rest) := by
  obtain ⟨o, f, rfl⟩ | ⟨o, f, rfl⟩ := i.eq_ofVex_or_ofEvex
  · rw [encode_ofVex, decode_encodeVex o rest (by simpa using h)]
  · rw [encode_ofEvex, decode_encodeEvex o rest (by simpa using h)]

/-- Settles O1: step 1 takes the legacy bytes of the encoding, and the fields, ModRM and what follows are read back. -/
theorem decodeReadsTheEncoding : Obligations.DecodeReadsTheEncoding := by
  unfold Obligations.DecodeReadsTheEncoding
  exact fun i rest h => decode_encode rest h

/-! ### What is read is an encoding: legacy bytes, displacements, ModRM -/

theorem PrefixCheck.afterRex_ne_clean (last : Bool) (c : PrefixCheck) : c.afterRex last ≠ .clean := by
  cases c <;> cases last <;> simp [PrefixCheck.afterRex]

/-- Where step 1 finds nothing but legacy bytes of R83, they stand before the rest. -/
theorem eq_of_takeLegacy_clean {long : Bool} {bytes rest : List Byte} {ps : List LegacyByte}
    (h : takeLegacy long bytes = (ps, .clean, rest)) : bytes = ps.map LegacyByte.toByte ++ rest := by
  induction bytes generalizing ps with
  | nil =>
    cases h
    rfl
  | cons b bs ih =>
    unfold takeLegacy at h
    rcases hr : takeLegacy long bs with ⟨qs, found, rest'⟩
    simp only [hr] at h
    split at h
    next p hp =>
      cases h
      simp [ih hr, LegacyByte.toByte_of_ofByte hp]
    next =>
      split at h
      · cases h
      · split at h
        · simp only [Prod.mk.injEq] at h
          exact (PrefixCheck.afterRex_ne_clean _ _ h.2.1).elim
        · cases h
          rfl

/-- Four bytes put together and taken apart again. -/
theorem disp32Bytes_append (a b c d : Byte) : disp32Bytes (d ++ c ++ b ++ a) = [a, b, c, d] := by
  have hbyte (w : BitVec 32) (e : Byte) (k : Nat) (h : ∀ i, i < 8 → w.getLsbD (k + i) = e.getLsbD i) :
      w.extractLsb' k 8 = e := by
    apply BitVec.eq_of_getLsbD_eq
    intro i hi
    simp [hi, h i hi]
  simp only [disp32Bytes, List.cons.injEq, and_true]
  refine ⟨hbyte _ _ _ ?_, hbyte _ _ _ ?_, hbyte _ _ _ ?_, hbyte _ _ _ ?_⟩ <;> intro i hi <;>
    simp only [BitVec.getLsbD_append]
  · simp [hi]
  · simp [show ¬ 8 + i < 8 by omega, show 8 + i - 8 = i by omega, hi]
  · simp [show ¬ 16 + i < 8 by omega, show ¬ 16 + i - 8 < 8 by omega, show 16 + i - 8 - 8 = i by omega, hi]
  · simp [show ¬ 24 + i < 8 by omega, show ¬ 24 + i - 8 < 8 by omega, show ¬ 24 + i - 8 - 8 < 8 by omega,
      show 24 + i - 8 - 8 - 8 = i by omega]

theorem eq_of_takeDisp32 {bs rest : List Byte} {d : BitVec 32} (h : takeDisp32 bs = .ok (d, rest)) :
    bs = disp32Bytes d ++ rest := by
  unfold takeDisp32 at h
  split at h
  · cases h
    rw [disp32Bytes_append]
    rfl
  · cases h

theorem eq_of_takeDisp {mod : BitVec 2} {bs rest : List Byte} {d : Disp} (hmod : mod ≠ 3#2)
    (h : takeDisp mod bs = .ok (d, rest)) : d.mod = mod ∧ bs = d.bytes ++ rest := by
  unfold takeDisp at h
  split at h
  next h0 =>
    cases h
    exact ⟨h0.symm, rfl⟩
  next h0 =>
    split at h
    next h1 =>
      split at h
      · cases h
        exact ⟨h1.symm, rfl⟩
      · cases h
    next h1 =>
      have h2 : mod = 2#2 := by
        revert h0 h1 hmod
        revert mod
        decide
      split at h
      next h32 =>
        cases h
        exact ⟨h2.symm, eq_of_takeDisp32 h32⟩
      · cases h

/-- The memory form that is read has an encoding, and that is what stands there. -/
theorem eq_of_takeAddr {mod : BitVec 2} {rm reg : BitVec 3} {bs rest : List Byte} {a : Addr} (x b : Bool) (hmod : mod ≠ 3#2)
    (h : takeAddr mod rm bs = .ok (a, rest)) :
    a.wf = true ∧ pack233 mod reg rm :: bs = modRMBytes reg (.mem x b a) ++ rest := by
  unfold takeAddr at h
  split at h
  next hrm =>
    subst hrm
    cases bs with
    | nil => cases h
    | cons sib bs =>
      simp only at h
      have hsib := pack233_fields sib
      split at h
      next hbase =>
        obtain ⟨rfl, h5⟩ := hbase
        rw [h5] at hsib
        split at h
        next h32 =>
          cases h
          exact ⟨rfl, by simp [modRMBytes, eq_of_takeDisp32 h32, hsib]⟩
        · cases h
      next hbase =>
        split at h
        next hd =>
          cases h
          obtain ⟨rfl, rfl⟩ := eq_of_takeDisp hmod hd
          refine ⟨?_, by simp [modRMBytes, hsib]⟩
          rw [Disp.mod_eq_zero] at hbase
          simpa [Addr.wf, imp_iff_not_or] using hbase
        · cases h
  next hrm =>
    split at h
    next hrip =>
      obtain ⟨rfl, rfl⟩ := hrip
      split at h
      next h32 =>
        cases h
        exact ⟨rfl, by simp [modRMBytes, eq_of_takeDisp32 h32]⟩
      · cases h
    next hrip =>
      split at h
      next hd =>
        cases h
        obtain ⟨rfl, rfl⟩ := eq_of_takeDisp hmod hd
        refine ⟨?_, by simp [modRMBytes]⟩
        rw [Disp.mod_eq_zero] at hrip
        simpa [Addr.wf, hrm, imp_iff_not_or] using hrip
      · cases h

/-- Operand 3 that is read has an encoding under its X and B, and that is what stands there. -/
theorem eq_of_takeModRM {a16 x b : Bool} {bs rest : List Byte} {reg : BitVec 3} {op3 : Operand3}
    (h : takeModRM a16 x b bs = .ok (reg, op3, rest)) :
    op3.wf = true ∧ op3.x = x ∧ op3.b = b ∧ bs = modRMBytes reg op3 ++ rest := by
  cases bs with
  | nil => cases h
  | cons m bs =>
    have hm := pack233_fields m
    rw [takeModRM] at h
    split at h
    next hreg =>
      cases h
      rw [hreg] at hm
      exact ⟨rfl, rfl, rfl, by simp [modRMBytes, hm]⟩
    next hmem =>
      split at h
      · cases h
      · split at h
        next ha =>
          cases h
          obtain ⟨hwf, heq⟩ := eq_of_takeAddr (reg := m.extractLsb' 3 3) x b hmem ha
          rw [hm] at heq
          exact ⟨hwf, rfl, rfl, heq⟩
        · cases h

theorem eq_of_takeOpcode {m : CodeMode} {legacy : List LegacyByte} {x b : Bool} {bs rest : List Byte} {o : Opcode}
    {reg : BitVec 3} {op3 : Operand3} (h : takeOpcode m legacy x b bs = .ok (o, reg, op3, rest)) :
    op3.wf = true ∧ op3.x = x ∧ op3.b = b ∧ bs = o.toByte :: (modRMBytes reg op3 ++ rest) := by
  cases bs with
  | nil => cases h
  | cons op bs =>
    rw [takeOpcode] at h
    split at h
    · cases h
    next ho =>
      split at h
      · cases h
      · split at h
        · cases h
        next hm =>
          cases h
          obtain ⟨hwf, hx, hb, rfl⟩ := eq_of_takeModRM hm
          exact ⟨hwf, hx, hb, by rw [Opcode.toByte_of_ofByte ho]⟩

/-! ### What is read is an encoding: the prefix bytes -/

/-- P1, P2 and the reg field are those that the form read from them is encoded with. -/
theorem vexFormOf_bytes {p1 p2 : Byte} {op3 : Operand3} (legacy : List LegacyByte) (reg : BitVec 3)
    (hfixed : vexMismatch p1 p2 = none) (hx : op3.x = !p1.getLsbD 6) (hb : op3.b = !p1.getLsbD 5) :
    (vexFormOf legacy p1 p2 reg op3).p1 = p1 ∧ (vexFormOf legacy p1 p2 reg op3).p2 = p2 ∧
      (vexFormOf legacy p1 p2 reg op3).dst.extractLsb' 0 3 = reg := by
  have key1 : ∀ p : Byte, p.extractLsb' 0 5 = 2#5 →
      (~~~(~~~(p.extractLsb' 7 1)) ++ BitVec.ofBool (!!p.getLsbD 6) ++ BitVec.ofBool (!!p.getLsbD 5) ++ 2#5 : BitVec 8) = p := by
    decide
  have key2 : ∀ p : Byte, p.extractLsb' 7 1 = 0#1 → p.extractLsb' 0 2 = 1#2 →
      (0#1 ++ ~~~(~~~(p.extractLsb' 3 4)) ++ BitVec.ofBool (p.getLsbD 2) ++ 1#2 : BitVec 8) = p := by
    decide
  have key3 : ∀ (d : BitVec 1) (r : BitVec 3), (d ++ r).extractLsb' 3 1 = d ∧ (d ++ r).extractLsb' 0 3 = r := by
    decide
  unfold vexMismatch at hfixed
  split at hfixed
  · cases hfixed
  next hmap =>
    split at hfixed
    · cases hfixed
    next hw =>
      split at hfixed
      · cases hfixed
      next hpp =>
        obtain ⟨hhigh, hlow⟩ := key3 (~~~(p1.extractLsb' 7 1)) reg
        refine ⟨?_, key2 p2 (not_not.1 hw) (not_not.1 hpp), hlow⟩
        simp only [VexForm.p1, vexFormOf, hhigh, hx, hb]
        exact key1 p1 (not_not.1 hmap)

/-- P0, P1, P2 and the reg field are those that the form read from them is encoded with, where the reserved bits are right. -/
theorem evexFormOf_bytes {p0 p1 : Byte} {op3 : Operand3} (legacy : List LegacyByte) (p2 : Byte) (reg : BitVec 3)
    (hfixed : evexMismatch p0 p1 = none) (hp0 : p0.getLsbD 3 = false) (hp1 : p1.getLsbD 2 = true)
    (hx : op3.x = !p0.getLsbD 6) (hb : op3.b = !p0.getLsbD 5) :
    (evexFormOf legacy p0 p1 p2 reg op3).p0 = p0 ∧ (evexFormOf legacy p0 p1 p2 reg op3).p1 = p1 ∧
      (evexFormOf legacy p0 p1 p2 reg op3).p2 = p2 ∧ (evexFormOf legacy p0 p1 p2 reg op3).dst.extractLsb' 0 3 = reg := by
  have key0 : ∀ p : Byte, p.extractLsb' 0 3 = 2#3 → p.getLsbD 3 = false →
      (~~~(~~~(p.extractLsb' 7 1)) ++ BitVec.ofBool (!!p.getLsbD 6) ++ BitVec.ofBool (!!p.getLsbD 5) ++
        ~~~(~~~(p.extractLsb' 4 1)) ++ 2#4 : BitVec 8) = p := by
    decide
  have key1 : ∀ p : Byte, p.extractLsb' 7 1 = 0#1 → p.extractLsb' 0 2 = 1#2 → p.getLsbD 2 = true →
      (0#1 ++ ~~~(~~~(p.extractLsb' 3 4)) ++ 1#1 ++ 1#2 : BitVec 8) = p := by
    decide
  have key2 : ∀ p : Byte, (BitVec.ofBool (p.getLsbD 7) ++ p.extractLsb' 5 2 ++ BitVec.ofBool (p.getLsbD 4) ++
      ~~~(~~~(p.extractLsb' 3 1)) ++ p.extractLsb' 0 3 : BitVec 8) = p := by
    decide
  have key3 : ∀ (d e : BitVec 1) (r : BitVec 3), (d ++ e ++ r).extractLsb' 4 1 = d ∧ (d ++ e ++ r).extractLsb' 3 1 = e ∧
      (d ++ e ++ r).extractLsb' 0 3 = r := by
    decide
  have key4 : ∀ (d : BitVec 1) (v : BitVec 4), (d ++ v).extractLsb' 4 1 = d ∧ (d ++ v).extractLsb' 0 4 = v := by
    decide
  unfold evexMismatch at hfixed
  split at hfixed
  · cases hfixed
  next hmap =>
    split at hfixed
    · cases hfixed
    next hw =>
      split at hfixed
      · cases hfixed
      next hpp =>
        obtain ⟨hd4, hd3, hlow⟩ := key3 (~~~(p0.extractLsb' 4 1)) (~~~(p0.extractLsb' 7 1)) reg
        obtain ⟨hs4, hs⟩ := key4 (~~~(p2.extractLsb' 3 1)) (~~~(p1.extractLsb' 3 4))
        refine ⟨?_, ?_, ?_, hlow⟩
        · simp only [EvexForm.p0, evexFormOf, hd4, hd3, hx, hb]
          exact key0 p0 (not_not.1 hmap) hp0
        · simp only [EvexForm.p1, evexFormOf, hs]
          exact key1 p1 (not_not.1 hw) (not_not.1 hpp) hp1
        · simp only [EvexForm.p2, evexFormOf, hs4]
          exact key2 p2

theorem of_vexChecks_eq_none {bad : Bool} {f : VexForm} (h : vexChecks bad f = none) : f.size ≤ 15 ∧ bad = false := by
  unfold vexChecks at h
  split at h
  · cases h
  next hsize => exact ⟨not_lt.1 hsize, by simpa using h⟩

theorem of_evexChecks_eq_none {bad : Bool} {p0 p1 : Byte} {f : EvexForm} (h : evexChecks bad p0 p1 f = none) :
    f.size ≤ 15 ∧ bad = false ∧ p0.getLsbD 3 = false ∧ p1.getLsbD 2 = true ∧ f.legal = true := by
  unfold evexChecks at h
  split at h
  · cases h
  next hsize =>
    split at h
    · cases h
    next hbad =>
      split at h
      · cases h
      next hbits =>
        simp only [Bool.or_eq_true, Bool.not_eq_true', not_or, Bool.not_eq_true, Bool.not_eq_false] at hbits
        exact ⟨not_lt.1 hsize, by simpa using hbad, hbits.1, hbits.2, by simpa using h⟩

/-- What the VEX decoder reads is well-formed, with nothing forbidden before it, and its bytes stand there. -/
theorem eq_of_decodeVex {m : CodeMode} {legacy : List LegacyByte} {bad : Bool} {p1 : Byte} {bs rest : List Byte} {i : Instr}
    (h : decodeVex m legacy bad p1 bs = .ok (i, rest)) :
    bad = false ∧ i.wf = true ∧ legacy.map LegacyByte.toByte ++ 0xC4#8 :: p1 :: bs = encode i ++ rest := by
  cases bs with
  | nil => cases h
  | cons p2 bs =>
    rw [decodeVex] at h
    split at h
    · cases h
    next hfixed =>
      split at h
      · cases h
      next o reg op3 rest' hop =>
        split at h
        · cases h
        next hchecks =>
          cases h
          obtain ⟨hwf, hx, hb, rfl⟩ := eq_of_takeOpcode hop
          obtain ⟨hsize, hbad⟩ := of_vexChecks_eq_none hchecks
          obtain ⟨hp1, hp2, hreg⟩ := vexFormOf_bytes legacy reg hfixed hx hb
          refine ⟨hbad, ?_, ?_⟩
          · rw [wf_ofVex, VexForm.wf_iff]
            exact ⟨hwf, hsize⟩
          · rw [encode_ofVex, encodeVex, hp1, hp2, hreg]
            simp [vexFormOf]

/-- What the EVEX decoder reads is well-formed, with nothing forbidden before it, and its bytes stand there. -/
theorem eq_of_decodeEvex {m : CodeMode} {legacy : List LegacyByte} {bad : Bool} {p0 : Byte} {bs rest : List Byte} {i : Instr}
    (h : decodeEvex m legacy bad p0 bs = .ok (i, rest)) :
    bad = false ∧ i.wf = true ∧ legacy.map LegacyByte.toByte ++ 0x62#8 :: p0 :: bs = encode i ++ rest := by
  unfold decodeEvex at h
  split at h
  next p1 p2 bs =>
    split at h
    · cases h
    next hfixed =>
      split at h
      · cases h
      next o reg op3 rest' hop =>
        split at h
        · cases h
        next hchecks =>
          cases h
          obtain ⟨hwf, hx, hb, rfl⟩ := eq_of_takeOpcode hop
          obtain ⟨hsize, hbad, hbit0, hbit1, hlegal⟩ := of_evexChecks_eq_none hchecks
          obtain ⟨hp0, hp1, hp2, hreg⟩ := evexFormOf_bytes legacy p2 reg hfixed hbit0 hbit1 hx hb
          refine ⟨hbad, ?_, ?_⟩
          · rw [wf_ofEvex, EvexForm.wf_iff]
            exact ⟨hwf, hlegal, hsize⟩
          · rw [encode_ofEvex, encodeEvex, hp0, hp1, hp2, hreg]
            simp [evexFormOf]
  · cases h

theorem encode_of_decode {m : CodeMode} {bytes rest : List Byte} {i : Instr} (h : decode m bytes = .ok (i, rest)) :
    i.wf = true ∧ bytes = encode i ++ rest := by
  unfold decode at h
  split at h
  · cases h
  next legacy found c bs hlegacy =>
    split at h
    · cases h
    next hc =>
      split at h
      · cases h
      next hstray =>
        split at h
        · cases h
        next p bs' =>
          have hclean (hbad : (found == .forbidden) = false) :
              bytes = legacy.map LegacyByte.toByte ++ c :: p :: bs' := by
            cases found with
            | clean => exact eq_of_takeLegacy_clean hlegacy
            | strayRex => exact (hstray rfl).elim
            | forbidden => cases hbad
          split at h
          · cases h
          · split at h
            next hvex =>
              obtain ⟨hbad, hwf, heq⟩ := eq_of_decodeVex h
              exact ⟨hwf, by rw [hclean hbad, hvex, heq]⟩
            next hvex =>
              obtain ⟨hbad, hwf, heq⟩ := eq_of_decodeEvex h
              have hevex : c = 0x62#8 := by simpa [isVexOrEvex, hvex] using hc
              exact ⟨hwf, by rw [hclean hbad, hevex, heq]⟩

/-- Settles O2: each part of the decoder reads bytes that are the encoding of what it answers, and its checks are those of
`Instr.wf`. -/
theorem decodedBytesAreTheEncoding : Obligations.DecodedBytesAreTheEncoding := by
  unfold Obligations.DecodedBytesAreTheEncoding
  exact fun m bytes i rest h => encode_of_decode h

/-- Settles O3: the example words of R79, R80, R81 and R123 are the encodings of well-formed instructions. -/
theorem examplesDecode : Obligations.ExamplesDecode := by
  unfold Obligations.ExamplesDecode
  have hread (bytes : List Byte) (i : Instr) (hwf : i.wf = true) (hbytes : bytes = encode i) :
      decode .long64 bytes = .ok (i, []) := by
    rw [hbytes, ← List.append_nil (encode i)]
    exact decode_encode [] hwf
  exact ⟨hread _ _ rfl rfl, hread _ _ rfl rfl, hread _ _ rfl rfl, hread _ _ rfl rfl⟩

end Sys2Proof
end

section
/-! PROOFS. What a step answers for the bytes at the program counter: the decoded instruction, #UD or #GP(0) of an encoding, a
refusal, or the stop of a byte that cannot be fetched. -/

namespace Sys2Proof

namespace Machine

/-! ### A step by what its bytes decode to -/

/-- Only the bytes' being too few makes the outcome depend on what stopped the fetch. -/
theorem decodeStop_of_ne_truncated {e : DecodeError} (he : e ≠ .truncated) (stop : Option Stop) :
    decodeStop stop e = decodeStop none e := by
  cases e with
  | truncated => exact (he rfl).elim
  | _ => rfl

theorem step_of_decode_error {s : State} {bytes : List Byte} {e : DecodeError} (hlength : bytes.length ≤ 15)
    (hfetch : s.FetchesBytes bytes) (hdecode : decode s.codeMode bytes = .error e) (he : e ≠ .truncated) :
    step s = (decodeStop none e).outcome s := by
  obtain ⟨stop, hstop⟩ := fetchInstr_of_error hlength hfetch hdecode he
  rw [step_of_fetch_error hstop, decodeStop_of_ne_truncated he]

theorem step_of_decode_ok {s : State} {bytes rest : List Byte} {i : Instr} (hlength : bytes.length ≤ 15)
    (hfetch : s.FetchesBytes bytes) (hdecode : decode s.codeMode bytes = .ok (i, rest)) :
    step s = afterInstr s.tf (exec i s) :=
  step_of_fetch_ok (fetchInstr_of_ok hlength hfetch hdecode)

/-- Settles O10: the bytes are at most 15, being the encoding of a well-formed instruction, and `afterInstr` adds the trap. -/
theorem stepRunsTheDecodedInstruction : Obligations.StepRunsTheDecodedInstruction := by
  unfold Obligations.StepRunsTheDecodedInstruction
  intro s bytes i hdecode hfetch
  obtain ⟨hwf, heq⟩ := encode_of_decode hdecode
  have hlength : bytes.length ≤ 15 := by
    rw [heq, List.append_nil, encode_length]
    exact Instr.size_le_of_wf hwf
  rw [step_of_decode_ok hlength hfetch hdecode]
  refine ⟨fun htf => ?_, fun htf t hnext => ?_, fun htf hother => ?_⟩
  · cases hr : exec i s <;> simp [afterInstr, htf]
  · rw [hnext, htf]
    rfl
  · cases hr : exec i s with
    | next t => exact (hother t hr).elim
    | fault f => rfl
    | refused r => rfl

end Machine

/-! ### Bytes before the prefix (R71, R92) -/

/-- A byte that step 1 of R87 passes over in 64-bit mode. -/
def IsPrefixByte (p : Byte) : Prop :=
  (∃ q : LegacyByte, p = q.toByte) ∨ isForbiddenByte p = true ∨ isRex p = true

theorem isForbiddenByte_iff (p : Byte) :
    isForbiddenByte p = true ↔ p = 0xF0#8 ∨ p = 0x66#8 ∨ p = 0xF2#8 ∨ p = 0xF3#8 := by
  simp [isForbiddenByte, or_assoc]

theorem isRex_iff (p : Byte) : isRex p = true ↔ 0x40#8 ≤ p ∧ p ≤ 0x4F#8 := by
  revert p
  decide

/-- The three kinds of prefix bytes have none in common. -/
theorem LegacyByte.toByte_not_forbidden (q : LegacyByte) : isForbiddenByte q.toByte = false ∧ isRex q.toByte = false := by
  cases q <;> decide

theorem ofByte_of_forbidden {p : Byte} (h : isForbiddenByte p = true) : LegacyByte.ofByte p = none ∧ isRex p = false := by
  revert p
  decide

theorem ofByte_of_rex {p : Byte} (h : isRex p = true) : LegacyByte.ofByte p = none ∧ isForbiddenByte p = false := by
  revert p
  decide

/-- `before` shows a forbidden byte of R92, given whether C4H or 62H follows it. -/
def Forbids (before : List Byte) (vexFollows : Bool) : Prop :=
  (∃ p ∈ before, isForbiddenByte p = true) ∨
    (vexFollows = true ∧ ∃ p, before.getLast? = some p ∧ isRex p = true)

/-- Past a byte that is neither forbidden nor the last REX byte, what forbids stands in the rest. -/
theorem Forbids.tail {b : Byte} {bs : List Byte} {vexFollows : Bool} (h : Forbids (b :: bs) vexFollows)
    (hb : isForbiddenByte b = false) (hlast : bs = [] → vexFollows = true → isRex b = false) : Forbids bs vexFollows := by
  rcases h with ⟨p, hp, hforbidden⟩ | ⟨hvex, p, hp, hrex⟩
  · rcases List.mem_cons.1 hp with rfl | hmem
    · rw [hb] at hforbidden
      cases hforbidden
    · exact .inl ⟨p, hmem, hforbidden⟩
  · cases bs with
    | nil =>
      obtain rfl : b = p := by simpa using hp
      rw [hlast rfl hvex] at hrex
      cases hrex
    | cons c cs => exact .inr ⟨hvex, p, by simpa using hp, hrex⟩

/-- Step 1 passes over prefix bytes, keeps at most as many legacy bytes, and notices what R92 forbids. -/
theorem takeLegacy_prefixBytes {before bs rest : List Byte} {ps : List LegacyByte} {found : PrefixCheck}
    (hbefore : ∀ p ∈ before, IsPrefixByte p) (h : takeLegacy true bs = (ps, found, rest)) :
    ∃ qs found', takeLegacy true (before ++ bs) = (qs ++ ps, found', rest) ∧ qs.length ≤ before.length ∧
      (Forbids before (startsVexOrEvex bs) → found' = .forbidden) := by
  induction before with
  | nil =>
    refine ⟨[], found, h, le_rfl, ?_⟩
    rintro (⟨p, hp, -⟩ | ⟨-, p, hp, -⟩) <;> cases hp
  | cons b before ih =>
    obtain ⟨qs, found', htake, hlength, hforbids⟩ := ih fun p hp => hbefore p (List.mem_cons_of_mem _ hp)
    rw [List.cons_append, takeLegacy, htake]
    rcases hbefore b List.mem_cons_self with ⟨q, rfl⟩ | hb | hb
    · obtain ⟨hnotForbidden, hnotRex⟩ := q.toByte_not_forbidden
      exact ⟨q :: qs, found', by simp, by simpa using hlength,
        fun hf => hforbids (hf.tail hnotForbidden fun _ _ => hnotRex)⟩
    · exact ⟨qs, .forbidden, by simp [ofByte_of_forbidden hb, hb], hlength.trans (Nat.le_succ _), fun _ => rfl⟩
    · obtain ⟨hnone, hnotForbidden⟩ := ofByte_of_rex hb
      refine ⟨qs, found'.afterRex (startsVexOrEvex (before ++ bs)), by simp [hnone, hnotForbidden, hb],
        hlength.trans (Nat.le_succ _), fun hf => ?_⟩
      by_cases hlast : before = [] ∧ startsVexOrEvex bs = true
      · obtain ⟨rfl, hvex⟩ := hlast
        rw [List.nil_append, hvex]
        cases found' <;> rfl
      · rw [hforbids (hf.tail hnotForbidden fun hnil hvex => (hlast ⟨hnil, hvex⟩).elim)]
        rfl

/-! ### The bytes of a form with other legacy bytes -/

/-- What the last checks reject in 64-bit mode, whatever step 1 has made of the bytes before the VEX prefix. -/
theorem decode_vex_error {bytes rest : List Byte} {legacy : List LegacyByte} {found : PrefixCheck} {o : Opcode}
    {f : VexForm} {e : DecodeError} (hlegacy : takeLegacy true bytes =
      (legacy, found, 0xC4#8 :: f.p1 :: f.p2 :: o.toByte :: (modRMBytes (f.dst.extractLsb' 0 3) f.op3 ++ rest)))
    (hstray : found ≠ .strayRex) (hop3 : f.op3.wf = true)
    (hchecks : vexChecks (found == .forbidden) { f with legacy := legacy } = some e) :
    decode .long64 bytes = .error e := by
  rw [decode_of_takeLegacy_vex (m := .long64) hlegacy hstray, isLesOrBound_long, if_neg Bool.false_ne_true]
  exact decodeVex_bytes_error o (f := { f with legacy := legacy }) rest hop3 hchecks

/-- The same before the EVEX prefix. -/
theorem decode_evex_error {bytes rest : List Byte} {legacy : List LegacyByte} {found : PrefixCheck} {o : Opcode}
    {f : EvexForm} {e : DecodeError} (hlegacy : takeLegacy true bytes =
      (legacy, found, 0x62#8 :: f.p0 :: f.p1 :: f.p2 :: o.toByte :: (modRMBytes (f.dst.extractLsb' 0 3) f.op3 ++ rest)))
    (hstray : found ≠ .strayRex) (hop3 : f.op3.wf = true)
    (hchecks : evexChecks (found == .forbidden) f.p0 f.p1 { f with legacy := legacy } = some e) :
    decode .long64 bytes = .error e := by
  rw [decode_of_takeLegacy_evex (m := .long64) hlegacy hstray, isLesOrBound_long, if_neg Bool.false_ne_true]
  exact decodeEvex_bytes_error o (f := { f with legacy := legacy }) rest hop3 hchecks

/-- The size of a form with other legacy bytes. -/
theorem VexForm.size_setLegacy (f : VexForm) (qs : List LegacyByte) :
    VexForm.size { f with legacy := qs ++ f.legacy } = qs.length + f.size := by
  simp only [VexForm.size, List.length_append]
  omega

theorem EvexForm.size_setLegacy (f : EvexForm) (qs : List LegacyByte) :
    EvexForm.size { f with legacy := qs ++ f.legacy } = qs.length + f.size := by
  simp only [EvexForm.size, List.length_append]
  omega

theorem vexChecks_forbidden {f : VexForm} (h : f.size ≤ 15) : vexChecks true f = some .forbiddenLegacy := by
  simp [vexChecks, h]

theorem evexChecks_forbidden {f : EvexForm} (p0 p1 : Byte) (h : f.size ≤ 15) :
    evexChecks true p0 p1 f = some .forbiddenLegacy := by
  simp [evexChecks, h]

theorem vexChecks_tooLong {f : VexForm} (bad : Bool) (h : 15 < f.size) : vexChecks bad f = some .tooLong := by
  simp [vexChecks, h]

theorem evexChecks_tooLong {f : EvexForm} (bad : Bool) (p0 p1 : Byte) (h : 15 < f.size) :
    evexChecks bad p0 p1 f = some .tooLong := by
  simp [evexChecks, h]

/-- An instruction within 15 bytes is rejected where the bytes before it show a byte of R92. -/
theorem decode_forbidden {before : List Byte} {i : Instr} (hwf : i.wf = true) (hbefore : ∀ p ∈ before, IsPrefixByte p)
    (hforbids : Forbids before (decide (i.legacy = []))) (hsize : before.length + i.size ≤ 15) :
    decode .long64 (before ++ encode i) = .error .forbiddenLegacy := by
  have hfollows {legacy : List LegacyByte} {c : Byte} {bs : List Byte} (hc : isVexOrEvex c = true)
      (h : Forbids before (decide (legacy = []))) :
      Forbids before (startsVexOrEvex (legacy.map LegacyByte.toByte ++ c :: bs)) := by
    refine h.imp_right fun ⟨hnil, hlast⟩ => ⟨?_, hlast⟩
    rw [of_decide_eq_true hnil]
    exact hc
  obtain ⟨o, f, rfl⟩ | ⟨o, f, rfl⟩ := i.eq_ofVex_or_ofEvex
  · rw [wf_ofVex, VexForm.wf_iff] at hwf
    rw [Machine.size_ofVex] at hsize
    rw [legacy_ofVex] at hforbids
    obtain ⟨qs, found, htake, hlength, hfound⟩ :=
      takeLegacy_prefixBytes hbefore (takeLegacy_map true f.legacy 0xC4#8
        (f.p1 :: f.p2 :: o.toByte :: modRMBytes (f.dst.extractLsb' 0 3) f.op3) rfl)
    obtain rfl := hfound (hfollows rfl hforbids)
    rw [encode_ofVex, encodeVex]
    refine decode_vex_error (found := .forbidden) (rest := []) (by rw [htake, List.append_nil]) (by decide) hwf.1 (vexChecks_forbidden ?_)
    rw [f.size_setLegacy qs]
    omega
  · rw [wf_ofEvex, EvexForm.wf_iff] at hwf
    rw [Machine.size_ofEvex] at hsize
    rw [legacy_ofEvex] at hforbids
    obtain ⟨qs, found, htake, hlength, hfound⟩ :=
      takeLegacy_prefixBytes hbefore (takeLegacy_map true f.legacy 0x62#8
        (f.p0 :: f.p1 :: f.p2 :: o.toByte :: modRMBytes (f.dst.extractLsb' 0 3) f.op3) rfl)
    obtain rfl := hfound (hfollows rfl hforbids)
    rw [encode_ofEvex, encodeEvex]
    refine decode_evex_error (found := .forbidden) (rest := []) (by rw [htake, List.append_nil]) (by decide) hwf.1
      (evexChecks_forbidden _ _ ?_)
    rw [f.size_setLegacy qs]
    omega

/-- Legacy bytes that make an instruction longer than 15 bytes make it rejected for that. -/
theorem decode_tooLong {before : List LegacyByte} {i : Instr} (hwf : i.wf = true) (hsize : 15 < before.length + i.size) :
    decode .long64 (before.map LegacyByte.toByte ++ encode i) = .error .tooLong := by
  obtain ⟨o, f, rfl⟩ | ⟨o, f, rfl⟩ := i.eq_ofVex_or_ofEvex
  · rw [wf_ofVex, VexForm.wf_iff] at hwf
    rw [Machine.size_ofVex] at hsize
    rw [encode_ofVex, encodeVex, ← List.append_assoc, ← List.map_append]
    refine decode_vex_error (rest := []) ((takeLegacy_map true _ 0xC4#8 _ rfl).trans (by rw [List.append_nil])) (by decide)
      hwf.1 (vexChecks_tooLong _ ?_)
    rwa [f.size_setLegacy before]
  · rw [wf_ofEvex, EvexForm.wf_iff] at hwf
    rw [Machine.size_ofEvex] at hsize
    rw [encode_ofEvex, encodeEvex, ← List.append_assoc, ← List.map_append]
    refine decode_evex_error (rest := []) ((takeLegacy_map true _ 0x62#8 _ rfl).trans (by rw [List.append_nil])) (by decide)
      hwf.1 (evexChecks_tooLong _ _ _ ?_)
    rwa [f.size_setLegacy before]

namespace Machine

/-- Settles O5: step 1 passes over the bytes and notices the forbidden one, the instruction behind them is read whole, and the
last checks reject it for that byte. -/
theorem forbiddenLegacyByteRaisesUD : Obligations.ForbiddenLegacyByteRaisesUD := by
  unfold Obligations.ForbiddenLegacyByteRaisesUD
  intro s before i h64 hwf forbidden rex hbefore hforbids hsize hfetch
  have hprefix : ∀ p ∈ before, IsPrefixByte p := fun p hp =>
    (hbefore p hp).imp_right (Or.imp (isForbiddenByte_iff p).2 (isRex_iff p).2)
  have hforbids' : Forbids before (decide (i.legacy = [])) := by
    rcases hforbids with ⟨p, hp, hf⟩ | ⟨hnil, p, hp, hr⟩
    · exact .inl ⟨p, hp, (isForbiddenByte_iff p).2 hf⟩
    · exact .inr ⟨decide_eq_true hnil, p, hp, (isRex_iff p).2 hr⟩
  have hdecode := decode_forbidden hwf hprefix hforbids' hsize
  rw [← State.codeMode_long h64] at hdecode
  have hlength : (before ++ encode i).length ≤ 15 := by
    rwa [List.length_append, encode_length]
  exact ⟨step_of_decode_error hlength hfetch hdecode (by decide), rfl⟩

/-- Each of the settings that R84 and R85 name is illegal. -/
theorem legal_eq_false_of_setting {f : EvexForm}
    (h : (f.b = true ∧ ∃ x b a, f.op3 = .mem x b a) ∨ (f.b = false ∧ f.ll = 3#2) ∨ (f.z = true ∧ f.aaa = 0#3)) :
    f.legal = false := by
  rcases h with ⟨hb, x, b, a, hop3⟩ | ⟨hb, hll⟩ | ⟨hz, haaa⟩
  · simp [EvexForm.legal, hb, hop3, Operand3.isReg]
  · simp [EvexForm.legal, hb, hll]
  · simp [EvexForm.legal, hz, haaa]

theorem evexChecks_illegal {f : EvexForm} (hsize : f.size ≤ 15) (hlegal : f.legal = false) :
    evexChecks false f.p0 f.p1 f = some .evexSetting := by
  obtain ⟨-, hp0, -⟩ := f.p0_fields
  obtain ⟨-, -, hp1, -⟩ := f.p1_fields
  simp only [evexChecks, if_neg hsize.not_gt, hlegal, hp0, hp1, Bool.not_true, Bool.not_false, Bool.or_self,
    Bool.false_eq_true, if_false, if_true]

/-- Settles O7: the form is read whole and rejected for its setting. -/
theorem illegalEvexSettingRaisesUD : Obligations.IllegalEvexSettingRaisesUD := by
  unfold Obligations.IllegalEvexSettingRaisesUD
  intro s o f h64 hop3 hsize hsetting hfetch
  have hdecode : decode .long64 (encodeEvex o.toByte f) = .error .evexSetting :=
    decode_evex_error (legacy := f.legacy) (found := .clean) (rest := [])
      ((takeLegacy_map true _ 0x62#8 _ rfl).trans (by rw [List.append_nil])) (by decide) hop3
      (evexChecks_illegal hsize (legal_eq_false_of_setting hsetting))
  rw [← State.codeMode_long h64] at hdecode
  exact step_of_decode_error ((encodeEvex_length _ f).trans_le hsize) hfetch hdecode (by decide)

/-- Fifteen bytes that can be fetched are all that the fetch gives. -/
theorem fetchBytes_full {s : State} {bytes : List Byte} (hlength : bytes.length = 15) (hfetch : s.FetchesBytes bytes) :
    fetchBytes s 15 0 = (bytes, none) := by
  have h := fetchBytes_of_ok s bytes 15 0 hlength.le (fun k hk => by simpa using hfetch k hk)
  simpa [hlength, fetchBytes] using h

/-- Settles O8: with more bytes the decoder would answer that the instruction is too long; on the first 15 it answers that or asks
for more, and both raise #GP(0). -/
theorem tooLongRaisesGP : Obligations.TooLongRaisesGP := by
  unfold Obligations.TooLongRaisesGP
  intro s before i h64 hwf hsize hfetch
  refine ⟨?_, rfl, rfl⟩
  have hwhole := decode_tooLong hwf hsize
  have hlength : ((before.map LegacyByte.toByte ++ encode i).take 15).length = 15 := by
    rw [List.length_take, List.length_append, List.length_map, encode_length]
    omega
  have hstop : fetchInstr s = .error (.raises .gp) := by
    simp only [fetchInstr, fetchBytes_full hlength hfetch, State.codeMode_long h64]
    rw [← List.take_append_drop 15 (before.map LegacyByte.toByte ++ encode i)] at hwhole
    rcases decode_spec .long64 ((before.map LegacyByte.toByte ++ encode i).take 15)
        ((before.map LegacyByte.toByte ++ encode i).drop 15) with ⟨i', rest, -, h⟩ | h | ⟨e, h1, h2⟩
    · rw [hwhole] at h
      cases h
    · rw [h]
      rfl
    · rw [hwhole] at h2
      cases h2
      rw [h1]
      rfl
  rw [step_of_fetch_error hstop]
  rfl

/-! ### A byte that cannot be fetched (R57, R66, R207) -/

/-- A strict beginning of an encoding leaves the decoder asking for more. -/
theorem decode_take_encode {i : Instr} {k : Nat} (hwf : i.wf = true) (hk : k < i.size) :
    decode .long64 ((encode i).take k) = .error .truncated := by
  have hwhole := decode_encode [] hwf
  rw [List.append_nil, ← List.take_append_drop k (encode i)] at hwhole
  rcases decode_spec .long64 ((encode i).take k) ((encode i).drop k) with ⟨i', rest, -, h⟩ | h | ⟨e, -, h⟩
  · rw [hwhole] at h
    simp only [Except.ok.injEq, Prod.mk.injEq] at h
    have hnil := (List.append_eq_nil_iff.1 h.2.symm).2
    rw [List.drop_eq_nil_iff, encode_length] at hnil
    omega
  · exact h
  · rw [hwhole] at h
    cases h

/-- What stops byte `k` of an instruction whose earlier bytes are fetched is the outcome of the step. -/
theorem step_of_fetchByte_error {s : State} {i : Instr} {k : Nat} {st : Stop} (h64 : s.is64 = true) (hwf : i.wf = true)
    (hk : k < i.size) (hbefore : ∀ j, j < k → ∃ b, (encode i)[j]? = some b ∧ fetchByte s j = .ok b)
    (hstop : fetchByte s k = .error st) : step s = st.outcome s := by
  have hlength : ((encode i).take k).length = k := by
    rw [List.length_take, encode_length]
    omega
  have hfetched : fetchBytes s 15 0 = ((encode i).take k, some st) := by
    refine fetchBytes_of_stop s _ st 15 0 ?_ (fun j hj => ?_) (by rwa [hlength, Nat.zero_add])
    · have := Instr.size_le_of_wf hwf
      omega
    · obtain ⟨b, hb, hfetch⟩ := hbefore j (by omega)
      rw [Nat.zero_add, hfetch, List.getElem_take]
      rw [List.getElem?_eq_some_iff] at hb
      obtain ⟨_, rfl⟩ := hb
      rfl
  have hinstr : fetchInstr s = .error st := by
    simp only [fetchInstr, hfetched, State.codeMode_long h64, decode_take_encode hwf hk]
    rfl
  exact step_of_fetch_error hinstr

/-- The bits of a page-fault code (R189): W/R and bit 6 are clear, the others say what their names say. -/
theorem faultCode_bits (p : PageAttr) (kind : AccessKind) (cpl3 : Bool) :
    (p.faultCode kind cpl3).getLsbD 0 = p.present ∧ (p.faultCode kind cpl3).getLsbD 1 = false ∧
      (p.faultCode kind cpl3).getLsbD 2 = cpl3 ∧ (p.faultCode kind cpl3).getLsbD 4 = (kind == .fetch) ∧
      (p.faultCode kind cpl3).getLsbD 6 = false := by
  have key : ∀ sgx pk id rsvd us present : Bool,
      let code : BitVec 32 := (BitVec.ofBool sgx ++ 0#9 ++ BitVec.ofBool pk ++ BitVec.ofBool id ++ BitVec.ofBool rsvd ++
        BitVec.ofBool us ++ 0#1 ++ BitVec.ofBool present).setWidth 32
      code.getLsbD 0 = present ∧ code.getLsbD 1 = false ∧ code.getLsbD 2 = us ∧ code.getLsbD 4 = id ∧
        code.getLsbD 6 = false := by decide
  exact key _ _ _ _ _ _

/-- A page that denies an access answers with its code at the privilege level of the access. -/
theorem pageFaultAt_eq_some {s : State} {kind : AccessKind} {a : Word64} {code : BitVec 32}
    (h : s.pageFaultAt kind a = some code) : code = (s.attrAt a).faultCode kind (s.cpl == 3#2) := by
  simp only [State.pageFaultAt] at h
  split at h
  · cases h
    rfl
  · cases h

/-- Settles O11: each clause evaluates the fetch of byte `k`, whose stop is the outcome of the step. -/
theorem fetchFaultComesFirst : Obligations.FetchFaultComesFirst := by
  unfold Obligations.FetchFaultComesFirst
  intro s i k h64 hwf hk hbefore a
  have hstep {st : Stop} (hstop : fetchByte s k = .error st) : step s = st.outcome s :=
    step_of_fetchByte_error h64 hwf hk hbefore hstop
  have haddress : s.fetchAddress k = a := by simp [State.fetchAddress, h64, a]
  refine ⟨fun hcanonical => ?_, fun hcanonical hprogram => ?_, fun hcanonical hprogram => ?_⟩
  · exact hstep (st := .raises .gp) (by simp [fetchByte, haddress, h64, hcanonical])
  · exact hstep (st := .refuses .endOfProgram) (by simp [fetchByte, haddress, hcanonical, hprogram])
  · have horacle {st : Stop} (hst : s.fetchStop a = some st) : step s = st.outcome s :=
      hstep (by simp [fetchByte, haddress, hcanonical, hprogram, hst])
    refine ⟨fun code addr hanswer => ?_, fun reason hanswer => ?_, fun hanswer code hcode => ⟨?_, ?_⟩, fun hallowed hdevice => ?_⟩
    · exact horacle (st := .raises (.pf code (addr.getD a))) (by simp [State.fetchStop, State.accessStop, hanswer])
    · exact horacle (st := .refuses (.oracleRefuses reason)) (by simp [State.fetchStop, State.accessStop, hanswer])
    · exact horacle (st := .raises (.pf code a))
        (by simp [State.fetchStop, State.accessStop, State.fetchPageFault, hanswer, hcode])
    · obtain ⟨-, hwrite, huser, hfetch, -⟩ := faultCode_bits (s.attrAt a) .fetch (s.cpl == 3#2)
      rw [pageFaultAt_eq_some hcode]
      exact ⟨hfetch, hwrite, huser⟩
    · refine horacle (st := .refuses .deviceMemory) ?_
      rcases hallowed with hok | ⟨hnone, hpage⟩
      · simp [State.fetchStop, State.accessStop, State.deviceStop, hok, hdevice]
      · simp [State.fetchStop, State.accessStop, State.deviceStop, State.fetchPageFault, hnone, hpage, hdevice]

end Machine

/-! ### Neighbouring encodings (R90, R96 to R98) -/

/-- A byte that is no prefix byte ends step 1. -/
theorem takeLegacy_cons_other {long : Bool} {c : Byte} (bs : List Byte) (hlegacy : ∀ p : LegacyByte, c ≠ p.toByte)
    (hforbidden : isForbiddenByte c = false) (hrex : long = true → isRex c = false) :
    takeLegacy long (c :: bs) = ([], .clean, c :: bs) := by
  have hnone : LegacyByte.ofByte c = none := by
    cases h : LegacyByte.ofByte c with
    | none => rfl
    | some p => exact (hlegacy p (LegacyByte.toByte_of_ofByte h).symm).elim
  have hrex' : (long && isRex c) = false := by simpa using hrex
  simp [takeLegacy, hnone, hforbidden, hrex']

/-- Legacy bytes before it are kept, in every mode. -/
theorem takeLegacy_map_append {long : Bool} {bs rest : List Byte} (legacy : List LegacyByte)
    (h : takeLegacy long bs = ([], .clean, rest)) :
    takeLegacy long (legacy.map LegacyByte.toByte ++ bs) = (legacy, .clean, rest) := by
  induction legacy with
  | nil => exact h
  | cons p ps ih => simp [takeLegacy, ih]

/-- In every mode, legacy bytes and C4H lead to LES or to the VEX decoder. -/
theorem decode_legacy_vex (m : CodeMode) (legacy : List LegacyByte) (p : Byte) (bs : List Byte) :
    decode m (legacy.map LegacyByte.toByte ++ 0xC4#8 :: p :: bs) =
      if isLesOrBound m p then .error .lesOrBound else decodeVex m legacy false p bs :=
  decode_of_takeLegacy_vex (takeLegacy_map _ legacy 0xC4#8 (p :: bs) rfl) (by decide)

/-- In every mode, legacy bytes and 62H lead to BOUND or to the EVEX decoder. -/
theorem decode_legacy_evex (m : CodeMode) (legacy : List LegacyByte) (p : Byte) (bs : List Byte) :
    decode m (legacy.map LegacyByte.toByte ++ 0x62#8 :: p :: bs) =
      if isLesOrBound m p then .error .lesOrBound else decodeEvex m legacy false p bs :=
  decode_of_takeLegacy_evex (takeLegacy_map _ legacy 0x62#8 (p :: bs) rfl) (by decide)

namespace Machine

/-- An error for which the model refuses the bytes as none of its forms (R98), whatever stopped the fetch. -/
def IsRefusal (e : DecodeError) : Prop := ∀ stop, decodeStop stop e = .refuses (.notInSpec e)

theorem step_of_decode_refusal {s : State} {bytes : List Byte} {e : DecodeError} (hlength : bytes.length ≤ 15)
    (hfetch : s.FetchesBytes bytes) (hdecode : decode s.codeMode bytes = .error e) (he : IsRefusal e) :
    step s = .refused (.notInSpec e) := by
  have hne : e ≠ .truncated := by
    rintro rfl
    cases he none
  rw [step_of_decode_error hlength hfetch hdecode hne, he]
  rfl

theorem vexMismatch_isRefusal {p1 p2 : Byte} {e : DecodeError} (h : vexMismatch p1 p2 = some e) : IsRefusal e := by
  unfold vexMismatch at h
  split at h
  · cases h
    exact fun _ => rfl
  · split at h
    · cases h
      exact fun _ => rfl
    · split at h
      · cases h
        exact fun _ => rfl
      · cases h

theorem evexMismatch_isRefusal {p0 p1 : Byte} {e : DecodeError} (h : evexMismatch p0 p1 = some e) : IsRefusal e := by
  unfold evexMismatch at h
  split at h
  · cases h
    exact fun _ => rfl
  · split at h
    · cases h
      exact fun _ => rfl
    · split at h
      · cases h
        exact fun _ => rfl
      · cases h

/-- A wrong fixed field is found. -/
theorem exists_vexMismatch {p1 p2 : Byte}
    (h : p1.extractLsb' 0 5 ≠ 2#5 ∨ p2.getLsbD 7 = true ∨ p2.extractLsb' 0 2 ≠ 1#2) : ∃ e, vexMismatch p1 p2 = some e := by
  have hw : ∀ p : Byte, p.getLsbD 7 = true → p.extractLsb' 7 1 ≠ 0#1 := by decide
  unfold vexMismatch
  split
  · exact ⟨_, rfl⟩
  next hmap =>
    split
    · exact ⟨_, rfl⟩
    next hzero =>
      rw [if_pos ((h.resolve_left hmap).resolve_left fun h7 => hzero (hw _ h7))]
      exact ⟨_, rfl⟩

theorem exists_evexMismatch {p0 p1 : Byte}
    (h : p0.extractLsb' 0 3 ≠ 2#3 ∨ p1.getLsbD 7 = true ∨ p1.extractLsb' 0 2 ≠ 1#2) : ∃ e, evexMismatch p0 p1 = some e := by
  have hw : ∀ p : Byte, p.getLsbD 7 = true → p.extractLsb' 7 1 ≠ 0#1 := by decide
  unfold evexMismatch
  split
  · exact ⟨_, rfl⟩
  next hmap =>
    split
    · exact ⟨_, rfl⟩
    next hzero =>
      rw [if_pos ((h.resolve_left hmap).resolve_left fun h7 => hzero (hw _ h7))]
      exact ⟨_, rfl⟩

/-- Another opcode byte is found before ModRM is asked for. -/
theorem takeOpcode_otherOpcode (m : CodeMode) (legacy : List LegacyByte) (x b : Bool) {op : Byte} (bs : List Byte)
    (h : op ≠ 0x99#8 ∧ op ≠ 0xA9#8 ∧ op ≠ 0xB9#8) : takeOpcode m legacy x b (op :: bs) = .error .otherOpcode := by
  simp [takeOpcode, Opcode.ofByte, h]

/-- A memory form of the 16-bit table is found at its ModRM byte, unless the opcode byte is another one. -/
theorem takeOpcode_addressing16 {m : CodeMode} {legacy : List LegacyByte} (x b : Bool) (op : Byte) {modrm : Byte}
    (bs : List Byte) (hm : m ≠ .legacy) (h16 : uses16BitTable m legacy = true) (hmem : modrm.extractLsb' 6 2 ≠ 3#2) :
    ∃ e, takeOpcode m legacy x b (op :: modrm :: bs) = .error e ∧ IsRefusal e := by
  rw [takeOpcode]
  cases Opcode.ofByte op with
  | none => exact ⟨_, rfl, fun _ => rfl⟩
  | some o => exact ⟨.addressing16, by simp [hm, takeModRM, hmem, h16], fun _ => rfl⟩

/-- C4H and P1 lead to a refusal where the VEX decoder refuses. -/
theorem decode_vex_refusal {m : CodeMode} (legacy : List LegacyByte) {p1 : Byte} {bs : List Byte}
    (h : ∃ e, decodeVex m legacy false p1 bs = .error e ∧ IsRefusal e) :
    ∃ e, decode m (legacy.map LegacyByte.toByte ++ 0xC4#8 :: p1 :: bs) = .error e ∧ IsRefusal e := by
  rw [decode_legacy_vex]
  split
  · exact ⟨_, rfl, fun _ => rfl⟩
  · exact h

theorem decode_evex_refusal {m : CodeMode} (legacy : List LegacyByte) {p0 : Byte} {bs : List Byte}
    (h : ∃ e, decodeEvex m legacy false p0 bs = .error e ∧ IsRefusal e) :
    ∃ e, decode m (legacy.map LegacyByte.toByte ++ 0x62#8 :: p0 :: bs) = .error e ∧ IsRefusal e := by
  rw [decode_legacy_evex]
  split
  · exact ⟨_, rfl, fun _ => rfl⟩
  · exact h

/-- The VEX decoder refuses where a fixed field or what follows P2 is refused. -/
theorem decodeVex_refusal (m : CodeMode) (legacy : List LegacyByte) (p1 p2 : Byte) (bs : List Byte)
    (h : (∃ e, vexMismatch p1 p2 = some e) ∨
      ∀ x b, ∃ e, takeOpcode m legacy x b bs = .error e ∧ IsRefusal e) :
    ∃ e, decodeVex m legacy false p1 (p2 :: bs) = .error e ∧ IsRefusal e := by
  rw [decodeVex]
  cases hfixed : vexMismatch p1 p2 with
  | some e => exact ⟨e, rfl, vexMismatch_isRefusal hfixed⟩
  | none =>
    rcases h with ⟨e, he⟩ | hop
    · rw [he] at hfixed
      cases hfixed
    · obtain ⟨e, he, hrefusal⟩ := hop (!p1.getLsbD 6) (!p1.getLsbD 5)
      simp only [he]
      exact ⟨e, rfl, hrefusal⟩

theorem decodeEvex_refusal (m : CodeMode) (legacy : List LegacyByte) (p0 p1 p2 : Byte) (bs : List Byte)
    (h : (∃ e, evexMismatch p0 p1 = some e) ∨
      ∀ x b, ∃ e, takeOpcode m legacy x b bs = .error e ∧ IsRefusal e) :
    ∃ e, decodeEvex m legacy false p0 (p1 :: p2 :: bs) = .error e ∧ IsRefusal e := by
  rw [decodeEvex]
  cases hfixed : evexMismatch p0 p1 with
  | some e => exact ⟨e, rfl, evexMismatch_isRefusal hfixed⟩
  | none =>
    rcases h with ⟨e, he⟩ | hop
    · rw [he] at hfixed
      cases hfixed
    · obtain ⟨e, he, hrefusal⟩ := hop (!p0.getLsbD 6) (!p0.getLsbD 5)
      simp only [he]
      exact ⟨e, rfl, hrefusal⟩

theorem State.codeMode_protected {s : State} (h : s.mode = .protected32) : s.codeMode = .prot s.cs16 := by
  simp [State.codeMode, h]

theorem State.codeMode_legacy {s : State} (h : s.mode = .realAddress ∨ s.mode = .virtual8086) : s.codeMode = .legacy := by
  rcases h with h | h <;> simp [State.codeMode, h]

theorem State.codeMode_eq_long_iff (s : State) : s.codeMode = .long64 ↔ s.is64 = true := by
  unfold State.codeMode State.is64
  cases s.mode <;> simp

/-- Where the code segment's size and 67H differ, 32-bit mode uses the 16-bit table. -/
theorem uses16BitTable_protected {s : State} {legacy : List LegacyByte} (h : s.mode = .protected32)
    (h16 : s.cs16 ≠ legacy.contains .addrSize) : s.codeMode ≠ .legacy ∧ uses16BitTable s.codeMode legacy = true := by
  rw [State.codeMode_protected h]
  exact ⟨by simp, bne_iff_ne.2 h16⟩

/-- Settles O9: each clause names the first byte at which the decoder tells the bytes from those of the forms. -/
theorem neighboursAreRefused : Obligations.NeighboursAreRefused := by
  unfold Obligations.NeighboursAreRefused
  intro s legacy before
  have hlength {bytes : List Byte} (h : legacy.length + bytes.length ≤ 15) : (before ++ bytes).length ≤ 15 := by
    simpa [before] using h
  have hrefuse {bytes : List Byte} (hfetch : s.FetchesBytes (before ++ bytes)) (hl : legacy.length + bytes.length ≤ 15)
      (h : ∃ e, decode s.codeMode (before ++ bytes) = .error e ∧ IsRefusal e) : ∃ why, step s = .refused (.notInSpec why) := by
    obtain ⟨e, hdecode, he⟩ := h
    exact ⟨e, step_of_decode_refusal (hlength hl) hfetch hdecode he⟩
  refine ⟨fun q0 q1 hl hfetch hfield => ?_, fun q0 q1 q2 hl hfetch hfield => ?_, fun q0 q1 op hl hfetch hop => ?_,
    fun q0 q1 q2 op hl hfetch hop => ?_, fun c q0 h64 hl hc hfetch htop => ?_,
    fun q0 q1 op modrm hmode h16 hl hfetch hmem => ?_, fun q0 q1 q2 op modrm hmode h16 hl hfetch hmem => ?_,
    fun c hl hfetch hvex hevex hlegacy hforbidden hrex => ?_⟩
  · exact hrefuse hfetch hl
      (decode_vex_refusal legacy (decodeVex_refusal _ _ _ _ _ (.inl (exists_vexMismatch hfield))))
  · exact hrefuse hfetch hl
      (decode_evex_refusal legacy (decodeEvex_refusal _ _ _ _ _ _ (.inl (exists_evexMismatch hfield))))
  · exact hrefuse hfetch hl (decode_vex_refusal legacy (decodeVex_refusal _ _ _ _ _
      (.inr fun x b => ⟨_, takeOpcode_otherOpcode _ _ x b [] hop, fun _ => rfl⟩)))
  · exact hrefuse hfetch hl (decode_evex_refusal legacy (decodeEvex_refusal _ _ _ _ _ _
      (.inr fun x b => ⟨_, takeOpcode_otherOpcode _ _ x b [] hop, fun _ => rfl⟩)))
  · have hm : s.codeMode ≠ .long64 := by
      rw [Ne, State.codeMode_eq_long_iff, h64]
      exact Bool.false_ne_true
    have hles : isLesOrBound s.codeMode q0 = true := by simp [isLesOrBound, hm, htop]
    refine step_of_decode_refusal (hlength (bytes := [c, q0]) hl) hfetch ?_ fun _ => rfl
    rcases hc with rfl | rfl
    · rw [decode_legacy_vex, if_pos hles]
    · rw [decode_legacy_evex, if_pos hles]
  · obtain ⟨hm, htable⟩ := uses16BitTable_protected hmode h16
    exact hrefuse hfetch hl (decode_vex_refusal legacy (decodeVex_refusal _ _ _ _ _
      (.inr fun x b => takeOpcode_addressing16 x b op [] hm htable hmem)))
  · obtain ⟨hm, htable⟩ := uses16BitTable_protected hmode h16
    exact hrefuse hfetch hl (decode_evex_refusal legacy (decodeEvex_refusal _ _ _ _ _ _
      (.inr fun x b => takeOpcode_addressing16 x b op [] hm htable hmem)))
  · have hnotForbidden : isForbiddenByte c = false := by
      obtain ⟨h1, h2, h3, h4⟩ := hforbidden
      simp [isForbiddenByte, h1, h2, h3, h4]
    have hnotRex (hlong : (s.codeMode == .long64) = true) : isRex c = false := by
      rw [← Bool.not_eq_true, isRex_iff]
      exact hrex ((s.codeMode_eq_long_iff).1 (beq_iff_eq.1 hlong))
    have htake := takeLegacy_map_append legacy (takeLegacy_cons_other [] hlegacy hnotForbidden hnotRex)
    exact hrefuse hfetch hl ⟨.notVexEvex, by simp [decode, before, htake, isVexOrEvex, hvex, hevex], fun _ => rfl⟩

/-! ### Availability (R186, R190, R191) -/

theorem State.recognises_iff (s : State) : s.recognises = true ↔ s.mode = .long64 ∨ s.mode = .protected32 := by
  simp [State.recognises]

theorem State.vexUsable_iff (s : State) :
    s.vexUsable = true ↔ (s.mode = .long64 ∨ s.mode = .protected32) ∧ s.cr4.getLsbD 18 = true ∧
      s.xcr0.extractLsb' 1 2 = 3#2 ∧ s.cfg.hasFma = true := by
  simp only [State.vexUsable, Bool.and_eq_true, s.recognises_iff, State.osxsave, State.avxEnabled, beq_iff_eq, and_assoc]

theorem State.evexUsable_iff (s : State) :
    s.evexUsable = true ↔ (s.mode = .long64 ∨ s.mode = .protected32) ∧ s.cr4.getLsbD 18 = true ∧
      s.xcr0.extractLsb' 1 2 = 3#2 ∧ s.xcr0.extractLsb' 5 3 = 7#3 ∧ s.cfg.hasAvx512f = true := by
  simp only [State.evexUsable, Bool.and_eq_true, s.recognises_iff, State.osxsave, State.avxEnabled, State.avx512Enabled,
    beq_iff_eq, and_assoc]

theorem runVex_of_unusable {s : State} (h : s.vexUsable = false) (op : Opcode) (f : VexForm) :
    runVex op f s = .fault (.exception .ud s) := by
  simp only [runVex, h, Bool.not_false, if_true]
  rfl

theorem runEvex_of_unusable {s : State} (h : s.evexUsable = false) (op : Opcode) (f : EvexForm) :
    runEvex op f s = .fault (.exception .ud s) := by
  simp only [runEvex, h, Bool.not_false, Bool.or_true, if_true]
  rfl

/-- In real-address and virtual-8086 mode a form is not recognised once its opcode byte is read. -/
theorem takeOpcode_notRecognised (legacy : List LegacyByte) (x b : Bool) (o : Opcode) (bs : List Byte) :
    takeOpcode .legacy legacy x b (o.toByte :: bs) = .error .notRecognised := by
  simp [takeOpcode]

theorem isLesOrBound_of_top {m : CodeMode} {p : Byte} (h : p.extractLsb' 6 2 = 3#2) : isLesOrBound m p = false := by
  simp [isLesOrBound, h]

theorem decode_vex_notRecognised (o : Opcode) {f : VexForm} (htop : f.p1.extractLsb' 6 2 = 3#2) :
    decode .legacy (f.legacy.map LegacyByte.toByte ++ [0xC4#8, f.p1, f.p2, o.toByte]) = .error .notRecognised := by
  rw [decode_legacy_vex, isLesOrBound_of_top htop]
  simp [decodeVex, f.vexMismatch_eq_none, takeOpcode_notRecognised]

theorem decode_evex_notRecognised (o : Opcode) {f : EvexForm} (htop : f.p0.extractLsb' 6 2 = 3#2) :
    decode .legacy (f.legacy.map LegacyByte.toByte ++ [0x62#8, f.p0, f.p1, f.p2, o.toByte]) = .error .notRecognised := by
  rw [decode_legacy_evex, isLesOrBound_of_top htop]
  simp [decodeEvex, f.evexMismatch_eq_none, takeOpcode_notRecognised]

/-- Settles O15: each cause makes the form unusable, which is tested first; at a step the decoder itself does not recognise the
form. -/
theorem unavailableRaisesUD : Obligations.UnavailableRaisesUD := by
  unfold Obligations.UnavailableRaisesUD
  intro s
  refine ⟨fun hcause f => ?_, fun hcause f => ?_, fun hmode => ?_⟩
  · have husable : s.vexUsable = false := by
      rw [← Bool.not_eq_true, s.vexUsable_iff]
      rintro ⟨hm, hsave, havx, hfma⟩
      simp only [hsave, havx, hfma, Bool.true_eq_false, ne_eq, not_true_eq_false, or_false] at hcause
      rcases hm with hm | hm <;> simp [hm] at hcause
    have hexec (o : Opcode) : exec (.ofVex o f) s = .fault (.exception .ud s) := by
      rw [exec_ofVex, runVex_of_unusable husable]
    exact ⟨hexec .op132, hexec .op213, hexec .op231⟩
  · have husable : s.evexUsable = false := by
      rw [← Bool.not_eq_true, s.evexUsable_iff]
      rintro ⟨hm, hsave, havx, havx512, hcpuid⟩
      simp only [hsave, havx, havx512, hcpuid, Bool.true_eq_false, ne_eq, not_true_eq_false, or_false] at hcause
      rcases hm with hm | hm <;> simp [hm] at hcause
    have hexec (o : Opcode) : exec (.ofEvex o f) s = .fault (.exception .ud s) := by
      rw [exec_ofEvex, runEvex_of_unusable husable]
    exact ⟨hexec .op132, hexec .op213, hexec .op231⟩
  · have hcode := State.codeMode_legacy hmode
    refine ⟨fun o f htop hl hfetch => ?_, fun o f htop hl hfetch => ?_⟩
    · exact step_of_decode_error (by simpa using hl) hfetch (hcode ▸ decode_vex_notRecognised o htop) (by decide)
    · exact step_of_decode_error (by simpa using hl) hfetch (hcode ▸ decode_evex_notRecognised o htop) (by decide)

end Machine

end Sys2Proof
end

section
/-! PROOFS. What an available form answers once operand 3 is read: the results of the VEX and the EVEX forms, in 64-bit and in
32-bit mode, the SIMD floating-point exception, and what does not change them. -/

namespace Sys2Proof.Machine

/-! ### A form whose operand 3 is read -/

/-- What `fma32` answers for the operands of an instruction, in the order of its opcode (R145). -/
def fmaOn (c : FpControl) (s : State) (o : Opcode) (n1 n2 : BitVec 5) (s3 : Single) : FmaOutcome :=
  fma32 s.cfg.switches c (s.factorsOf o n1 n2 s3).x (s.factorsOf o n1 n2 s3).y (s.factorsOf o n1 n2 s3).z

/-- An available VEX form whose operand 3 is read ends with what `fma32` answers under MXCSR. -/
theorem runVex_of_read {o : Opcode} {f : VexForm} {s : State} {ld : Loaded} (hready : s.ReadyVex)
    (hread : readOperand3 s false f.legacy f.size f.op3 = .ok ld) :
    runVex o f s =
      finishMxcsr (fmaOn (.ofMxcsr s.mxcsr) s o (s.regNumber (f.dst.setWidth 5)) (s.regNumber (f.src2.setWidth 5)) ld.value)
        ld.event (s.regNumber (f.dst.setWidth 5)) f.size s := by
  obtain ⟨husable, hts⟩ := hready
  simp [runVex, husable, hts, hread, fmaOn]

/-- An available legal EVEX form with an active element and no static rounding does the same. -/
theorem runEvex_of_read {o : Opcode} {f : EvexForm} {s : State} {ld : Loaded} (hready : s.ReadyEvex)
    (hlegal : f.legal = true) (hactive : s.isActive f = true) (hb : f.b = false)
    (hread : readOperand3 s true f.legacy f.size f.op3 = .ok ld) :
    runEvex o f s =
      finishMxcsr (fmaOn (.ofMxcsr s.mxcsr) s o (s.regNumber f.dst) (s.regNumber f.src2) ld.value) ld.event
        (s.regNumber f.dst) f.size s := by
  obtain ⟨husable, hts⟩ := hready
  simp [runEvex, husable, hts, hlegal, hactive, hb, hread, fmaOn]

/-- With static rounding it ends with what `fma32` answers in the mode EVEX.RC, every exception masked. -/
theorem runEvex_of_read_static {o : Opcode} {f : EvexForm} {s : State} {ld : Loaded} (hready : s.ReadyEvex)
    (hlegal : f.legal = true) (hactive : s.isActive f = true) (hb : f.b = true)
    (hread : readOperand3 s true f.legacy f.size f.op3 = .ok ld) :
    runEvex o f s =
      finishSae (fmaOn (.static s.mxcsr f.ll) s o (s.regNumber f.dst) (s.regNumber f.src2) ld.value) ld.event
        (s.regNumber f.dst) f.size s := by
  obtain ⟨husable, hts⟩ := hready
  simp [runEvex, husable, hts, hlegal, hactive, hb, hread, fmaOn]

/-! ### The end of an instruction -/

/-- The program counter can go on behind the instruction, in the mode of the state. -/
def State.Advances (s : State) (len : Nat) : Prop := advance len s = .next (s.setPc (s.pc + BitVec.ofNat 64 len))

theorem State.advances_long {s : State} {len : Nat} (h64 : s.is64 = true) (hpc : s.PcFits len) : s.Advances len :=
  advance_long h64 hpc.1 hpc.2

theorem State.is64_protected {s : State} (h : s.mode = .protected32) : s.is64 = false := by
  simp [State.is64, h]

/-- In 32-bit mode EIP goes on where it does not pass 2^32. -/
theorem State.advances_protected {s : State} {len : Nat} (hmode : s.mode = .protected32) (hpc : s.pc.toNat + len < 2 ^ 32) :
    s.Advances len := by
  have heip : (s.pc.setWidth 32).toNat = s.pc.toNat := by
    rw [BitVec.toNat_setWidth]
    omega
  have hlt : (s.pc.setWidth 32).toNat + len < 2 ^ 32 := by rwa [heip]
  have hsum : (s.pc.setWidth 32 + BitVec.ofNat 32 len).setWidth 64 = s.pc + BitVec.ofNat 64 len := by
    apply BitVec.eq_of_toNat_eq
    rw [toNat_eip_add_of_lt hlt, toNat_add_of_lt (by omega)]
    omega
  rw [State.Advances, advance, State.is64_protected hmode, if_neg Bool.false_ne_true, if_pos hlt, hsum]

section
variable {s : State} {len : Nat} (h : s.Advances len)
include h

theorem State.Advances.finishMxcsr_done (res : Single) (fl : FpFlags) (event : Option ReadEvent) (n : BitVec 5) :
    finishMxcsr (.done res fl) event n len s = .next (s.completed n res fl event len) := by
  have hnext : advance len s = .next (s.setPc (s.pc + BitVec.ofNat 64 len)) := h
  simp only [finishMxcsr, advance_completedAt, hnext]
  rfl

theorem State.Advances.finishSae_done (res : Single) (fl : FpFlags) (event : Option ReadEvent) (n : BitVec 5) :
    finishSae (.done res fl) event n len s = .next (s.completed n res {} event len) := by
  have hflags := h.finishMxcsr_done res {} event n
  simp only [finishMxcsr, State.orFlags_none] at hflags
  exact hflags

end

theorem State.Advances.finishMaskedOff_done {s : State} {f : EvexForm} (h : s.Advances f.size) (n : BitVec 5) :
    finishMaskedOff f n s = .next (s.completed n (maskedOffLow f n s) {} none f.size) := by
  rw [finishMaskedOff_eq_advance]
  exact h.finishMxcsr_done (maskedOffLow f n s) {} none n

/-- An exception without an address records nothing. -/
theorem raise_of_no_address {e : Exception} (he : e.address = none) (s : State) :
    raise e s = .fault (.exception e s) := by
  rw [raise, Exception.record, he]

/-- A SIMD floating-point exception leaves the flags in MXCSR and nothing else (R182, R184). -/
theorem finishMxcsr_stopped (fl : FpFlags) (event : Option ReadEvent) (n : BitVec 5) (len : Nat) (s : State) :
    finishMxcsr (.stopped fl) event n len s =
      .fault (.exception (if s.cr4.getLsbD 10 then .xm else .ud) { s with mxcsr := s.mxcsr ||| fl.bits.setWidth 32 }) := by
  refine raise_of_no_address ?_ _
  split <;> rfl

/-! ### Operand 3 and the register numbers -/

theorem readOperand3_reg (s : State) (evex x b : Bool) (rm : BitVec 3) (legacy : List LegacyByte) (len : Nat) :
    readOperand3 s evex legacy len (.reg x b rm) = .ok ⟨s.low (s.regNumber (operand3Number evex x b rm)), none⟩ := rfl

/-- In 32-bit mode a register number is that of its three low bits. -/
theorem State.regNumber_protected {s : State} (h : s.mode = .protected32) (n : BitVec 5) :
    s.regNumber n = (n.extractLsb' 0 3).setWidth 5 := by
  have key : ∀ n : BitVec 5, n &&& 7#5 = (n.extractLsb' 0 3).setWidth 5 := by decide
  rw [State.regNumber, State.is64_protected h, if_neg Bool.false_ne_true, key]

theorem State.regNumber_protected_vex {s : State} (h : s.mode = .protected32) (n : BitVec 4) :
    s.regNumber (n.setWidth 5) = (n.extractLsb' 0 3).setWidth 5 := by
  have key : ∀ n : BitVec 4, (n.setWidth 5).extractLsb' 0 3 = n.extractLsb' 0 3 := by decide
  rw [s.regNumber_protected h, key]

theorem State.regNumber_protected_operand3 {s : State} (h : s.mode = .protected32) (evex x b : Bool) (rm : BitVec 3) :
    s.regNumber (operand3Number evex x b rm) = rm.setWidth 5 := by
  have key : ∀ (evex x b : Bool) (rm : BitVec 3), (operand3Number evex x b rm).extractLsb' 0 3 = rm := by decide
  rw [s.regNumber_protected h, key]

/-! ### A form on named registers -/

/-- `n1`, `n2` are the registers that the VEX form names in the mode of the state, and `s3` and `event` what its operand 3 gives. -/
structure VexOperands (f : VexForm) (s : State) (n1 n2 : BitVec 5) (s3 : Single) (event : Option ReadEvent) : Prop where
  ready : s.ReadyVex
  dst : s.regNumber (f.dst.setWidth 5) = n1
  src2 : s.regNumber (f.src2.setWidth 5) = n2
  read : readOperand3 s false f.legacy f.size f.op3 = .ok ⟨s3, event⟩

/-- The same for a legal EVEX form whose element is active. -/
structure EvexOperands (f : EvexForm) (s : State) (n1 n2 : BitVec 5) (s3 : Single) (event : Option ReadEvent) : Prop where
  ready : s.ReadyEvex
  legal : f.legal = true
  active : s.isActive f = true
  dst : s.regNumber f.dst = n1
  src2 : s.regNumber f.src2 = n2
  read : readOperand3 s true f.legacy f.size f.op3 = .ok ⟨s3, event⟩

section
variable {f : VexForm} {s : State} {n1 n2 : BitVec 5} {s3 : Single} {event : Option ReadEvent}

theorem VexOperands.exec_eq (h : VexOperands f s n1 n2 s3 event) (o : Opcode) :
    exec (.ofVex o f) s = finishMxcsr (fmaOn (.ofMxcsr s.mxcsr) s o n1 n2 s3) event n1 f.size s := by
  rw [exec_ofVex, runVex_of_read h.ready h.read, h.dst, h.src2]

theorem VexOperands.exec_done (h : VexOperands f s n1 n2 s3 event) (hpc : s.Advances f.size) {o : Opcode} {res : Single}
    {fl : FpFlags} (hfma : fmaOn (.ofMxcsr s.mxcsr) s o n1 n2 s3 = .done res fl) :
    exec (.ofVex o f) s = .next (s.completed n1 res fl event f.size) := by
  rw [h.exec_eq, hfma, hpc.finishMxcsr_done]

theorem VexOperands.exec_stopped (h : VexOperands f s n1 n2 s3 event) {o : Opcode} {fl : FpFlags}
    (hfma : fmaOn (.ofMxcsr s.mxcsr) s o n1 n2 s3 = .stopped fl) :
    exec (.ofVex o f) s =
      .fault (.exception (if s.cr4.getLsbD 10 then .xm else .ud) { s with mxcsr := s.mxcsr ||| fl.bits.setWidth 32 }) := by
  rw [h.exec_eq, hfma, finishMxcsr_stopped]

end

section
variable {f : EvexForm} {s : State} {n1 n2 : BitVec 5} {s3 : Single} {event : Option ReadEvent}

theorem EvexOperands.exec_eq (h : EvexOperands f s n1 n2 s3 event) (hb : f.b = false) (o : Opcode) :
    exec (.ofEvex o f) s = finishMxcsr (fmaOn (.ofMxcsr s.mxcsr) s o n1 n2 s3) event n1 f.size s := by
  rw [exec_ofEvex, runEvex_of_read h.ready h.legal h.active hb h.read, h.dst, h.src2]

theorem EvexOperands.exec_done (h : EvexOperands f s n1 n2 s3 event) (hb : f.b = false) (hpc : s.Advances f.size)
    {o : Opcode} {res : Single} {fl : FpFlags} (hfma : fmaOn (.ofMxcsr s.mxcsr) s o n1 n2 s3 = .done res fl) :
    exec (.ofEvex o f) s = .next (s.completed n1 res fl event f.size) := by
  rw [h.exec_eq hb, hfma, hpc.finishMxcsr_done]

theorem EvexOperands.exec_stopped (h : EvexOperands f s n1 n2 s3 event) (hb : f.b = false) {o : Opcode} {fl : FpFlags}
    (hfma : fmaOn (.ofMxcsr s.mxcsr) s o n1 n2 s3 = .stopped fl) :
    exec (.ofEvex o f) s =
      .fault (.exception (if s.cr4.getLsbD 10 then .xm else .ud) { s with mxcsr := s.mxcsr ||| fl.bits.setWidth 32 }) := by
  rw [h.exec_eq hb, hfma, finishMxcsr_stopped]

theorem EvexOperands.exec_static (h : EvexOperands f s n1 n2 s3 event) (hb : f.b = true) (hpc : s.Advances f.size)
    {o : Opcode} {res : Single} {fl : FpFlags} (hfma : fmaOn (.static s.mxcsr f.ll) s o n1 n2 s3 = .done res fl) :
    exec (.ofEvex o f) s = .next (s.completed n1 res {} event f.size) := by
  rw [exec_ofEvex, runEvex_of_read_static h.ready h.legal h.active hb h.read, h.dst, h.src2, hfma, hpc.finishSae_done]

end

/-! ### The operands in 64-bit mode -/

theorem vexOperands_reg {f : VexForm} {x b : Bool} {rm : BitVec 3} {s : State} (hop3 : f.op3 = .reg x b rm)
    (h64 : s.is64 = true) (hready : s.ReadyVex) :
    VexOperands f s (f.dst.setWidth 5) (f.src2.setWidth 5) (s.low (0#1 ++ BitVec.ofBool b ++ rm)) none where
  ready := hready
  dst := State.regNumber_long h64 _
  src2 := State.regNumber_long h64 _
  read := by
    rw [hop3, readOperand3_reg, State.regNumber_long h64]
    rfl

theorem vexOperands_mem {f : VexForm} {x b : Bool} {a : Addr} {s : State} (hop3 : f.op3 = .mem x b a)
    (h64 : s.is64 = true) (hready : s.ReadyVex) (hreadable : s.OperandReadable (linearAddress s false f.legacy x b f.size a)) :
    VexOperands f s (f.dst.setWidth 5) (f.src2.setWidth 5) (s.mem.read32 (linearAddress s false f.legacy x b f.size a))
      (some (readEvent (linearAddress s false f.legacy x b f.size a)
        (s.mem.read32 (linearAddress s false f.legacy x b f.size a)))) where
  ready := hready
  dst := State.regNumber_long h64 _
  src2 := State.regNumber_long h64 _
  read := by rw [hop3, readOperand3_mem h64 hreadable]

theorem evexOperands_reg {f : EvexForm} {x b : Bool} {rm : BitVec 3} {s : State} (hop3 : f.op3 = .reg x b rm)
    (hlegal : f.legal = true) (hactive : f.aaa = 0#3 ∨ s.maskBit f.aaa = true) (h64 : s.is64 = true)
    (hready : s.ReadyEvex) :
    EvexOperands f s f.dst f.src2 (s.low (BitVec.ofBool x ++ BitVec.ofBool b ++ rm)) none where
  ready := hready
  legal := hlegal
  active := (s.isActive_iff f).2 hactive
  dst := State.regNumber_long h64 _
  src2 := State.regNumber_long h64 _
  read := by
    rw [hop3, readOperand3_reg, State.regNumber_long h64]
    rfl

theorem evexOperands_mem {f : EvexForm} {x b : Bool} {a : Addr} {s : State} (hop3 : f.op3 = .mem x b a)
    (hlegal : f.legal = true) (hactive : f.aaa = 0#3 ∨ s.maskBit f.aaa = true) (h64 : s.is64 = true) (hready : s.ReadyEvex)
    (hreadable : s.OperandReadable (linearAddress s true f.legacy x b f.size a)) :
    EvexOperands f s f.dst f.src2 (s.mem.read32 (linearAddress s true f.legacy x b f.size a))
      (some (readEvent (linearAddress s true f.legacy x b f.size a)
        (s.mem.read32 (linearAddress s true f.legacy x b f.size a)))) where
  ready := hready
  legal := hlegal
  active := (s.isActive_iff f).2 hactive
  dst := State.regNumber_long h64 _
  src2 := State.regNumber_long h64 _
  read := by rw [hop3, readOperand3_mem h64 hreadable]

/-- A legal memory form has no static rounding (R84). -/
theorem b_eq_false_of_mem {f : EvexForm} {x b : Bool} {a : Addr} (hop3 : f.op3 = .mem x b a) (hlegal : f.legal = true) :
    f.b = false := by
  cases hb : f.b with
  | false => rfl
  | true => simp [EvexForm.legal, hb, hop3, Operand3.isReg] at hlegal

/-! ### Results in 64-bit mode -/

/-- Settles O17: the operands are registers, and a result of `fma32` completes the instruction. -/
theorem vexRegisterResult : Obligations.VexRegisterResult := by
  unfold Obligations.VexRegisterResult
  intro f x b rm s res fl hop3 h64 hready hpc d s2 s3
  have h := vexOperands_reg hop3 h64 hready
  have hpc' := State.advances_long h64 hpc
  exact ⟨h.exec_done hpc' (o := .op132), h.exec_done hpc' (o := .op213), h.exec_done hpc' (o := .op231)⟩

/-- Settles O18: a readable operand is read, and the event is recorded. -/
theorem vexMemoryResult : Obligations.VexMemoryResult := by
  unfold Obligations.VexMemoryResult
  intro f x b a s res fl hop3 h64 hready hpc la d s2 s3 event hreadable
  have h := vexOperands_mem hop3 h64 hready hreadable
  have hpc' := State.advances_long h64 hpc
  exact ⟨h.exec_done hpc' (o := .op132), h.exec_done hpc' (o := .op213), h.exec_done hpc' (o := .op231)⟩

/-- Settles O19: an active element without static rounding ends as the VEX form does. -/
theorem evexRegisterResult : Obligations.EvexRegisterResult := by
  unfold Obligations.EvexRegisterResult
  intro f x b rm s res fl hop3 hlegal hb hactive h64 hready hpc d s2 s3
  have h := evexOperands_reg hop3 hlegal hactive h64 hready
  have hpc' := State.advances_long h64 hpc
  exact ⟨h.exec_done hb hpc' (o := .op132), h.exec_done hb hpc' (o := .op213), h.exec_done hb hpc' (o := .op231)⟩

/-- Settles O20: the same with a readable operand; a legal memory form has no static rounding. -/
theorem evexMemoryResult : Obligations.EvexMemoryResult := by
  unfold Obligations.EvexMemoryResult
  intro f x b a s res fl hop3 hlegal hactive h64 hready hpc la d s2 s3 event hreadable
  have h := evexOperands_mem hop3 hlegal hactive h64 hready hreadable
  have hb := b_eq_false_of_mem hop3 hlegal
  have hpc' := State.advances_long h64 hpc
  exact ⟨h.exec_done hb hpc' (o := .op132), h.exec_done hb hpc' (o := .op213), h.exec_done hb hpc' (o := .op231)⟩

/-- Settles O28: with an unmasked condition `fma32` is stopped, and the flags are all that is left of the instruction. -/
theorem unmaskedConditionFaults : Obligations.UnmaskedConditionFaults := by
  unfold Obligations.UnmaskedConditionFaults
  intro s fl x b h64 out fma
  refine ⟨fun f s3 hready hop3 => ?_, fun f s3 hlegal hb hactive hready hop3 => ?_⟩
  · obtain ⟨event, h⟩ : ∃ event, VexOperands f s (f.dst.setWidth 5) (f.src2.setWidth 5) s3 event := by
      rcases hop3 with ⟨rm, hreg, rfl⟩ | ⟨a, hmem, hreadable, rfl⟩
      · exact ⟨_, vexOperands_reg hreg h64 hready⟩
      · exact ⟨_, vexOperands_mem hmem h64 hready hreadable⟩
    exact ⟨h.exec_stopped (o := .op132), h.exec_stopped (o := .op213), h.exec_stopped (o := .op231)⟩
  · obtain ⟨event, h⟩ : ∃ event, EvexOperands f s f.dst f.src2 s3 event := by
      rcases hop3 with ⟨rm, hreg, rfl⟩ | ⟨a, hmem, hreadable, rfl⟩
      · exact ⟨_, evexOperands_reg hreg hlegal hactive h64 hready⟩
      · exact ⟨_, evexOperands_mem hmem hlegal hactive h64 hready hreadable⟩
    exact ⟨h.exec_stopped hb (o := .op132), h.exec_stopped hb (o := .op213), h.exec_stopped hb (o := .op231)⟩

/-! ### Every exception masked (R150, R203) -/

theorem FpFlags.unmasked_all (fl : FpFlags) : fl.unmasked .all = false := by
  simp [FpFlags.unmasked, FpMasks.all]

theorem deliver_all (res : Single) (fl : FpFlags) : deliver .all res fl = .done res fl := by
  simp [deliver, FpFlags.unmasked_all]

section
variable {c : FpControl} (h : c.masks = .all)
include h

theorem roundOutcome_masked (sw : Switches) (neg : Bool) (m : Nat) (fl : FpFlags) (inexact : Bool) :
    ∃ res fl', roundOutcome sw c neg m fl inexact = .done res fl' := by
  have hom : FpMasks.all.om = true := rfl
  have hum : FpMasks.all.um = true := rfl
  simp only [roundOutcome, overflowOutcome, tinyOutcome, h, hom, hum, deliver_all, Bool.not_true, Bool.false_eq_true, if_false]
  split
  · exact ⟨_, _, rfl⟩
  · split
    · split <;> exact ⟨_, _, rfl⟩
    · exact ⟨_, _, rfl⟩

/-- With every condition masked no step of `fma32` stops. -/
theorem fma32_masked (sw : Switches) (x y z : Single) : ∃ res fl, fma32 sw c x y z = .done res fl := by
  simp only [fma32, fmaAfterDaz, nanOutcome, invalidOutcome, infiniteOutcome, finiteOutcome, h, deliver_all]
  split
  · exact ⟨_, _, rfl⟩
  · split
    · exact ⟨_, _, rfl⟩
    · rw [if_neg (by simp [FpMasks.all])]
      split
      · exact ⟨_, _, rfl⟩
      · split
        · exact ⟨_, _, rfl⟩
        · exact roundOutcome_masked h ..

theorem fmaOn_masked (s : State) (o : Opcode) (n1 n2 : BitVec 5) (s3 : Single) :
    ∃ res fl, fmaOn c s o n1 n2 s3 = .done res fl :=
  fma32_masked h ..

end

/-- Settles O45. -/
theorem maskedOperationDelivers : Obligations.MaskedOperationDelivers := by
  unfold Obligations.MaskedOperationDelivers
  exact fun sw rm daz ftz x y z => fma32_masked rfl sw x y z

/-- The operation of an active form with static rounding delivers and the form completes. -/
theorem EvexOperands.exec_static_completes {f : EvexForm} {s : State} {n1 n2 : BitVec 5} {s3 : Single}
    {event : Option ReadEvent} (h : EvexOperands f s n1 n2 s3 event) (hb : f.b = true) (hpc : s.Advances f.size) (o : Opcode) :
    ∃ res fl, fmaOn (.static s.mxcsr f.ll) s o n1 n2 s3 = .done res fl ∧
      exec (.ofEvex o f) s = .next (s.completed n1 res {} event f.size) := by
  obtain ⟨res, fl, hfma⟩ := fmaOn_masked (c := .static s.mxcsr f.ll) rfl s o n1 n2 s3
  exact ⟨res, fl, hfma, h.exec_static hb hpc hfma⟩

/-- Settles O21: under static rounding every exception is masked, so the operation delivers, and its flags are dropped. -/
theorem staticRoundingResult : Obligations.StaticRoundingResult := by
  unfold Obligations.StaticRoundingResult
  intro f x b rm s hop3 hlegal hb hactive h64 hready hpc c d s2 s3
  have h := evexOperands_reg hop3 hlegal hactive h64 hready
  have hpc' := State.advances_long h64 hpc
  exact ⟨h.exec_static_completes hb hpc' .op132, h.exec_static_completes hb hpc' .op213,
    h.exec_static_completes hb hpc' .op231⟩

/-- All six mask bits of MXCSR set mask every condition. -/
theorem ofMxcsr_masks {w : BitVec 32} (h : w.extractLsb' 7 6 = 0x3F#6) : (FpControl.ofMxcsr w).masks = .all := by
  have hones : ∀ i, i < 6 → (0x3F#6).getLsbD i = true := by decide
  have hbit (i : Nat) (hi : i < 6) : w.getLsbD (7 + i) = true := by
    have hb := congrArg (·.getLsbD i) h
    simpa only [BitVec.getLsbD_extractLsb', hi, decide_true, Bool.true_and, hones i hi] using hb
  simp only [FpControl.ofMxcsr, FpMasks.ofMxcsr, FpMasks.all, FpMasks.mk.injEq]
  exact ⟨hbit 0 (by decide), hbit 1 (by decide), hbit 3 (by decide), hbit 4 (by decide), hbit 5 (by decide)⟩

/-- A register form of EVEX encoding completes with every exception masked: by MXCSR, by static rounding or masked off. -/
theorem exec_evex_masked {f : EvexForm} {x b : Bool} {rm : BitVec 3} {s : State} (hop3 : f.op3 = .reg x b rm)
    (hlegal : f.legal = true) (h64 : s.is64 = true) (hready : s.ReadyEvex) (hpc : s.PcFits f.size)
    (hmasks : (FpControl.ofMxcsr s.mxcsr).masks = .all) (o : Opcode) :
    ∃ res fl, ((f.b = false ∧ (f.aaa = 0#3 ∨ s.maskBit f.aaa = true)) →
        fmaOn (.ofMxcsr s.mxcsr) s o f.dst f.src2 (s.low (BitVec.ofBool x ++ BitVec.ofBool b ++ rm)) = .done res fl) ∧
      exec (.ofEvex o f) s = .next (s.completed f.dst res fl none f.size) := by
  have hpc' := State.advances_long h64 hpc
  by_cases hactive : f.aaa = 0#3 ∨ s.maskBit f.aaa = true
  · have h := evexOperands_reg hop3 hlegal hactive h64 hready
    cases hb : f.b with
    | false =>
      obtain ⟨res, fl, hfma⟩ := fmaOn_masked hmasks s o f.dst f.src2 (s.low (BitVec.ofBool x ++ BitVec.ofBool b ++ rm))
      exact ⟨res, fl, fun _ => hfma, h.exec_done hb hpc' hfma⟩
    | true =>
      obtain ⟨res, fl, -, hexec⟩ := h.exec_static_completes hb hpc' o
      exact ⟨res, {}, fun hno => (by cases hno.1), hexec⟩
  · have hoff : s.isActive f = false := by
      rwa [← Bool.not_eq_true, s.isActive_iff]
    refine ⟨maskedOffLow f f.dst s, {}, fun hno => (hactive hno.2).elim, ?_⟩
    rw [exec_ofEvex, runEvex_of_maskedOff hready hlegal hoff, State.regNumber_long h64, hpc'.finishMaskedOff_done]

/-- Settles O26: with every exception masked `fma32` delivers, and the form completes with its result. -/
theorem maskedFormsComplete : Obligations.MaskedFormsComplete := by
  unfold Obligations.MaskedFormsComplete
  refine ⟨fun f x b rm s hop3 h64 hready hpc hmask => ?_, fun f x b rm s hop3 hlegal h64 hready hpc hmask => ?_⟩
  · intro fma d s2 s3 completes
    have h := vexOperands_reg hop3 h64 hready
    have hcompletes (o : Opcode) : ∃ res fl,
        fmaOn (.ofMxcsr s.mxcsr) s o (f.dst.setWidth 5) (f.src2.setWidth 5) s3 = .done res fl ∧
          exec (.ofVex o f) s = .next (s.completed (f.dst.setWidth 5) res fl none f.size) := by
      obtain ⟨res, fl, hfma⟩ := fmaOn_masked (ofMxcsr_masks hmask) s o (f.dst.setWidth 5) (f.src2.setWidth 5) s3
      exact ⟨res, fl, hfma, h.exec_done (State.advances_long h64 hpc) hfma⟩
    exact ⟨hcompletes .op132, hcompletes .op213, hcompletes .op231⟩
  · have hcompletes := exec_evex_masked hop3 hlegal h64 hready hpc (ofMxcsr_masks hmask)
    exact ⟨hcompletes .op132, hcompletes .op213, hcompletes .op231⟩

/-! ### 32-bit mode (R96, log entry 15) -/

theorem vexOperands_reg32 {f : VexForm} {x b : Bool} {rm : BitVec 3} {s : State} (hop3 : f.op3 = .reg x b rm)
    (hmode : s.mode = .protected32) (hready : s.ReadyVex) :
    VexOperands f s ((f.dst.extractLsb' 0 3).setWidth 5) ((f.src2.extractLsb' 0 3).setWidth 5) (s.low (rm.setWidth 5)) none where
  ready := hready
  dst := s.regNumber_protected_vex hmode _
  src2 := s.regNumber_protected_vex hmode _
  read := by rw [hop3, readOperand3_reg, s.regNumber_protected_operand3 hmode]

theorem evexOperands_reg32 {f : EvexForm} {x b : Bool} {rm : BitVec 3} {s : State} (hop3 : f.op3 = .reg x b rm)
    (hlegal : f.legal = true) (hactive : f.aaa = 0#3 ∨ s.maskBit f.aaa = true) (hmode : s.mode = .protected32)
    (hready : s.ReadyEvex) :
    EvexOperands f s ((f.dst.extractLsb' 0 3).setWidth 5) ((f.src2.extractLsb' 0 3).setWidth 5) (s.low (rm.setWidth 5))
      none where
  ready := hready
  legal := hlegal
  active := (s.isActive_iff f).2 hactive
  dst := s.regNumber_protected hmode _
  src2 := s.regNumber_protected hmode _
  read := by rw [hop3, readOperand3_reg, s.regNumber_protected_operand3 hmode]

/-- A memory operand that is accessed is refused. -/
theorem readOperand3_mem32 {s : State} (hmode : s.mode = .protected32) (evex x b : Bool) (legacy : List LegacyByte)
    (len : Nat) (a : Addr) :
    readOperand3 s evex legacy len (.mem x b a) =
      .error (.refuses (.segmentedOperand ((effectiveAddress s evex legacy x b len a).setWidth 32))) := by
  rw [readOperand3, State.is64_protected hmode, if_neg Bool.false_ne_true]

/-- Settles O27: the forms run on the operands of 32-bit mode and EIP goes on; only a memory operand stops them. -/
theorem thirtyTwoBitRegisterResult : Obligations.ThirtyTwoBitRegisterResult := by
  unfold Obligations.ThirtyTwoBitRegisterResult
  refine ⟨fun f x b rm s res fl hop3 hmode hready hpc => ?_, fun f x b rm s res fl hop3 hlegal hb hactive hmode hready hpc => ?_,
    fun f x b rm s hop3 hlegal hb hactive hmode hready hpc => ?_, fun f s hlegal haaa hbit hmode hready hpc => ?_,
    fun o x b a s hmode => ⟨fun f hop3 hready => ?_, fun f hop3 hlegal hactive hready => ?_⟩⟩
  · have h := vexOperands_reg32 hop3 hmode hready
    have hpc' := State.advances_protected hmode hpc
    exact ⟨h.exec_done hpc' (o := .op132), h.exec_done hpc' (o := .op213), h.exec_done hpc' (o := .op231)⟩
  · have h := evexOperands_reg32 hop3 hlegal hactive hmode hready
    have hpc' := State.advances_protected hmode hpc
    exact ⟨h.exec_done hb hpc' (o := .op132), h.exec_done hb hpc' (o := .op213), h.exec_done hb hpc' (o := .op231)⟩
  · have h := evexOperands_reg32 hop3 hlegal hactive hmode hready
    have hpc' := State.advances_protected hmode hpc
    exact ⟨h.exec_static_completes hb hpc' .op132, h.exec_static_completes hb hpc' .op213,
      h.exec_static_completes hb hpc' .op231⟩
  · intro n1 t
    have hexec (o : Opcode) : exec (.ofEvex o f) s = .next t := by
      rw [exec_ofEvex, runEvex_of_maskedOff hready hlegal (State.isActive_eq_false haaa hbit), s.regNumber_protected hmode,
        (State.advances_protected hmode hpc).finishMaskedOff_done]
      rfl
    exact ⟨hexec .op132, hexec .op213, hexec .op231⟩
  · rw [exec_ofVex, runVex_of_stop hready (hop3 ▸ readOperand3_mem32 hmode ..)]
    rfl
  · rw [exec_ofEvex, runEvex_of_stop hready hlegal ((s.isActive_iff f).2 hactive) (hop3 ▸ readOperand3_mem32 hmode ..)]
    rfl

/-! ### What does not change the result (R76, R84, R114, R129) -/

/-- An EVEX form without its extras, with the operand 3 of a VEX form, reads it alike. -/
theorem readOperand3_evex_eq_vex {s : State} {f : VexForm} {e : EvexForm}
    (hop3 : (∃ x b rm, f.op3 = .reg x b rm ∧ e.op3 = .reg false b rm) ∨
      (∃ x b a x' b' a', f.op3 = .mem x b a ∧ e.op3 = .mem x' b' a' ∧
        usesStack f.legacy b a = usesStack e.legacy b' a' ∧
        linearAddress s false f.legacy x b f.size a = linearAddress s true e.legacy x' b' e.size a'))
    (h64 : s.is64 = true) :
    readOperand3 s true e.legacy e.size e.op3 = readOperand3 s false f.legacy f.size f.op3 := by
  rcases hop3 with ⟨x, b, rm, hf, he⟩ | ⟨x, b, a, x', b', a', hf, he, hstack, hla⟩
  · rw [hf, he]
    rfl
  · rw [hf, he, readOperand3, readOperand3, if_pos h64, if_pos h64, hstack, hla]

/-- Settles O24: both forms read the same operands, a stop of operand 3 or of `fma32` is the same, and a completed instruction
differs in its length alone. -/
theorem evexAgreesWithVex : Obligations.EvexAgreesWithVex := by
  unfold Obligations.EvexAgreesWithVex
  intro o f e s hlegal haaa hb hdst hsrc2 hop3 h64 hvex hevex hpce hpcf
  have hread := readOperand3_evex_eq_vex hop3 h64
  have hactive : s.isActive e = true := (s.isActive_iff e).2 (.inl haaa)
  cases hr : readOperand3 s false f.legacy f.size f.op3 with
  | error st =>
    have hsame : exec (.ofEvex o e) s = exec (.ofVex o f) s := by
      rw [exec_ofVex, exec_ofEvex, runVex_of_stop hvex hr, runEvex_of_stop hevex hlegal hactive (hread.trans hr)]
    refine ⟨fun t ht => ?_, fun r h => hsame.trans h, fun r h => hsame.trans h⟩
    rw [exec_ofVex, runVex_of_stop hvex hr] at ht
    exact ((readOperand3_stop hr).1 t ht).elim
  | ok ld =>
    have hf : VexOperands f s (f.dst.setWidth 5) (f.src2.setWidth 5) ld.value ld.event :=
      ⟨hvex, State.regNumber_long h64 _, State.regNumber_long h64 _, hr⟩
    have he : EvexOperands e s (f.dst.setWidth 5) (f.src2.setWidth 5) ld.value ld.event :=
      ⟨hevex, hlegal, hactive, (State.regNumber_long h64 _).trans hdst, (State.regNumber_long h64 _).trans hsrc2,
        hread.trans hr⟩
    cases hfma : fmaOn (.ofMxcsr s.mxcsr) s o (f.dst.setWidth 5) (f.src2.setWidth 5) ld.value with
    | stopped fl =>
      rw [hf.exec_stopped hfma, he.exec_stopped hb hfma]
      exact ⟨fun t ht => (by cases ht), fun r h => h, fun r h => h⟩
    | done res fl =>
      rw [hf.exec_done (State.advances_long h64 hpcf) hfma, he.exec_done hb (State.advances_long h64 hpce) hfma]
      refine ⟨fun t ht => ?_, fun r h => (by cases h), fun r h => (by cases h)⟩
      cases ht
      rfl

/-- Two opcodes that make the same factors of the operands do the same. -/
theorem runVex_eq_of_factors {o o' : Opcode} {f : VexForm} {s : State}
    (h : ∀ ld, readOperand3 s false f.legacy f.length f.op3 = .ok ld →
      s.factorsOf o (s.regNumber (f.dst.setWidth 5)) (s.regNumber (f.src2.setWidth 5)) ld.value =
        s.factorsOf o' (s.regNumber (f.dst.setWidth 5)) (s.regNumber (f.src2.setWidth 5)) ld.value) :
    runVex o f s = runVex o' f s := by
  unfold runVex
  cases hr : readOperand3 s false f.legacy f.length f.op3 with
  | error st => rfl
  | ok ld => simp only [h ld hr]

/-- Settles O25: with one register as all operands, all three orders give its low bits three times. -/
theorem sameRegisterFormsAgree : Obligations.SameRegisterFormsAgree := by
  unfold Obligations.SameRegisterFormsAgree
  intro f x b rm s hop3 hsrc2 hdst
  have hnumber : f.dst.setWidth 5 = operand3Number false x b rm := by
    have key : ∀ (x b : Bool) (rm : BitVec 3), (BitVec.ofBool b ++ rm : BitVec 4).setWidth 5 = operand3Number false x b rm := by
      decide
    rw [hdst]
    exact key x b rm
  have hsame (o o' : Opcode) : runVex o f s = runVex o' f s := by
    refine runVex_eq_of_factors fun ld hread => ?_
    rw [hop3, readOperand3_reg] at hread
    cases hread
    rw [← hsrc2, hnumber]
    cases o <;> cases o' <;> rfl
  exact ⟨hsame .op132 .op213, hsame .op213 .op231⟩

theorem runVex_setL (o : Opcode) (f : VexForm) (l : Bool) (s : State) : runVex o { f with l := l } s = runVex o f s := by
  simp only [runVex, VexForm.length_eq_size]
  rfl

theorem runVex_setX (o : Opcode) (f : VexForm) (x x' b : Bool) (rm : BitVec 3) (s : State) :
    runVex o { f with op3 := .reg x b rm } s = runVex o { f with op3 := .reg x' b rm } s := by
  simp only [runVex, VexForm.length_eq_size]
  rfl

theorem runEvex_setLl (o : Opcode) {f : EvexForm} {ll : BitVec 2} (s : State) (hb : f.b = false) (hf : f.ll ≠ 3#2)
    (hll : ll ≠ 3#2) : runEvex o { f with ll := ll } s = runEvex o f s := by
  have hlegal : EvexForm.legal { f with ll := ll } = f.legal := by
    have hll' : (ll != 3#2) = (f.ll != 3#2) := by rw [bne_iff_ne.2 hll, bne_iff_ne.2 hf]
    simp only [EvexForm.legal, hb, hll']
  obtain ⟨legacy, dst, src2, op3, aaa, z, b, ll'⟩ := f
  obtain rfl : b = false := hb
  simp only [runEvex, hlegal, finishMaskedOff, EvexForm.length_eq_size, Bool.false_eq_true, if_false]
  rfl

/-- Settles O4: the bits stand in no operand, in no check and not in the length. -/
theorem lengthBitsChangeNothing : Obligations.LengthBitsChangeNothing := by
  unfold Obligations.LengthBitsChangeNothing
  exact ⟨fun f l s => ⟨runVex_setL .op132 f l s, runVex_setL .op213 f l s, runVex_setL .op231 f l s⟩,
    fun f x x' b rm s => ⟨runVex_setX .op132 f x x' b rm s, runVex_setX .op213 f x x' b rm s, runVex_setX .op231 f x x' b rm s⟩,
    fun f ll s hb hf hll => ⟨runEvex_setLl .op132 s hb hf hll, runEvex_setLl .op213 s hb hf hll,
      runEvex_setLl .op231 s hb hf hll⟩⟩

/-! ### Reset and launch -/

/-- Settles O12. -/
theorem resetValues : Obligations.ResetValues := by
  unfold Obligations.ResetValues
  have hv (n : BitVec 5) : State.reset.vreg n = 0#512 := by
    simp [State.vreg, State.reset, Vector.get_eq_getElem]
  have hk (n : Fin 8) : State.reset.k.get n = 0#64 := by
    simp [State.reset, Vector.get_eq_getElem]
  have hx : ∀ n : BitVec 4, n ≠ 2#4 → State.reset.gpr false n = 0#64 := by decide
  exact ⟨hv, hk, hx, rfl, rfl, rfl, rfl, rfl, rfl, rfl, rfl, rfl, rfl, rfl, rfl⟩

/-- Settles O13: real-address mode recognises no form. -/
theorem resetRaisesUD : Obligations.ResetRaisesUD := by
  unfold Obligations.ResetRaisesUD
  intro i
  obtain ⟨o, f, rfl⟩ | ⟨o, f, rfl⟩ := i.eq_ofVex_or_ofEvex
  · rw [exec_ofVex, runVex_of_unusable rfl]
  · rw [exec_ofEvex, runEvex_of_unusable rfl]

/-- Settles O14: the bits that a launch sets are those that the mode and the checks of the forms read. -/
theorem launchEnablesTheForms : Obligations.LaunchEnablesTheForms := by
  unfold Obligations.LaunchEnablesTheForms
  intro s
  have hmode : s.launch64.mode = .long64 := by
    have hpe : s.launch64.pe = true := by simp [State.pe, State.launch64]
    have hlma : s.launch64.lma = true := by simp [State.lma, State.launch64]
    have hcsl : s.launch64.csL = true := rfl
    simp [State.mode, hpe, hlma, hcsl]
  have hts : s.launch64.ts = false := by simp [State.ts, State.launch64]
  have hsave : s.launch64.cr4.getLsbD 18 = true := by simp [State.launch64]
  have hfield (start len : Nat) (hones : (0xE7#64).extractLsb' start len = BitVec.allOnes len) :
      s.launch64.xcr0.extractLsb' start len = BitVec.allOnes len := by
    rw [State.launch64, BitVec.extractLsb'_or, hones, BitVec.or_allOnes]
  refine ⟨by simp [State.is64, hmode], by simp [State.osxmmexcpt, State.launch64], fun hfma => ⟨?_, hts⟩,
    fun havx512f => ⟨?_, hts⟩⟩
  · exact (State.vexUsable_iff _).2 ⟨.inl hmode, hsave, hfield 1 2 (by decide), hfma⟩
  · exact (State.evexUsable_iff _).2 ⟨.inl hmode, hsave, hfield 1 2 (by decide), hfield 5 3 (by decide), havx512f⟩

end Sys2Proof.Machine
end

section
/-! PROOFS. The memory operand: its bytes, its effective address and its segment, and what stops its access: #AC(0), #PF, the
oracle's refusal or a device. -/

namespace Sys2Proof.Machine

/-! ### Bytes of an operand (R51) -/

theorem toNat_append {n m : Nat} (x : BitVec n) (y : BitVec m) : (x ++ y).toNat = x.toNat * 2 ^ m + y.toNat := by
  rw [BitVec.toNat_append, ← Nat.shiftLeft_add_eq_or_of_lt y.isLt, Nat.shiftLeft_eq]

/-- Settles O42. -/
theorem operandIsLittleEndian : Obligations.OperandIsLittleEndian := by
  unfold Obligations.OperandIsLittleEndian
  intro s la
  simp only [Memory.read32, toNat_append]
  ring

/-! ### The segment base (R83) -/

/-- What one legacy byte makes of the segment base. -/
def overrideBase (s : State) (base : Word64) : LegacyByte → Word64
  | .fs => s.fsBase
  | .gs => s.gsBase
  | _ => base

theorem segmentBase_eq_foldl (s : State) (legacy : List LegacyByte) :
    segmentBase s legacy = legacy.foldl (overrideBase s) 0#64 := rfl

/-- Bytes other than 64H and 65H keep the base. -/
theorem foldl_overrideBase {s : State} {after : List LegacyByte} (h : ∀ p ∈ after, p ≠ .fs ∧ p ≠ .gs) (base : Word64) :
    after.foldl (overrideBase s) base = base := by
  induction after generalizing base with
  | nil => rfl
  | cons p ps ih =>
    obtain ⟨hfs, hgs⟩ := h p List.mem_cons_self
    have hkeep : overrideBase s base p = base := by
      cases p with
      | fs => exact (hfs rfl).elim
      | gs => exact (hgs rfl).elim
      | _ => rfl
    rw [List.foldl_cons, hkeep]
    exact ih (fun q hq => h q (List.mem_cons_of_mem _ hq)) base

/-- Settles O44: the fold over the legacy bytes forgets what came before the last override. -/
theorem lastSegmentOverrideCounts : Obligations.LastSegmentOverrideCounts := by
  unfold Obligations.LastSegmentOverrideCounts
  intro s before after h
  refine ⟨foldl_overrideBase h _, ?_, ?_⟩
  · rw [segmentBase_eq_foldl, List.foldl_append, List.foldl_cons, foldl_overrideBase h]
    rfl
  · rw [segmentBase_eq_foldl, List.foldl_append, List.foldl_cons, foldl_overrideBase h]
    rfl

/-! ### Effective addresses (R81, R83, R96, R99) -/

/-- The word stands for the integer modulo `m`. -/
def Denotes (m : Int) (w : Word64) (v : Int) : Prop := (w.toNat : Int) ≡ v [ZMOD m]

/-- What the address is read modulo: 2^32 with an address size of 32 bits, else 2^64. -/
def addressModulus (a32 : Bool) : Int := if a32 then 2 ^ 32 else 2 ^ 64

theorem addressModulus_dvd (a32 : Bool) : addressModulus a32 ∣ 2 ^ 64 := by
  cases a32
  · exact dvd_rfl
  · exact pow_dvd_pow 2 (by decide)

/-- A natural number cut to 64 bits keeps its residue. -/
theorem mod_two_pow_modEq {m : Int} (hm : m ∣ 2 ^ 64) (n : Nat) : ((n % 2 ^ 64 : Nat) : Int) ≡ n [ZMOD m] := by
  refine Int.ModEq.of_dvd hm ?_
  push_cast
  exact Int.mod_modEq _ _

section
variable {m : Int} (hm : m ∣ 2 ^ 64)
include hm

theorem Denotes.add {w w' : Word64} {v v' : Int} (h : Denotes m w v) (h' : Denotes m w' v') : Denotes m (w + w') (v + v') := by
  have hcut := mod_two_pow_modEq hm (w.toNat + w'.toNat)
  rw [← BitVec.toNat_add] at hcut
  push_cast at hcut
  exact hcut.trans (Int.ModEq.add h h')

theorem Denotes.mul {w w' : Word64} {v v' : Int} (h : Denotes m w v) (h' : Denotes m w' v') : Denotes m (w * w') (v * v') := by
  have hcut := mod_two_pow_modEq hm (w.toNat * w'.toNat)
  rw [← BitVec.toNat_mul] at hcut
  push_cast at hcut
  exact hcut.trans (Int.ModEq.mul h h')

theorem Denotes.shiftLeft {w : Word64} {v : Int} (h : Denotes m w v) (k : Nat) : Denotes m (w <<< k) (v * 2 ^ k) := by
  have hcut := mod_two_pow_modEq hm (w.toNat * 2 ^ k)
  rw [← Nat.shiftLeft_eq, ← BitVec.toNat_shiftLeft, Nat.shiftLeft_eq] at hcut
  push_cast at hcut
  exact hcut.trans (Int.ModEq.mul_right _ h)

theorem denotes_ofNat (n : Nat) : Denotes m (BitVec.ofNat 64 n) n := by
  rw [Denotes, BitVec.toNat_ofNat]
  exact mod_two_pow_modEq hm n

/-- A sign-extended displacement stands for its signed value. -/
theorem denotes_signExtend {k : Nat} (hk : k ≤ 64) (d : BitVec k) : Denotes m (d.signExtend 64) d.toInt := by
  refine Int.ModEq.of_dvd hm ?_
  rw [← BitVec.toInt_signExtend_of_le hk, BitVec.toInt_eq_toNat_bmod]
  exact Int.bmod_emod.symm

end

theorem denotes_self (m : Int) (w : Word64) : Denotes m w w.toNat := Int.ModEq.refl _

/-- A general register stands for its contents, whole or cut to the address size. -/
theorem denotes_gpr (s : State) (a32 : Bool) (n : BitVec 4) :
    Denotes (addressModulus a32) (s.gpr a32 n) ((s.x.get ⟨n.toNat, n.isLt⟩).toNat) := by
  cases a32 with
  | false => exact Int.ModEq.refl _
  | true =>
    have hlow (w : Word64) : ((w.extractLsb' 0 32).setWidth 64).toNat = w.toNat % 2 ^ 32 := by
      simp only [BitVec.toNat_setWidth, BitVec.extractLsb'_toNat, Nat.shiftRight_zero]
      omega
    simp only [State.gpr, if_true, Denotes, addressModulus, hlow]
    push_cast
    exact Int.mod_modEq _ _

/-- The register number that an address uses: the extension bit counts in 64-bit mode alone. -/
theorem gprNumber_eq (s : State) (ext : Bool) (n : BitVec 3) :
    s.gprNumber (BitVec.ofBool ext ++ n) = BitVec.ofBool (s.is64 && ext) ++ n := by
  have key : ∀ (ext : Bool) (n : BitVec 3), (BitVec.ofBool ext ++ n : BitVec 4) &&& 7#4 = BitVec.ofBool false ++ n := by
    decide
  unfold State.gprNumber
  cases s.is64 with
  | false => exact key ext n
  | true => rfl

/-- The effective address is the integer that the sum of R81 stands for, modulo the address size. -/
theorem effectiveAddress_toNat {s : State} {evex x b : Bool} {legacy : List LegacyByte} {len : Nat} {a : Addr} {v : Int}
    (h : Denotes (addressModulus (s.addressSize32 legacy))
      (addressSum s evex (s.addressSize32 legacy) x b (s.pc + BitVec.ofNat 64 len) a) v) :
    ((effectiveAddress s evex legacy x b len a).toNat : Int) = v % addressModulus (s.addressSize32 legacy) := by
  simp only [effectiveAddress]
  revert h
  generalize addressSum s evex (s.addressSize32 legacy) x b (s.pc + BitVec.ofNat 64 len) a = sum
  intro h
  rw [← h.eq]
  cases s.addressSize32 legacy with
  | false =>
    have hlt := sum.isLt
    simp only [addressModulus, Bool.false_eq_true, if_false]
    omega
  | true =>
    simp only [addressModulus, if_true, BitVec.toNat_setWidth, BitVec.extractLsb'_toNat, Nat.shiftRight_zero]
    omega

/-- Settles O43: each addressing form adds words that stand for its summands, and the address size cuts the sum. -/
theorem effectiveAddresses : Obligations.EffectiveAddresses := by
  unfold Obligations.EffectiveAddresses
  intro s evex x b legacy len sc i3 b3 d8 d32 _ ea m number reg baseReg index scaled next
  have hm : m = addressModulus (s.addressSize32 legacy) := by
    have hsize : s.addressSize32 legacy = !(decide (s.is64 = true ∧ LegacyByte.addrSize ∉ legacy)) := by
      simp only [State.addressSize32, hasAddr32, List.contains_eq_mem]
      by_cases hmem : LegacyByte.addrSize ∈ legacy <;> cases s.is64 <;> simp [hmem]
    by_cases h : s.is64 = true ∧ LegacyByte.addrSize ∉ legacy <;> simp [m, addressModulus, hsize, h]
  have hdvd : addressModulus (s.addressSize32 legacy) ∣ 2 ^ 64 := addressModulus_dvd _
  have hbase : Denotes (addressModulus (s.addressSize32 legacy)) (basePart s (s.addressSize32 legacy) b b3) baseReg := by
    rw [basePart, gprNumber_eq]
    exact denotes_gpr s _ _
  have hindex : Denotes (addressModulus (s.addressSize32 legacy)) (indexPart s (s.addressSize32 legacy) x sc i3) index := by
    simp only [indexPart, gprNumber_eq, index, number]
    split
    · exact Int.ModEq.refl 0
    · exact (denotes_gpr s _ _).shiftLeft hdvd _
  have hscaled : Denotes (addressModulus (s.addressSize32 legacy)) (dispValue evex (.disp8 d8)) scaled := by
    have hd := denotes_signExtend hdvd (by decide) d8
    cases evex with
    | false => exact hd
    | true =>
      have hfour := hd.mul hdvd (denotes_ofNat hdvd 4)
      rw [mul_comm d8.toInt] at hfour
      exact hfour
  have hdisp32 := denotes_signExtend hdvd (by decide) d32
  have hnext : Denotes (addressModulus (s.addressSize32 legacy))
      (if s.is64 then s.pc + BitVec.ofNat 64 len else 0#64) next := by
    simp only [next]
    split
    · exact (denotes_self _ _).add hdvd (denotes_ofNat hdvd len)
    · exact Int.ModEq.refl 0
  have hnone {w : Word64} {v : Int} (h : Denotes (addressModulus (s.addressSize32 legacy)) w v) :
      Denotes (addressModulus (s.addressSize32 legacy)) (w + dispValue evex .none) v := by
    have hzero : w + dispValue evex .none = w := BitVec.add_zero w
    rwa [hzero]
  rw [hm]
  exact ⟨effectiveAddress_toNat (a := .base b3 .none) (hnone hbase),
    effectiveAddress_toNat (a := .base b3 (.disp8 d8)) (hbase.add hdvd hscaled),
    effectiveAddress_toNat (a := .base b3 (.disp32 d32)) (hbase.add hdvd hdisp32),
    effectiveAddress_toNat (a := .sib sc i3 b3 .none) (hnone (hbase.add hdvd hindex)),
    effectiveAddress_toNat (a := .sib sc i3 b3 (.disp8 d8)) ((hbase.add hdvd hindex).add hdvd hscaled),
    effectiveAddress_toNat (a := .sib sc i3 b3 (.disp32 d32)) ((hbase.add hdvd hindex).add hdvd hdisp32),
    effectiveAddress_toNat (a := .sibNoBase sc i3 d32) (hindex.add hdvd hdisp32),
    effectiveAddress_toNat (a := .ripRel d32) (hnext.add hdvd hdisp32)⟩

/-! ### The access of a canonical operand (R57, R192) -/

theorem readOperand3_of_canonical {s : State} {evex x b : Bool} {legacy : List LegacyByte} {len : Nat} {a : Addr}
    (h64 : s.is64 = true) (hcanonical : ∀ q ∈ operandBytes (linearAddress s evex legacy x b len a), s.canonical q = true) :
    readOperand3 s evex legacy len (.mem x b a) = accessOperand s (linearAddress s evex legacy x b len a) := by
  have hall : s.operandCanonical (linearAddress s evex legacy x b len a) = true := List.all_eq_true.2 hcanonical
  rw [readOperand3, if_pos h64, memRead, hall]
  rfl

section
variable {s : State} {o : Opcode} {x b : Bool} {a : Addr} {evex : Bool} {i : Instr} {legacy : List LegacyByte}

/-- What stops the access of a canonical operand is the outcome of the instruction. -/
theorem AccessesMemory.exec_of_accessStop {st : Stop} (h : AccessesMemory s o x b a evex i legacy) (h64 : s.is64 = true)
    (hcanonical : ∀ q ∈ operandBytes (linearAddress s evex legacy x b i.size a), s.canonical q = true)
    (hstop : accessOperand s (linearAddress s evex legacy x b i.size a) = .error st) : exec i s = st.outcome s :=
  h.exec_of_stop ((readOperand3_of_canonical h64 hcanonical).trans hstop)

/-- An instruction that reads its memory operand ends with what `fma32` answers under MXCSR. -/
theorem AccessesMemory.exec_of_read {ld : Loaded} (h : AccessesMemory s o x b a evex i legacy)
    (hread : readOperand3 s evex legacy i.size (.mem x b a) = .ok ld) :
    ∃ out n, exec i s = finishMxcsr out ld.event n i.size s := by
  rcases h with ⟨rfl, hready, f, rfl, hop3, rfl⟩ | ⟨rfl, hready, f, rfl, hop3, rfl, hlegal, hactive⟩
  · rw [size_ofVex, ← hop3] at hread
    exact ⟨_, _, by rw [exec_ofVex, size_ofVex, runVex_of_read hready hread]⟩
  · rw [size_ofEvex, ← hop3] at hread
    exact ⟨_, _, by rw [exec_ofEvex, size_ofEvex, runEvex_of_read hready hlegal ((s.isActive_iff f).2 hactive)
      (b_eq_false_of_mem hop3 hlegal) hread]⟩

end

/-- The end of an instruction raises #XM or #UD alone. -/
theorem finishMxcsr_ne_ac (out : FmaOutcome) (event : Option ReadEvent) (n : BitVec 5) (len : Nat) (s t : State) :
    finishMxcsr out event n len s ≠ .fault (.exception .ac t) := by
  intro h
  cases out with
  | stopped fl =>
    rw [finishMxcsr_stopped] at h
    split at h <;> cases h
  | done res fl => exact advance_completedAt_fault h

/-- The alignment check is on and the operand is not aligned. -/
def State.misaligned (s : State) (la : Word64) : Bool := s.alignmentChecked && la.toNat % 4 != 0

theorem misaligned_eq_false {s : State} {la : Word64} (h : s.alignmentChecked = true → la.toNat % 4 = 0) :
    s.misaligned la = false := by
  cases hc : s.alignmentChecked with
  | false => simp [State.misaligned, hc]
  | true => simp [State.misaligned, h hc]

/-- Without a misaligned operand the access answers what stops the read. -/
theorem accessOperand_of_stop {s : State} {la : Word64} {st : Stop} (haligned : s.misaligned la = false)
    (hstop : s.readStop la = some st) : accessOperand s la = .error st := by
  rw [State.misaligned] at haligned
  cases st <;> simp [accessOperand, hstop, haligned]

/-- An access raises #AC(0) only for a misaligned operand. -/
theorem misaligned_of_accessOperand_ac {s : State} {la : Word64} (h : accessOperand s la = .error (.raises .ac)) :
    s.misaligned la = true := by
  by_contra hno
  have haligned := hno
  rw [Bool.not_eq_true, State.misaligned] at haligned
  rcases s.accessStop_spec .read la (operandBytes la) (s.readPageFault la) with hs | ⟨code, a, hs⟩ | ⟨reason, hs⟩ | hs <;>
    simp [accessOperand, State.readStop, hs, haligned] at h

/-- Without a page fault no exception stops the read. -/
theorem readStop_ne_raises {s : State} {la : Word64} (h : s.NoReadFault la) (e : Exception) :
    s.readStop la ≠ some (.raises e) := by
  have hdevice : s.deviceStop (operandBytes la) ≠ some (.raises e) := by
    unfold State.deviceStop
    split <;> simp
  obtain ⟨hanswer, hpages⟩ := h
  unfold State.readStop State.accessStop
  split
  next code addr hfault => exact (hanswer code addr hfault).elim
  · simp
  · exact hdevice
  next hnone =>
    rw [readPageFault_none (hpages hnone)]
    exact hdevice

/-- A misaligned operand raises #AC(0), unless a page fault is there and comes first. -/
theorem accessOperand_of_misaligned {s : State} {la : Word64} (hmis : s.misaligned la = true)
    (hfirst : s.cfg.acBeforePf = true ∨ s.NoReadFault la) : accessOperand s la = .error (.raises .ac) := by
  rw [State.misaligned] at hmis
  cases hstop : s.readStop la with
  | none => simp [accessOperand, hstop, hmis]
  | some st =>
    cases st with
    | raises e =>
      have hac := hfirst.resolve_right fun hno => readStop_ne_raises hno e hstop
      simp [accessOperand, hstop, hmis, hac]
    | refuses r => simp [accessOperand, hstop, hmis]

/-- #AC(0) of an instruction is that of its misaligned operand. -/
theorem AccessesMemory.misaligned_of_ac {s t : State} {o : Opcode} {x b : Bool} {a : Addr} {evex : Bool} {i : Instr}
    {legacy : List LegacyByte} (h : AccessesMemory s o x b a evex i legacy) (h64 : s.is64 = true)
    (hfault : exec i s = .fault (.exception .ac t)) :
    s.misaligned (linearAddress s evex legacy x b i.size a) = true := by
  cases hread : readOperand3 s evex legacy i.size (.mem x b a) with
  | ok ld =>
    obtain ⟨out, n, hexec⟩ := h.exec_of_read hread
    exact (finishMxcsr_ne_ac out ld.event n i.size s t (hexec.symm.trans hfault)).elim
  | error st =>
    rw [h.exec_of_stop hread] at hfault
    have hst : st = .raises .ac := by
      cases st with
      | raises e => cases hfault; rfl
      | refuses r => cases hfault
    rw [hst, readOperand3, if_pos h64, memRead] at hread
    split at hread
    · split at hread <;> cases hread
    · exact misaligned_of_accessOperand_ac hread

/-- Settles O30: a misaligned operand is what #AC(0) is raised for and the only thing it is raised for. -/
theorem misalignedOperandFaults : Obligations.MisalignedOperandFaults := by
  unfold Obligations.MisalignedOperandFaults
  intro s o x b a evex i legacy haccess h64 la
  have hnever (haligned : s.misaligned la = false) (t : State) : exec i s ≠ .fault (.exception .ac t) := by
    intro hfault
    rw [AccessesMemory.misaligned_of_ac haccess h64 hfault] at haligned
    cases haligned
  refine ⟨fun hmis ham hac hcpl hcanonical hfirst => ?_, fun hzero => ?_, fun hoff => ?_, rfl⟩
  · have hmisaligned : s.misaligned la = true := by
      have ham' : s.am = true := ham
      have hac' : s.ac = true := hac
      simp [State.misaligned, State.alignmentChecked, ham', hac', hcpl, hmis]
    rw [AccessesMemory.exec_of_accessStop haccess h64 hcanonical (accessOperand_of_misaligned hmisaligned hfirst)]
    rfl
  · exact hnever (misaligned_eq_false fun _ => hzero)
  · refine hnever (misaligned_eq_false fun hon => ?_)
    simp only [State.alignmentChecked, Bool.and_eq_true, beq_iff_eq] at hon
    obtain ⟨⟨ham, hac⟩, hcpl⟩ := hon
    rcases hoff with h | h | h
    · exact (Bool.false_ne_true (h.symm.trans ham)).elim
    · exact (Bool.false_ne_true (h.symm.trans hac)).elim
    · exact (h hcpl).elim

/-! ### Page faults (R57, R189) -/

/-- An aligned operand whose four bytes have the same attributes lies in one page. -/
theorem straddles_eq_false {s : State} {la : Word64} (haligned : la.toNat % 4 = 0)
    (hsame : ∀ q ∈ operandBytes la, s.attrAt q = s.attrAt la) : s.straddles la = false := by
  have hany : ((operandBytes la).any fun a => s.attrAt a != s.attrAt la) = false := by
    simp only [List.any_eq_false, bne_iff_ne, ne_eq, not_not]
    exact hsame
  rw [State.straddles, hany, Bool.or_false, decide_eq_false_iff_not]
  omega

/-- An operand in one page that denies the read faults with the code of that page at its own address. -/
theorem readPageFault_of_page {s : State} {la : Word64} (haligned : la.toNat % 4 = 0)
    (hsame : ∀ q ∈ operandBytes la, s.attrAt q = s.attrAt la)
    (hdenied : (!(s.attrAt la).present || (s.attrAt la).violates .read (s.cpl == 3#2)) = true) :
    s.readPageFault la = some ((s.attrAt la).faultCode .read (s.cpl == 3#2), la) := by
  have hfirst : s.pageFaultAt .read la = some ((s.attrAt la).faultCode .read (s.cpl == 3#2)) := by
    simp only [State.pageFaultAt, hdenied, if_true]
  have hfind : (operandBytes la).findSome? (s.pageFaultAt .read) = some ((s.attrAt la).faultCode .read (s.cpl == 3#2)) := by
    rw [operandBytes, List.findSome?_cons, hfirst]
  simp only [State.readPageFault, hfind, straddles_eq_false haligned hsame, Bool.false_eq_true, if_false]

/-- The page-fault codes of a read that one cause alone denies (R189). -/
theorem faultCode_read_cases (p : PageAttr) (cpl3 : Bool) :
    let us : BitVec 32 := if cpl3 then 4#32 else 0#32
    let code := p.faultCode .read cpl3
    ((p.present, p.reservedSet, p.keyDenied, p.sgxDenied) = (false, false, false, false) → code = us) ∧
      ((p.present, p.reservedSet, p.keyDenied, p.sgxDenied) = (true, true, false, false) → code = us ||| 0x0009#32) ∧
      ((p.present, p.reservedSet, p.keyDenied, p.sgxDenied) = (true, false, true, false) → code = us ||| 0x0021#32) ∧
      ((p.present, p.reservedSet, p.keyDenied, p.sgxDenied) = (true, false, false, true) → code = us ||| 0x8001#32) ∧
      ((p.present, p.reservedSet, p.keyDenied, p.sgxDenied) = (true, false, false, false) → code = us ||| 0x0001#32) := by
  obtain ⟨present, user, execDisable, reservedSet, keyDenied, sgxDenied, device⟩ := p
  simp only [PageAttr.faultCode, Prod.mk.injEq]
  refine ⟨?_, ?_, ?_, ?_, ?_⟩ <;>
  · rintro ⟨rfl, rfl, rfl, rfl⟩
    revert cpl3
    decide

/-- Settles O31: the oracle's fault, or that of the page, stops the read of an aligned operand, and the code has the bits of the
page's attributes. -/
theorem operandPageFaults : Obligations.OperandPageFaults := by
  unfold Obligations.OperandPageFaults
  intro s o x b a evex i legacy haccess h64 la haligned hcanonical
  have hexec {code : BitVec 32} {addr : Word64} (hstop : s.readStop la = some (.raises (.pf code addr))) :
      exec i s = .fault (.exception (.pf code addr) { s with cr2 := addr }) := by
    rw [AccessesMemory.exec_of_accessStop haccess h64 hcanonical
      (accessOperand_of_stop (misaligned_eq_false fun _ => haligned) hstop)]
    rfl
  refine ⟨fun code addr hanswer => hexec (by simp [State.readStop, State.accessStop, hanswer]), fun hanswer hsame => ?_⟩
  intro p supervisor us hcause
  have hdenied : (!p.present || p.violates .read (s.cpl == 3#2)) = true := by
    rcases hcause with h | h | h | h | h
    · simp [h]
    · simp [PageAttr.violates, h]
    · simp [PageAttr.violates, h]
    · simp [PageAttr.violates, h]
    · have h' : ((s.cpl == 3#2) && !p.user) = true := by rw [Bool.and_comm]; exact h
      simp only [PageAttr.violates, h', Bool.or_true, Bool.true_or]
  have hfault := readPageFault_of_page haligned hsame hdenied
  have hus : us = if (s.cpl == 3#2) = true then 4#32 else 0#32 := by simp only [us, beq_iff_eq]
  obtain ⟨hp, hwrite, huser, hfetch, hsix⟩ := faultCode_bits p .read (s.cpl == 3#2)
  obtain ⟨hnotPresent, hreserved, hkey, hsgx, hplain⟩ := faultCode_read_cases p (s.cpl == 3#2)
  refine ⟨p.faultCode .read (s.cpl == 3#2), hexec (by simp [State.readStop, State.accessStop, hanswer, hfault, p]),
    hp, hwrite, huser, hfetch, hsix, ?_⟩
  rw [hus]
  refine ⟨hnotPresent, fun h => hreserved ?_, fun h => hkey ?_, fun h => hsgx ?_, fun h => ?_⟩
  · simp only [Prod.mk.injEq] at h ⊢
    exact ⟨h.1, h.2.1, h.2.2.1, h.2.2.2.1⟩
  · simp only [Prod.mk.injEq] at h ⊢
    exact ⟨h.1, h.2.1, h.2.2.1, h.2.2.2.1⟩
  · simp only [Prod.mk.injEq] at h ⊢
    exact ⟨h.1, h.2.1, h.2.2.1, h.2.2.2.1⟩
  · simp only [Prod.mk.injEq] at h hplain
    obtain ⟨h1, h2, h3, h4, hsuper⟩ := h
    have hcpl : (s.cpl == 3#2) = true := by
      simp only [supervisor, Bool.and_eq_true] at hsuper
      exact hsuper.2
    rw [hplain ⟨h1, h2, h3, h4⟩, hcpl]
    rfl

/-- Settles O32: with nothing else in the way a device stops the read, and so does the oracle's refusal. -/
theorem deviceOperandRefused : Obligations.DeviceOperandRefused := by
  unfold Obligations.DeviceOperandRefused
  intro s o x b a evex i legacy haccess h64 la hcanonical haligned
  have hexec {r : Refusal} (hstop : s.readStop la = some (.refuses r)) : exec i s = .refused r := by
    rw [AccessesMemory.exec_of_accessStop haccess h64 hcanonical (accessOperand_of_stop (misaligned_eq_false haligned) hstop)]
    rfl
  refine ⟨fun hfault hrefuse hdevice => hexec ?_, fun reason hanswer => hexec ?_⟩
  · rw [readStop_of_noReadFault hfault hrefuse, State.deviceStop, if_pos]
    simpa only [List.any_eq_true] using hdevice
  · simp [State.readStop, State.accessStop, hanswer]

end Sys2Proof.Machine
end

section
/-! PROOFS. Two runs of one instruction: from states that differ in vector register bits that it does not name (R23, R226), and
from states that differ in the privilege level (R205). -/

namespace Sys2Proof.Machine

/-! ### What a completed form has passed through -/

/-- A VEX form that completes was available, read its operand 3 and ended with what `fma32` answers. -/
theorem runVex_next_cases {o : Opcode} {f : VexForm} {s t : State} (h : runVex o f s = .next t) :
    s.ReadyVex ∧ ∃ ld, readOperand3 s false f.legacy f.size f.op3 = .ok ld ∧
      finishMxcsr (fmaOn (.ofMxcsr s.mxcsr) s o (s.regNumber (f.dst.setWidth 5)) (s.regNumber (f.src2.setWidth 5)) ld.value)
        ld.event (s.regNumber (f.dst.setWidth 5)) f.size s = .next t := by
  have hready : s.ReadyVex := by
    unfold runVex at h
    split at h
    · cases h
    next hud =>
      split at h
      · cases h
      next hnm => exact ⟨by simpa using hud, by simpa using hnm⟩
  refine ⟨hready, ?_⟩
  cases hread : readOperand3 s false f.legacy f.size f.op3 with
  | error st =>
    rw [runVex_of_stop hready hread] at h
    exact ((readOperand3_stop hread).1 t h).elim
  | ok ld => exact ⟨ld, rfl, (runVex_of_read hready hread).symm.trans h⟩

theorem legal_of_runEvex_next {o : Opcode} {f : EvexForm} {s t : State} (h : runEvex o f s = .next t) : f.legal = true := by
  unfold runEvex at h
  split at h
  · cases h
  next hud =>
    simp only [Bool.or_eq_true, Bool.not_eq_true', not_or, Bool.not_eq_false] at hud
    exact hud.1

/-- An EVEX form that completes was available and legal, and was masked off or ended with what `fma32` answers, under static
rounding or under MXCSR. -/
theorem runEvex_next_cases {o : Opcode} {f : EvexForm} {s t : State} (h : runEvex o f s = .next t) :
    s.ReadyEvex ∧ f.legal = true ∧
      ((s.isActive f = false ∧ finishMaskedOff f (s.regNumber f.dst) s = .next t) ∨
        (s.isActive f = true ∧ ∃ ld, readOperand3 s true f.legacy f.size f.op3 = .ok ld ∧
          ((f.b = true ∧ finishSae (fmaOn (.static s.mxcsr f.ll) s o (s.regNumber f.dst) (s.regNumber f.src2) ld.value)
              ld.event (s.regNumber f.dst) f.size s = .next t) ∨
            (f.b = false ∧ finishMxcsr (fmaOn (.ofMxcsr s.mxcsr) s o (s.regNumber f.dst) (s.regNumber f.src2) ld.value)
              ld.event (s.regNumber f.dst) f.size s = .next t)))) := by
  have hready := ready_of_runEvex_next h
  have hlegal := legal_of_runEvex_next h
  refine ⟨hready, hlegal, ?_⟩
  cases hactive : s.isActive f with
  | false => exact .inl ⟨rfl, (runEvex_of_maskedOff hready hlegal hactive).symm.trans h⟩
  | true =>
    refine .inr ⟨rfl, ?_⟩
    cases hread : readOperand3 s true f.legacy f.size f.op3 with
    | error st =>
      rw [runEvex_of_stop hready hlegal hactive hread] at h
      exact ((readOperand3_stop hread).1 t h).elim
    | ok ld =>
      refine ⟨ld, rfl, ?_⟩
      cases hb : f.b with
      | true => exact .inl ⟨rfl, (runEvex_of_read_static hready hlegal hactive hb hread).symm.trans h⟩
      | false => exact .inr ⟨rfl, (runEvex_of_read hready hlegal hactive hb hread).symm.trans h⟩

/-! ### Other vector registers (R23, R226) -/

/-- The state with other vector registers. -/
def State.setVectors (s : State) (w : Vector VecReg 32) : State := { s with v := w }

/-- The low bits of a register lie in its bits 127:0. -/
theorem low_eq_of_extract {s u : State} {n : BitVec 5}
    (h : (u.vreg n).extractLsb' 0 128 = (s.vreg n).extractLsb' 0 128) : u.low n = s.low n := by
  have hlow (r : VecReg) : r.extractLsb' 0 32 = (r.extractLsb' 0 128).extractLsb' 0 32 := by
    rw [BitVec.extractLsb'_extractLsb'_of_le (by decide)]
  rw [State.low, State.low, hlow, h, ← hlow]

/-- `mergeLow` keeps nothing of the old register but its bits 127:32. -/
theorem mergeLow_eq_of_extract {r r' : VecReg} (h : r.extractLsb' 0 128 = r'.extractLsb' 0 128) (low : Single) :
    mergeLow r low = mergeLow r' low := by
  have hmid (q : VecReg) : q.extractLsb' 32 96 = (q.extractLsb' 0 128).extractLsb' 32 96 := by
    rw [BitVec.extractLsb'_extractLsb'_of_le (by decide)]
  rw [mergeLow, mergeLow, hmid, h, ← hmid]

/-- `u` has the bits of the vector registers that an instruction with the registers `n1` and `n2` reads. -/
structure SameNamedBits (s u : State) (n1 n2 : BitVec 5) : Prop where
  dst : (u.vreg n1).extractLsb' 0 128 = (s.vreg n1).extractLsb' 0 128
  src2 : u.low n2 = s.low n2

/-- `t` and `t'` come from `s` and `u` by the same writes, to the register `n`. -/
def SameWrites (s u : State) (n : BitVec 5) (t t' : State) : Prop :=
  ∃ low fl event a, t = completedAt s n low fl event a ∧ t' = completedAt u n low fl event a

theorem advance_sameWrites {s t : State} (w : Vector VecReg 32) {n : BitVec 5} {len : Nat} {low : Single} {fl : FpFlags}
    {event : Option ReadEvent} (h : advance len (((s.orFlags fl).noteRead event).writeLow n low) = .next t) :
    ∃ t', advance len ((((s.setVectors w).orFlags fl).noteRead event).writeLow n low) = .next t' ∧
      SameWrites s (s.setVectors w) n t t' := by
  have hadvance : advance len (s.setVectors w) = match advance len s with
      | .next t => .next (t.setVectors w)
      | .fault f => .fault f
      | .refused r => .refused r := by
    have h64 : (s.setVectors w).is64 = s.is64 := rfl
    have hpc : (s.setVectors w).pc = s.pc := rfl
    have hcanonical (a : Word64) : (s.setVectors w).canonical a = s.canonical a := rfl
    simp only [advance, h64, hpc, hcanonical]
    split
    · split <;> rfl
    · split <;> rfl
  rw [advance_completedAt] at h ⊢
  rw [hadvance]
  cases hs : advance len s with
  | next q =>
    rw [hs] at h
    cases h
    exact ⟨_, rfl, low, fl, event, q.pc, rfl, rfl⟩
  | fault f =>
    rw [hs] at h
    cases h
  | refused r =>
    rw [hs] at h
    cases h

theorem finishMxcsr_sameWrites {s t : State} (w : Vector VecReg 32) {out : FmaOutcome} {event : Option ReadEvent}
    {n : BitVec 5} {len : Nat} (h : finishMxcsr out event n len s = .next t) :
    ∃ t', finishMxcsr out event n len (s.setVectors w) = .next t' ∧ SameWrites s (s.setVectors w) n t t' := by
  cases out with
  | stopped fl => cases h
  | done res fl => exact advance_sameWrites w h

theorem finishSae_sameWrites {s t : State} (w : Vector VecReg 32) {out : FmaOutcome} {event : Option ReadEvent}
    {n : BitVec 5} {len : Nat} (h : finishSae out event n len s = .next t) :
    ∃ t', finishSae out event n len (s.setVectors w) = .next t' ∧ SameWrites s (s.setVectors w) n t t' := by
  cases out with
  | stopped fl => cases h
  | done res fl =>
    have hw := advance_sameWrites (s := s) (t := t) (n := n) (len := len) (low := res) (fl := {}) (event := event) w
    simp only [State.orFlags_none] at hw
    exact hw h

theorem finishMaskedOff_sameWrites {s t : State} {w : Vector VecReg 32} {f : EvexForm} {n : BitVec 5}
    (hlow : (s.setVectors w).low n = s.low n) (h : finishMaskedOff f n s = .next t) :
    ∃ t', finishMaskedOff f n (s.setVectors w) = .next t' ∧ SameWrites s (s.setVectors w) n t t' := by
  have hmasked : maskedOffLow f n (s.setVectors w) = maskedOffLow f n s := by rw [maskedOffLow, maskedOffLow, hlow]
  rw [finishMaskedOff_eq_advance] at h ⊢
  rw [hmasked]
  exact advance_sameWrites w h

section
variable {s : State} {w : Vector VecReg 32}

theorem fmaOn_setVectors {n1 n2 : BitVec 5} (h : SameNamedBits s (s.setVectors w) n1 n2) (c : FpControl) (o : Opcode)
    (s3 : Single) : fmaOn c (s.setVectors w) o n1 n2 s3 = fmaOn c s o n1 n2 s3 := by
  have hfactors : (s.setVectors w).factorsOf o n1 n2 s3 = s.factorsOf o n1 n2 s3 := by
    cases o <;> simp only [State.factorsOf, low_eq_of_extract h.dst, h.src2]
  simp only [fmaOn, hfactors]
  rfl

/-- Operand 3 is read alike where its register, if it is one, has the same low bits. -/
theorem readOperand3_setVectors (h64 : s.is64 = true) {evex : Bool} {legacy : List LegacyByte} {len : Nat} {op3 : Operand3}
    (h : ∀ n, Operand3.number evex op3 = some n → (s.setVectors w).low n = s.low n) :
    readOperand3 (s.setVectors w) evex legacy len op3 = readOperand3 s evex legacy len op3 := by
  cases op3 with
  | reg x b rm =>
    have hnumber (u : State) (hu : u.is64 = true) : u.regNumber (operand3Number evex x b rm) = operand3Number evex x b rm :=
      State.regNumber_long hu _
    rw [readOperand3_reg, readOperand3_reg, hnumber s h64, hnumber (s.setVectors w) h64, h _ rfl]
  | mem x b a => rfl

theorem runVex_setVectors {t : State} {o : Opcode} {f : VexForm} (h64 : s.is64 = true)
    (hbits : SameNamedBits s (s.setVectors w) (f.dst.setWidth 5) (f.src2.setWidth 5))
    (h3 : ∀ n, Operand3.number false f.op3 = some n → (s.setVectors w).low n = s.low n) (h : runVex o f s = .next t) :
    ∃ t', runVex o f (s.setVectors w) = .next t' ∧ SameWrites s (s.setVectors w) (f.dst.setWidth 5) t t' := by
  obtain ⟨hready, ld, hread, hfinish⟩ := runVex_next_cases h
  rw [← readOperand3_setVectors h64 h3] at hread
  rw [runVex_of_read (s := s.setVectors w) hready hread]
  simp only [State.regNumber_long h64, State.regNumber_long (s := s.setVectors w) h64] at hfinish ⊢
  rw [fmaOn_setVectors hbits]
  exact finishMxcsr_sameWrites w hfinish

theorem runEvex_setVectors {t : State} {o : Opcode} {f : EvexForm} (h64 : s.is64 = true)
    (hbits : SameNamedBits s (s.setVectors w) f.dst f.src2)
    (h3 : ∀ n, Operand3.number true f.op3 = some n → (s.setVectors w).low n = s.low n) (h : runEvex o f s = .next t) :
    ∃ t', runEvex o f (s.setVectors w) = .next t' ∧ SameWrites s (s.setVectors w) f.dst t t' := by
  obtain ⟨hready, hlegal, ⟨hoff, hfinish⟩ | ⟨hactive, ld, hread, hfinish⟩⟩ := runEvex_next_cases h
  · rw [runEvex_of_maskedOff (s := s.setVectors w) hready hlegal hoff]
    simp only [State.regNumber_long h64, State.regNumber_long (s := s.setVectors w) h64] at hfinish ⊢
    exact finishMaskedOff_sameWrites (low_eq_of_extract hbits.dst) hfinish
  · rw [← readOperand3_setVectors h64 h3] at hread
    simp only [State.regNumber_long h64] at hfinish
    rcases hfinish with ⟨hb, hfinish⟩ | ⟨hb, hfinish⟩
    · rw [runEvex_of_read_static (s := s.setVectors w) hready hlegal hactive hb hread]
      simp only [State.regNumber_long (s := s.setVectors w) h64]
      rw [fmaOn_setVectors hbits]
      exact finishSae_sameWrites w hfinish
    · rw [runEvex_of_read (s := s.setVectors w) hready hlegal hactive hb hread]
      simp only [State.regNumber_long (s := s.setVectors w) h64]
      rw [fmaOn_setVectors hbits]
      exact finishMxcsr_sameWrites w hfinish

end

/-- Settles O41: with the named bits the same, both runs make the same writes, and `mergeLow` keeps named bits only. -/
theorem onlyNamedRegistersAreRead : Obligations.OnlyNamedRegistersAreRead := by
  unfold Obligations.OnlyNamedRegistersAreRead
  intro i s t w h64 hexec u hdst hsrc2 hthird
  have hbits : SameNamedBits s (s.setVectors w) (destination i) (secondRegister i) := ⟨hdst, hsrc2⟩
  obtain ⟨t', hexec', low, fl, event, a, rfl, rfl⟩ :
      ∃ t', exec i u = .next t' ∧ SameWrites s (s.setVectors w) (destination i) t t' := by
    cases i with
    | vfmadd132ssVex f => exact runVex_setVectors h64 hbits hthird hexec
    | vfmadd213ssVex f => exact runVex_setVectors h64 hbits hthird hexec
    | vfmadd231ssVex f => exact runVex_setVectors h64 hbits hthird hexec
    | vfmadd132ssEvex f => exact runEvex_setVectors h64 hbits hthird hexec
    | vfmadd213ssEvex f => exact runEvex_setVectors h64 hbits hthird hexec
    | vfmadd231ssEvex f => exact runEvex_setVectors h64 hbits hthird hexec
  refine ⟨_, hexec', ?_, rfl, rfl, rfl⟩
  rw [completedAt_vreg_same, completedAt_vreg_same]
  exact mergeLow_eq_of_extract hdst low

/-! ### Another CS selector (R205) -/

/-- The state with another CS selector. -/
def State.setCsSel (s : State) (sel : BitVec 16) : State := { s with csSel := sel }

/-- An outcome with another CS selector in the state that it carries. -/
def resultSetCsSel (sel : BitVec 16) : Result → Result
  | .next t => .next (t.setCsSel sel)
  | .fault (.exception e t) => .fault (.exception e (t.setCsSel sel))
  | .refused r => .refused r

/-- Two exceptions that are the same but for U/S, bit 2, of a page-fault code. -/
def ExceptionAlike (e e' : Exception) : Prop :=
  e' = e ∨ ∃ code code' addr, e = .pf code addr ∧ e' = .pf code' addr ∧ code ||| 4#32 = code' ||| 4#32

/-- Two stops that are the same but for U/S of a page-fault code. -/
def StopAlike : Stop → Stop → Prop
  | .raises e, .raises e' => ExceptionAlike e e'
  | .refuses r, .refuses r' => r' = r
  | _, _ => False

/-- Two reads of operand 3 that are the same but for U/S of a page-fault code. -/
def ReadAlike : Except Stop Loaded → Except Stop Loaded → Prop
  | .ok ld, .ok ld' => ld' = ld
  | .error st, .error st' => StopAlike st st'
  | _, _ => False

/-- `r'` is `r` with another CS selector, but for U/S of a page-fault code. -/
def ResultAlike (sel : BitVec 16) (r r' : Result) : Prop :=
  r' = resultSetCsSel sel r ∨
    ∃ e e' t, r = .fault (.exception e t) ∧ r' = .fault (.exception e' (t.setCsSel sel)) ∧ ExceptionAlike e e'

theorem raise_setCsSel (e : Exception) (s : State) (sel : BitVec 16) :
    raise e (s.setCsSel sel) = resultSetCsSel sel (raise e s) := by
  cases e <;> rfl

/-- Stops that are alike have outcomes that are alike. -/
theorem StopAlike.outcome {st st' : Stop} (h : StopAlike st st') (s : State) (sel : BitVec 16) :
    ResultAlike sel (st.outcome s) (st'.outcome (s.setCsSel sel)) := by
  cases st with
  | raises e =>
    cases st' with
    | raises e' =>
      rcases h with rfl | ⟨code, code', addr, rfl, rfl, hcode⟩
      · exact .inl (raise_setCsSel e' s sel)
      · exact .inr ⟨.pf code addr, .pf code' addr, s.setCr2 addr, rfl, rfl, .inr ⟨code, code', addr, rfl, rfl, hcode⟩⟩
    | refuses r' => exact h.elim
  | refuses r =>
    cases st' with
    | raises e' => exact h.elim
    | refuses r' =>
      obtain rfl : r' = r := h
      exact .inl rfl

theorem advance_setCsSel (len : Nat) (s : State) (sel : BitVec 16) :
    advance len (s.setCsSel sel) = resultSetCsSel sel (advance len s) := by
  have h64 : (s.setCsSel sel).is64 = s.is64 := rfl
  have hpc : (s.setCsSel sel).pc = s.pc := rfl
  have hcanonical (a : Word64) : (s.setCsSel sel).canonical a = s.canonical a := rfl
  simp only [advance, h64, hpc, hcanonical]
  split
  · split <;> rfl
  · split <;> rfl

theorem finishMxcsr_setCsSel (out : FmaOutcome) (event : Option ReadEvent) (n : BitVec 5) (len : Nat) (s : State)
    (sel : BitVec 16) : finishMxcsr out event n len (s.setCsSel sel) = resultSetCsSel sel (finishMxcsr out event n len s) := by
  cases out with
  | stopped fl => exact raise_setCsSel _ (s.orFlags fl) sel
  | done res fl => exact advance_setCsSel len (((s.orFlags fl).noteRead event).writeLow n res) sel

theorem finishSae_setCsSel (out : FmaOutcome) (event : Option ReadEvent) (n : BitVec 5) (len : Nat) (s : State)
    (sel : BitVec 16) : finishSae out event n len (s.setCsSel sel) = resultSetCsSel sel (finishSae out event n len s) := by
  cases out with
  | stopped fl => exact raise_setCsSel _ (s.orFlags fl) sel
  | done res fl => exact advance_setCsSel len ((s.noteRead event).writeLow n res) sel

theorem finishMaskedOff_setCsSel (f : EvexForm) (n : BitVec 5) (s : State) (sel : BitVec 16) :
    finishMaskedOff f n (s.setCsSel sel) = resultSetCsSel sel (finishMaskedOff f n s) :=
  advance_setCsSel f.length (s.writeLow n (maskedOffLow f n s)) sel

/-! ### The oracle at two privilege levels -/

/-- Where every region is user-accessible, so is every address. -/
theorem oracleAttr_user {rs : List Region} (h : ∀ r ∈ rs, r.attr.user = true) (a : Nat) : (oracleAttr rs a).user = true := by
  induction rs with
  | nil => rfl
  | cons r rs ih =>
    unfold oracleAttr
    split
    · exact h r List.mem_cons_self
    · exact ih fun q hq => h q (List.mem_cons_of_mem _ hq)

/-- Where every entry speaks for every privilege level, so does the answer. -/
theorem oracleAnswer_cpl {es : List OracleEntry} (h : ∀ e ∈ es, e.cpls = 15#4) (kind : AccessKind) (cpl cpl' : BitVec 2)
    (a : Nat) : oracleAnswer es kind cpl a = oracleAnswer es kind cpl' a := by
  have hall : ∀ c : BitVec 2, (15#4).getLsbD c.toNat = true := by decide
  induction es with
  | nil => rfl
  | cons e es ih =>
    have he := h e List.mem_cons_self
    simp only [oracleAnswer, he, hall, ih fun q hq => h q (List.mem_cons_of_mem _ hq)]

/-- The privilege level shows in U/S of a page-fault code alone. -/
theorem faultCode_or_us (p : PageAttr) (kind : AccessKind) (cpl3 cpl3' : Bool) :
    p.faultCode kind cpl3 ||| 4#32 = p.faultCode kind cpl3' ||| 4#32 := by
  have key : ∀ sgx pk id rsvd us us' present : Bool,
      (BitVec.ofBool sgx ++ 0#9 ++ BitVec.ofBool pk ++ BitVec.ofBool id ++ BitVec.ofBool rsvd ++ BitVec.ofBool us ++ 0#1 ++
        BitVec.ofBool present).setWidth 32 ||| 4#32 =
      (BitVec.ofBool sgx ++ 0#9 ++ BitVec.ofBool pk ++ BitVec.ofBool id ++ BitVec.ofBool rsvd ++ BitVec.ofBool us' ++ 0#1 ++
        BitVec.ofBool present).setWidth 32 ||| 4#32 := by decide
  exact key _ _ _ _ _ _ _

/-- A page-fault code with U/S set, whatever the privilege level is. -/
def withUs (code : BitVec 32) : BitVec 32 := code ||| 4#32

section
variable {s : State} {sel : BitVec 16}

theorem pageFaultAt_setCsSel (h : ∀ r ∈ s.oracle, r.attr.user = true) (kind : AccessKind) (a : Word64) :
    ((s.setCsSel sel).pageFaultAt kind a).map withUs = (s.pageFaultAt kind a).map withUs := by
  have huser : (s.attrAt a).user = true := oracleAttr_user h _
  have hattr : (s.setCsSel sel).attrAt a = s.attrAt a := rfl
  simp only [State.pageFaultAt, hattr, PageAttr.violates, huser, Bool.not_true, Bool.and_false]
  split
  · exact congrArg some (faultCode_or_us _ _ _ _)
  · rfl

/-- Two page faults with the same address and the same code but for U/S, or none. -/
theorem readPageFault_setCsSel (h : ∀ r ∈ s.oracle, r.attr.user = true) (la : Word64) :
    (s.readPageFault la = none ∧ (s.setCsSel sel).readPageFault la = none) ∨
      ∃ code code' a, s.readPageFault la = some (code, a) ∧ (s.setCsSel sel).readPageFault la = some (code', a) ∧
        withUs code = withUs code' := by
  have hstraddles : (s.setCsSel sel).straddles la = s.straddles la := rfl
  have hfind : ((operandBytes la).findSome? ((s.setCsSel sel).pageFaultAt .read)).map withUs =
      ((operandBytes la).findSome? (s.pageFaultAt .read)).map withUs := by
    rw [List.map_findSome?, List.map_findSome?]
    congr 1
    funext a
    exact pageFaultAt_setCsSel h .read a
  simp only [State.readPageFault, hstraddles]
  cases hs : (operandBytes la).findSome? (s.pageFaultAt .read) with
  | none =>
    rw [hs, Option.map_none, Option.map_eq_none_iff] at hfind
    exact .inl ⟨rfl, by rw [hfind]⟩
  | some code =>
    rw [hs, Option.map_some, Option.map_eq_some_iff] at hfind
    obtain ⟨code', hs', hcode⟩ := hfind
    rw [hs']
    refine .inr ?_
    simp only
    split
    · have hpage := pageFaultAt_setCsSel (sel := sel) h .read (la + (Config.straddleOffset la).setWidth 64)
      refine ⟨_, _, _, rfl, rfl, ?_⟩
      cases hp : s.pageFaultAt .read (la + (Config.straddleOffset la).setWidth 64) with
      | none =>
        rw [hp, Option.map_none, Option.map_eq_none_iff] at hpage
        rw [hpage]
        exact hcode.symm
      | some c =>
        rw [hp, Option.map_some, Option.map_eq_some_iff] at hpage
        obtain ⟨c', hp', hc⟩ := hpage
        rw [hp']
        exact hc.symm
    · exact ⟨code, code', la, rfl, rfl, hcode.symm⟩

/-- What stops a read is the same at every privilege level, but for U/S of a page-fault code. -/
theorem readStop_setCsSel (huser : ∀ r ∈ s.oracle, r.attr.user = true) (hcpls : ∀ e ∈ s.answers, e.cpls = 15#4)
    (la : Word64) :
    (s.readStop la = none ∧ (s.setCsSel sel).readStop la = none) ∨
      ∃ st st', s.readStop la = some st ∧ (s.setCsSel sel).readStop la = some st' ∧ StopAlike st st' := by
  have hanswer : (s.setCsSel sel).answerAt .read la = s.answerAt .read la := oracleAnswer_cpl hcpls _ _ _ _
  have hdevice : (s.setCsSel sel).deviceStop (operandBytes la) = s.deviceStop (operandBytes la) := rfl
  have hself (o : Option Stop) : (o = none ∧ o = none) ∨ ∃ st st', o = some st ∧ o = some st' ∧ StopAlike st st' := by
    rcases o with _ | ⟨e | r⟩
    · exact .inl ⟨rfl, rfl⟩
    · exact .inr ⟨_, _, rfl, rfl, .inl rfl⟩
    · exact .inr ⟨_, _, rfl, rfl, rfl⟩
  simp only [State.readStop, State.accessStop, hanswer, hdevice]
  split
  · exact hself (some _)
  · exact hself (some _)
  · exact hself _
  · rcases readPageFault_setCsSel (sel := sel) huser la with ⟨h, h'⟩ | ⟨code, code', a, h, h', hcode⟩
    · simp only [h, h']
      exact hself _
    · simp only [h, h']
      exact .inr ⟨_, _, rfl, rfl, .inr ⟨code, code', a, rfl, rfl, hcode⟩⟩

/-- The access of an operand under no alignment check is alike at every privilege level. -/
theorem accessOperand_setCsSel (huser : ∀ r ∈ s.oracle, r.attr.user = true) (hcpls : ∀ e ∈ s.answers, e.cpls = 15#4)
    (hac : s.am = false ∨ s.ac = false) (la : Word64) :
    ReadAlike (accessOperand s la) (accessOperand (s.setCsSel sel) la) := by
  have hoff (u : State) (ham : u.am = s.am) (huac : u.ac = s.ac) : u.alignmentChecked = false := by
    rcases hac with h | h <;> simp [State.alignmentChecked, ham, huac, h]
  have haligned (u : State) (ham : u.am = s.am) (huac : u.ac = s.ac) : u.misaligned la = false :=
    misaligned_eq_false fun hon => by rw [hoff u ham huac] at hon; cases hon
  rcases readStop_setCsSel (sel := sel) huser hcpls la with ⟨h, h'⟩ | ⟨st, st', h, h', halike⟩
  · simp only [accessOperand, h, h', hoff s rfl rfl, hoff (s.setCsSel sel) rfl rfl, Bool.false_and, Bool.false_eq_true,
      if_false]
    rfl
  · rw [accessOperand_of_stop (haligned s rfl rfl) h, accessOperand_of_stop (haligned (s.setCsSel sel) rfl rfl) h']
    exact halike

theorem readOperand3_setCsSel (huser : ∀ r ∈ s.oracle, r.attr.user = true) (hcpls : ∀ e ∈ s.answers, e.cpls = 15#4)
    (hac : s.am = false ∨ s.ac = false) (evex : Bool) (legacy : List LegacyByte) (len : Nat) (op3 : Operand3) :
    ReadAlike (readOperand3 s evex legacy len op3) (readOperand3 (s.setCsSel sel) evex legacy len op3) := by
  cases op3 with
  | reg x b rm => exact rfl
  | mem x b a =>
    have h64 : (s.setCsSel sel).is64 = s.is64 := rfl
    have hcanonical (la : Word64) : (s.setCsSel sel).operandCanonical la = s.operandCanonical la := rfl
    have hla : linearAddress (s.setCsSel sel) evex legacy x b len a = linearAddress s evex legacy x b len a := rfl
    have hea : effectiveAddress (s.setCsSel sel) evex legacy x b len a = effectiveAddress s evex legacy x b len a := rfl
    simp only [readOperand3, memRead, h64, hcanonical, hla, hea]
    split
    · split
      · exact .inl rfl
      · exact accessOperand_setCsSel huser hcpls hac _
    · exact rfl

/-- A form whose operand 3 is read alike has outcomes that are alike. -/
theorem runVex_setCsSel (o : Opcode) {f : VexForm} (h : ReadAlike (readOperand3 s false f.legacy f.length f.op3)
      (readOperand3 (s.setCsSel sel) false f.legacy f.length f.op3)) :
    ResultAlike sel (runVex o f s) (runVex o f (s.setCsSel sel)) := by
  have husable : (s.setCsSel sel).vexUsable = s.vexUsable := rfl
  have hts : (s.setCsSel sel).ts = s.ts := rfl
  simp only [runVex, husable, hts]
  split
  · exact .inl (raise_setCsSel .ud s sel)
  · split
    · exact .inl (raise_setCsSel .nm s sel)
    · revert h
      cases readOperand3 s false f.legacy f.length f.op3 <;>
        cases readOperand3 (s.setCsSel sel) false f.legacy f.length f.op3 <;> intro h
      · exact h.outcome s sel
      · exact h.elim
      · exact h.elim
      · cases h
        exact .inl (finishMxcsr_setCsSel _ _ _ _ s sel)

theorem runEvex_setCsSel (o : Opcode) {f : EvexForm} (h : ReadAlike (readOperand3 s true f.legacy f.length f.op3)
      (readOperand3 (s.setCsSel sel) true f.legacy f.length f.op3)) :
    ResultAlike sel (runEvex o f s) (runEvex o f (s.setCsSel sel)) := by
  have husable : (s.setCsSel sel).evexUsable = s.evexUsable := rfl
  have hts : (s.setCsSel sel).ts = s.ts := rfl
  have hactive : (s.setCsSel sel).isActive f = s.isActive f := rfl
  simp only [runEvex, husable, hts, hactive]
  split
  · exact .inl (raise_setCsSel .ud s sel)
  · split
    · exact .inl (raise_setCsSel .nm s sel)
    · split
      · exact .inl (finishMaskedOff_setCsSel f _ s sel)
      · revert h
        cases readOperand3 s true f.legacy f.length f.op3 <;>
          cases readOperand3 (s.setCsSel sel) true f.legacy f.length f.op3 <;> intro h
        · exact h.outcome s sel
        · exact h.elim
        · exact h.elim
        · cases h
          simp only
          split
          · exact .inl (finishSae_setCsSel _ _ _ _ s sel)
          · exact .inl (finishMxcsr_setCsSel _ _ _ _ s sel)

theorem exec_setCsSel (huser : ∀ r ∈ s.oracle, r.attr.user = true) (hcpls : ∀ e ∈ s.answers, e.cpls = 15#4)
    (hac : s.am = false ∨ s.ac = false) (i : Instr) : ResultAlike sel (exec i s) (exec i (s.setCsSel sel)) := by
  have hread := readOperand3_setCsSel (sel := sel) huser hcpls hac
  obtain ⟨o, f, rfl⟩ | ⟨o, f, rfl⟩ := i.eq_ofVex_or_ofEvex
  · rw [exec_ofVex, exec_ofVex]
    exact runVex_setCsSel o (hread ..)
  · rw [exec_ofEvex, exec_ofEvex]
    exact runEvex_setCsSel o (hread ..)

end

/-- Settles O40: CPL is read by the alignment check, by the answers of the oracle and by U/S and the user check of a page; where
the hypotheses shut these out, only U/S is left. -/
theorem privilegeLevelDoesNotMatter : Obligations.PrivilegeLevelDoesNotMatter := by
  unfold Obligations.PrivilegeLevelDoesNotMatter
  intro i s sel hac huser hcpls
  have halike := exec_setCsSel (sel := sel) huser hcpls hac i
  refine ⟨fun t hnext => ?_, fun e t hfault => ?_, fun r hrefused => ?_⟩
  · rcases halike with hsame | ⟨e, e', t', h, -⟩
    · rw [hnext] at hsame
      exact hsame
    · cases hnext.symm.trans h
  · rcases halike with hsame | ⟨e₁, e', t', h, h', hexception⟩
    · rw [hfault] at hsame
      exact ⟨e, hsame, .inl rfl⟩
    · cases hfault.symm.trans h
      exact ⟨e', h', hexception⟩
  · rcases halike with hsame | ⟨e, e', t', h, -⟩
    · rw [hrefused] at hsame
      exact hsame
    · cases hrefused.symm.trans h

end Sys2Proof.Machine
end

section
/-! PROOFS. The arithmetic: rounding to a unit, the results and flags of NaNs, invalid operations, denormal operands, exact zeros,
normal results, overflow and tiny results, and the flag combinations of one operation. -/

namespace Sys2Proof.Machine

/-! ### Rounding to a unit (R157) -/

/-- The quotient and the rest of a division by the unit. -/
theorem unit_div_add_mod (m k : Nat) : m / 2 ^ k * 2 ^ k + m % 2 ^ k = m := by
  rw [Nat.mul_comm]
  exact Nat.div_add_mod m (2 ^ k)

/-- A rounded value is less than one unit away. -/
theorem roundTo_near (rm : Rounding) (neg : Bool) (m k : Nat) :
    m < roundTo rm neg m k + 2 ^ k ∧ roundTo rm neg m k < m + 2 ^ k := by
  have hsplit := unit_div_add_mod m k
  have hpos := Nat.two_pow_pos k
  have hlt := Nat.mod_lt m hpos
  rcases roundTo_spec rm neg m k with ⟨-, h⟩ | ⟨-, h, -⟩ | ⟨hne, h, -⟩
  · omega
  · omega
  · rw [h, Nat.add_mul, Nat.one_mul]
    omega

theorem roundTo_of_inexact {m k : Nat} (h : m % 2 ^ k ≠ 0) (rm : Rounding) (neg : Bool) :
    roundTo rm neg m k =
      (if roundsUp rm neg k (m / 2 ^ k) (m % 2 ^ k) then m / 2 ^ k + 1 else m / 2 ^ k) * 2 ^ k := by
  rw [roundTo, if_neg h]

/-- In a tie RNE takes the even multiple. -/
theorem roundTo_tie {m k : Nat} (hne : m % 2 ^ k ≠ 0) (htie : 2 * (m % 2 ^ k) = 2 ^ k) (neg : Bool) :
    roundTo .rne neg m k % 2 ^ (k + 1) = 0 ∧
      (roundTo .rne neg m k = m / 2 ^ k * 2 ^ k ∨ roundTo .rne neg m k = (m / 2 ^ k + 1) * 2 ^ k) := by
  have hup : roundsUp .rne neg k (m / 2 ^ k) (m % 2 ^ k) = decide (m / 2 ^ k % 2 = 1) := by
    simp only [roundsUp, htie, lt_irrefl, decide_false, beq_self_eq_true, Bool.true_and, Bool.false_or]
    rfl
  have heven {n : Nat} (hn : n % 2 = 0) : n * 2 ^ k % 2 ^ (k + 1) = 0 := by
    obtain ⟨j, rfl⟩ := Nat.dvd_of_mod_eq_zero hn
    rw [pow_succ, show 2 * j * 2 ^ k = j * (2 ^ k * 2) by ring]
    exact Nat.mul_mod_left j _
  rw [roundTo_of_inexact hne, hup]
  by_cases hodd : m / 2 ^ k % 2 = 1
  · rw [decide_eq_true hodd, if_pos rfl]
    exact ⟨heven (by omega), .inr rfl⟩
  · rw [decide_eq_false hodd, if_neg Bool.false_ne_true]
    exact ⟨heven (by omega), .inl rfl⟩

/-- Settles O53: `roundsUp` chooses between the two neighbours. -/
theorem roundingToAUnit : Obligations.RoundingToAUnit := by
  unfold Obligations.RoundingToAUnit
  intro rm neg m k n rem r
  obtain ⟨hbelow, habove⟩ := roundTo_near rm neg m k
  refine ⟨fun hexact => if_pos hexact, fun hne => ⟨?_, ?_, ?_, ?_⟩, hbelow, habove⟩
  · rintro rfl
    exact roundTo_of_inexact hne .rz neg
  · rintro rfl
    exact roundTo_of_inexact hne .rd neg
  · rintro rfl
    refine (roundTo_of_inexact hne .ru neg).trans ?_
    cases neg <;> rfl
  · rintro rfl
    refine ⟨fun hbelowHalf => ?_, fun haboveHalf => ?_, fun htie => roundTo_tie hne htie neg⟩
    · have hdown : roundsUp .rne neg k n rem = false := by
        have hnotMore : ¬ 2 ^ k < 2 * rem := by omega
        have hnotTie : 2 * rem ≠ 2 ^ k := by omega
        simp [roundsUp, hnotMore, hnotTie]
      exact (roundTo_of_inexact hne .rne neg).trans (by rw [hdown]; rfl)
    · have hup : roundsUp .rne neg k n rem = true := by simp [roundsUp, haboveHalf]
      exact (roundTo_of_inexact hne .rne neg).trans (by rw [hup]; rfl)

/-! ### NaNs (R146) -/

theorem isDen_eq_false_of_isNaN {p : Single} (h : isNaN p = true) : isDen p = false := by
  have hnan := (isNaN_iff p).1 h
  rw [← Bool.not_eq_true, isDen_iff]
  omega

theorem applyDaz_of_isNaN {p : Single} (h : isNaN p = true) (daz : Bool) : applyDaz daz p = p :=
  applyDaz_of_isDen_eq_false (isDen_eq_false_of_isNaN h) daz

/-- DAZ makes no signalling NaN and removes none. -/
theorem isSNaN_applyDaz (daz : Bool) (p : Single) : isSNaN (applyDaz daz p) = isSNaN p := by
  cases h : isNaN p with
  | true => rw [applyDaz_of_isNaN h]
  | false => simp [isSNaN, applyDaz_nan, h]

/-- The NaN that is delivered before it is made quiet: the first of the three. -/
def firstNaN (x y z : Single) : Single := if isNaN x then x else if isNaN y then y else z

theorem isNaN_firstNaN {x y z : Single} (h : anyNaN x y z = true) : isNaN (firstNaN x y z) = true := by
  simp only [anyNaN, Bool.or_eq_true] at h
  unfold firstNaN
  split
  · assumption
  next hx =>
    split
    · assumption
    next hy => exact (h.resolve_left (by simp [hx, hy]))

theorem firstNaN_applyDaz {x y z : Single} (h : anyNaN x y z = true) (daz : Bool) :
    firstNaN (applyDaz daz x) (applyDaz daz y) (applyDaz daz z) = firstNaN x y z := by
  have hnan := isNaN_firstNaN h
  simp only [firstNaN, applyDaz_nan] at hnan ⊢
  split
  next hx => exact applyDaz_of_isNaN hx daz
  next hx =>
    rw [if_neg hx] at hnan
    split
    next hy => exact applyDaz_of_isNaN hy daz
    next hy =>
      rw [if_neg hy] at hnan
      exact applyDaz_of_isNaN hnan daz

/-- A quiet NaN is left by making it quiet. -/
theorem quiet_of_quiet {p : Single} (h : p.getLsbD 22 = true) : quiet p = p := by
  have hbit (w : Single) (i : Nat) : (w ||| 0x00400000#32).getLsbD i = (w.getLsbD i || (0x00400000#32).getLsbD i) := by
    rw [BitVec.getLsbD_or]
  apply BitVec.eq_of_getLsbD_eq
  intro i hi
  rw [quiet, hbit]
  have hmask : ∀ i, i < 32 → (0x00400000#32).getLsbD i = decide (i = 22) := by decide
  rw [hmask i hi]
  by_cases h22 : i = 22
  · rw [h22, h]
    rfl
  · simp [h22]

/-- Under the switches of the spec a NaN operand sets no flag but IE. -/
theorem nanOutcome_ofSpec (m : FpMasks) (x y z : Single) :
    nanOutcome .ofSpec m x y z = deliver m (quiet (firstNaN x y z)) { ie := anySNaN x y z } := by
  simp [nanOutcome, nanResult, Switches.ofSpec, firstNaN]

/-- `fma32` with a NaN operand, under the switches of the spec. -/
theorem fma32_nan {c : FpControl} {x y z : Single} (h : anyNaN x y z = true) :
    fma32 .ofSpec c x y z = deliver c.masks (quiet (firstNaN x y z)) { ie := anySNaN x y z } := by
  have hsnan : anySNaN (applyDaz c.daz x) (applyDaz c.daz y) (applyDaz c.daz z) = anySNaN x y z := by
    simp only [anySNaN, isSNaN_applyDaz]
  rw [fma32, fmaAfterDaz, anyNaN_applyDaz, if_pos h, nanOutcome_ofSpec, hsnan, firstNaN_applyDaz h]

theorem deliver_ie (m : FpMasks) (res : Single) :
    deliver m res { ie := true } = if m.im then .done res { ie := true } else .stopped { ie := true } := by
  cases h : m.im <;> simp [deliver, FpFlags.unmasked, h]

theorem deliver_none (m : FpMasks) (res : Single) : deliver m res {} = .done res {} := by
  simp [deliver, FpFlags.unmasked]

/-- Settles O48: the first NaN is quieted, and IE is its only flag, where one of the operands is signalling. -/
theorem nanOperandResult : Obligations.NanOperandResult := by
  unfold Obligations.NanOperandResult
  intro c x y z hnan first
  have hany : anyNaN x y z = true := by simpa [anyNaN, or_assoc] using hnan
  refine ⟨fun hsignalling => ?_, fun ⟨hx, hy, hz⟩ => ?_⟩
  · have hs : anySNaN x y z = true := by simpa [anySNaN, or_assoc] using hsignalling
    rw [fma32_nan hany, hs, deliver_ie]
    rfl
  · have hs : anySNaN x y z = false := by simp [anySNaN, hx, hy, hz]
    have hfirst : isSNaN first = false := by
      simp only [first]
      split
      · exact hx
      · split
        · exact hy
        · exact hz
    have hbit : first.getLsbD 22 = true := by
      have hfirstNaN : isNaN first = true := isNaN_firstNaN hany
      simpa [isSNaN, hfirstNaN] using hfirst
    have hquiet : quiet (firstNaN x y z) = first := quiet_of_quiet hbit
    rw [fma32_nan hany, hs, hquiet, deliver_none]

/-! ### Invalid operations (R147) -/

theorem isZero_applyDaz (daz : Bool) (p : Single) : isZero (applyDaz daz p) = (isZero p || (daz && isDen p)) := by
  unfold applyDaz
  cases h : (daz && isDen p) with
  | true =>
    have hzero : isZero (withSign (signOf p) 0#31) = true := by
      rw [isZero_iff, rest_withSign]
      rfl
    simp [hzero]
  | false => simp

/-- Under the switches of the spec an invalid operation sets no flag but IE. -/
theorem invalidOutcome_ofSpec (m : FpMasks) (x y z : Single) :
    invalidOutcome .ofSpec m x y z = deliver m indefinite { ie := true } := by
  simp [invalidOutcome, Switches.ofSpec]

/-- `fma32` where the operation is invalid after DAZ, under the switches of the spec. -/
theorem fma32_invalid {c : FpControl} {x y z : Single} (hnan : anyNaN x y z = false)
    (hinvalid : invalidOp (applyDaz c.daz x) (applyDaz c.daz y) (applyDaz c.daz z) = true) :
    fma32 .ofSpec c x y z = deliver c.masks indefinite { ie := true } := by
  rw [fma32, fmaAfterDaz, anyNaN_applyDaz, hnan, if_neg Bool.false_ne_true, if_pos hinvalid, invalidOutcome_ofSpec]

/-- Settles O49: the two cases of the statement are those of `invalidOp` on the operands after DAZ. -/
theorem invalidOperationResult : Obligations.InvalidOperationResult := by
  unfold Obligations.InvalidOperationResult
  intro c x y z hnan zeroLike hcase
  have hinvalid : invalidOp (applyDaz c.daz x) (applyDaz c.daz y) (applyDaz c.daz z) = true := by
    simp only [invalidOp, infTimesZero, applyDaz_inf, isZero_applyDaz, productSign, applyDaz_sign]
    rcases hcase with ⟨hx, hy⟩ | ⟨hx, hy⟩ | ⟨hfactor, hz, hsign⟩
    · have hy' : (isZero y || (c.daz && isDen y)) = true := hy
      rw [hx, hy']
      rfl
    · have hx' : (isZero x || (c.daz && isDen x)) = true := hx
      rw [hx', hy]
      simp
    · have hfactor' : (isInf x || isInf y) = true := by simpa using hfactor
      have hsign' : (signOf z != (signOf x != signOf y)) = true := bne_iff_ne.2 hsign
      rw [hfactor', hz, hsign']
      simp
  rw [fma32_invalid hnan hinvalid, deliver_ie]
  rfl

/-! ### Denormal operands (R148) -/

/-- Settles O50: after NaNs and invalid operations an unmasked denormal stops the operation, and a masked one is reported by
every later step. -/
theorem denormalOperandFlag : Obligations.DenormalOperandFlag := by
  unfold Obligations.DenormalOperandFlag
  intro sw c x y z hdaz hnan hvalid hden
  have hany : anyDen x y z = true := by simpa [anyDen, or_assoc] using hden
  have hfma : fma32 sw c x y z = fmaAfterDaz sw c x y z := by simp only [fma32, hdaz, applyDaz_off]
  simp only [hfma, fmaAfterDaz, hnan, hvalid, hany, Bool.true_and, Bool.false_eq_true, if_false]
  refine ⟨fun hdm => by simp [hdm], fun hdm => ?_⟩
  rw [hdm, if_neg (by decide)]
  split
  · rw [infiniteOutcome, deliver_flags]
  · rw [finiteOutcome_flags_de]

/-! ### Finite operands (R150 steps 6 to 10) -/

/-- Three finite operands, used as they are, with no unmasked denormal among them. -/
structure FiniteOperands (c : FpControl) (x y z : Single) : Prop where
  daz : c.daz = false
  nan : anyNaN x y z = false
  infX : isInf x = false
  infY : isInf y = false
  infZ : isInf z = false
  den : anyDen x y z = true → c.masks.dm = true

theorem FiniteOperands.fma32_eq {c : FpControl} {x y z : Single} (h : FiniteOperands c x y z) (sw : Switches) :
    fma32 sw c x y z = finiteOutcome sw c x y z { de := anyDen x y z } := by
  have hvalid : invalidOp x y z = false := by simp [invalidOp, infTimesZero, h.infX, h.infY]
  have hmasked : (anyDen x y z && !c.masks.dm) = false := by simpa using h.den
  simp only [fma32, h.daz, applyDaz_off, fmaAfterDaz, h.nan, hvalid, hmasked, h.infX, h.infY, h.infZ, Bool.or_self,
    Bool.false_eq_true, if_false]

/-- An exact zero is delivered with the sign of R151. -/
theorem FiniteOperands.fma32_zero {c : FpControl} {x y z : Single} (h : FiniteOperands c x y z) (sw : Switches)
    (hzero : exactFma x y z = 0) :
    fma32 sw c x y z = .done (withSign (zeroSign c.rounding x y z) 0#31) { de := anyDen x y z } := by
  simp only [h.fma32_eq, finiteOutcome, hzero, if_true]
  exact deliver_de h.den _

/-- Any other value is rounded. -/
theorem FiniteOperands.fma32_round {c : FpControl} {x y z : Single} (h : FiniteOperands c x y z) (sw : Switches)
    (hne : exactFma x y z ≠ 0) :
    fma32 sw c x y z = roundOutcome sw c (decide (exactFma x y z < 0)) (exactFma x y z).natAbs { de := anyDen x y z }
      (Config.tinyFaultInexact x y z) := by
  simp only [h.fma32_eq, finiteOutcome, hne, if_false]

theorem withSign_zero (neg : Bool) : withSign neg 0#31 = if neg then 0x80000000#32 else 0#32 := by
  cases neg <;> rfl

/-- Settles O52. -/
theorem exactZeroResult : Obligations.ExactZeroResult := by
  unfold Obligations.ExactZeroResult
  intro sw c x y z hdaz hnan hx hy hz hden hzero
  rw [FiniteOperands.fma32_zero ⟨hdaz, hnan, hx, hy, hz, hden⟩ sw hzero, withSign_zero]
  have hsign : zeroSign c.rounding x y z =
      if (isZero x = true ∨ isZero y = true) ∧ isZero z = true ∧ (signOf x != signOf y) = signOf z then signOf z
      else decide (c.rounding = .rd) := by
    simp only [zeroSign, productSign, Bool.and_eq_true, Bool.or_eq_true, beq_iff_eq, and_assoc]
    split
    next h => exact h.2.2
    · rfl
  rw [hsign]
  congr 1
  split
  · rfl
  · simp only [decide_eq_true_eq]

/-! ### Delivery of a rounded result -/

/-- With the other conditions masked or not detected, PE decides. -/
theorem deliver_of_pe {m : FpMasks} {fl : FpFlags} (hie : fl.ie = false) (hde : fl.de = true → m.dm = true)
    (hoe : fl.oe = true → m.om = true) (hue : fl.ue = true → m.um = true) (res : Single) :
    deliver m res fl = if !m.pm && fl.pe then .stopped fl else .done res fl := by
  have hunmasked : fl.unmasked m = (!m.pm && fl.pe) := by
    have hde' : (fl.de && !m.dm) = false := by simpa using hde
    have hoe' : (fl.oe && !m.om) = false := by simpa using hoe
    have hue' : (fl.ue && !m.um) = false := by simpa using hue
    simp only [FpFlags.unmasked, hie, hde', hoe', hue', Bool.false_and, Bool.false_or, Bool.and_comm]
  rw [deliver, hunmasked]

/-- The value of an encoded magnitude with its sign. -/
theorem scaledVal_encode {neg : Bool} {q : Nat} (hlt : q < 2 ^ 426) (hform : Representable q) :
    scaledVal (encodeMagnitude neg q) * 2 ^ 149 = if neg then -(q : Int) else (q : Int) := by
  obtain ⟨-, -, hsign, hmagnitude, -⟩ := encode_value neg q hlt hform
  have hq : (magnitude (encodeMagnitude neg q) : Int) * 2 ^ 149 = q := by exact_mod_cast hmagnitude
  rw [scaledVal, hsign]
  cases neg
  · simpa using hq
  · simpa using hq

theorem round24_zero (rm : Rounding) (neg : Bool) : round24 rm neg 0 = 0 := by
  rw [round24_small rm neg 0 (by decide)]

/-- What rounds to a non-zero value is not zero. -/
theorem ne_zero_of_round24 {rm : Rounding} {v : Int} {e : Nat} (h : 2 ^ e ≤ round24 rm (decide (v < 0)) v.natAbs) :
    v ≠ 0 := by
  rintro rfl
  rw [Int.natAbs_zero, round24_zero] at h
  exact absurd h (Nat.two_pow_pos e).not_ge

/-- Settles O54: neither overflow nor a tiny result, so the value rounded to 24 bits is encoded and delivered. -/
theorem normalResultIsRoundedOnce : Obligations.NormalResultIsRoundedOnce := by
  unfold Obligations.NormalResultIsRoundedOnce
  intro sw c x y z hdaz hnan hx hy hz hden htininess v m r hge hlt
  have hfinite : FiniteOperands c x y z := ⟨hdaz, hnan, hx, hy, hz, hden⟩
  have hr : round24 c.rounding (decide (v < 0)) m = r := rfl
  have hne : v ≠ 0 := ne_zero_of_round24 (hge.trans_eq hr.symm)
  have hform : Representable r := round24_normal c.rounding (decide (v < 0)) m hge
  obtain ⟨hresNan, hresInf, -, -, hresDen⟩ := encode_value (decide (v < 0)) r hlt hform
  refine ⟨encodeMagnitude (decide (v < 0)) r, hresNan, hresInf, hresDen hge, ?_, ?_⟩
  · rw [scaledVal_encode hlt hform]
    simp only [decide_eq_true_eq]
  · have hround : roundOutcome sw c (decide (v < 0)) m { de := anyDen x y z } (Config.tinyFaultInexact x y z) =
        deliver c.masks (encodeMagnitude (decide (v < 0)) r) { de := anyDen x y z, pe := r != m } := by
      simp only [roundOutcome, hr, if_neg hlt.not_ge, isTiny, htininess, decide_eq_true_eq, if_neg hge.not_gt]
    rw [hfinite.fma32_round sw hne, hround]
    exact deliver_of_pe rfl hden (fun h => by cases h) (fun h => by cases h) _

/-! ### Overflow (R154) -/

/-- The table of R154. -/
theorem overflowResult_eq (rm : Rounding) (neg : Bool) :
    overflowResult rm neg =
      match rm, neg with
      | .rne, false => 0x7F800000#32
      | .rne, true => 0xFF800000#32
      | .rd, false => 0x7F7FFFFF#32
      | .rd, true => 0xFF800000#32
      | .ru, false => 0x7F800000#32
      | .ru, true => 0xFF7FFFFF#32
      | .rz, false => 0x7F7FFFFF#32
      | .rz, true => 0xFF7FFFFF#32 := by
  cases rm <;> cases neg <;> rfl

/-- Settles O55. -/
theorem overflowResultAndFlags : Obligations.OverflowResult := by
  unfold Obligations.OverflowResult
  intro sw c x y z hdaz hnan hx hy hz hden hpe v hge
  have hfinite : FiniteOperands c x y z := ⟨hdaz, hnan, hx, hy, hz, hden⟩
  have hne : v ≠ 0 := ne_zero_of_round24 hge
  rw [hfinite.fma32_round sw hne]
  simp only [roundOutcome]
  rw [if_pos hge, overflowOutcome, hpe]
  cases hom : c.masks.om with
  | false => rfl
  | true =>
    have hdeliver := deliver_of_pe (m := c.masks) (fl := { de := anyDen x y z, oe := true, pe := true }) rfl hden
      (fun _ => hom) (fun h => by cases h) (overflowResult c.rounding (decide (v < 0)))
    rw [if_neg (by decide), if_neg (by decide)]
    refine hdeliver.trans ?_
    cases hpm : c.masks.pm with
    | false => rfl
    | true =>
      rw [overflowResult_eq]
      rfl

/-! ### Tiny results (R156, R158) -/

theorem not_two_pow_le {n a b : Nat} (h : n < 2 ^ a) (hab : a ≤ b) : ¬ 2 ^ b ≤ n :=
  (h.trans_le (Nat.pow_le_pow_right (by decide) hab)).not_ge

/-- A tiny result of finite operands, under the switches of R156 and R158. -/
theorem FiniteOperands.fma32_tiny {c : FpControl} {x y z : Single} (h : FiniteOperands c x y z) {sw : Switches}
    (htininess : sw.tininess = .afterRounding) (hpe : sw.peWithUnmaskedOu = false) (hne : exactFma x y z ≠ 0)
    (hlt : round24 c.rounding (decide (exactFma x y z < 0)) (exactFma x y z).natAbs < 2 ^ 172) :
    fma32 sw c x y z =
      let neg := decide (exactFma x y z < 0)
      let m := (exactFma x y z).natAbs
      let rd := roundDenormal c.rounding neg m
      if c.masks.um = false then .stopped { de := anyDen x y z, ue := true }
      else if c.ftz then deliver c.masks (withSign neg 0#31) { de := anyDen x y z, ue := true, pe := true }
      else deliver c.masks (encodeMagnitude neg rd) { de := anyDen x y z, ue := rd != m, pe := rd != m } := by
  have hnot : ¬ 2 ^ 426 ≤ round24 c.rounding (decide (exactFma x y z < 0)) (exactFma x y z).natAbs :=
    not_two_pow_le hlt (by decide)
  rw [h.fma32_round sw hne]
  simp only [roundOutcome, if_neg hnot, isTiny, htininess, hlt, decide_true, if_true, tinyOutcome, hpe, Bool.false_and,
    Bool.not_eq_true']

/-- Settles O56: each clause is one branch of a tiny result, and PE decides whether it is delivered. -/
theorem tinyResult : Obligations.TinyResult := by
  unfold Obligations.TinyResult
  intro sw c x y z hdaz hnan hx hy hz hden htininess hpe v m rd hne hlt
  have hfma := FiniteOperands.fma32_tiny ⟨hdaz, hnan, hx, hy, hz, hden⟩ htininess hpe hne hlt
  have hrd : roundDenormal c.rounding (decide (v < 0)) m = rd := rfl
  have hflush (hum : c.masks.um = true) := deliver_of_pe (m := c.masks)
    (fl := { de := anyDen x y z, ue := true, pe := true }) rfl hden (fun h => by cases h) (fun _ => hum)
    (withSign (decide (v < 0)) 0#31)
  have hgradual (hum : c.masks.um = true) := deliver_of_pe (m := c.masks)
    (fl := { de := anyDen x y z, ue := rd != m, pe := rd != m }) rfl hden (fun h => by cases h) (fun _ => hum)
    (encodeMagnitude (decide (v < 0)) rd)
  refine ⟨fun hum => ?_, fun hum hpm hftz => ?_, fun hum hftz hdelivers => ?_, fun hum hpm hinexact => ?_⟩
  · simp only [hfma, hum, if_true]
  · simp only [hfma, hum, hftz, Bool.true_eq_false, if_false, if_true]
    rw [hflush hum, hpm, withSign_zero]
    simp only [decide_eq_true_eq]
    rfl
  · obtain ⟨hrdLt, hform⟩ := roundDenormal_form c.rounding (decide (v < 0)) m (lt_of_round24_lt hlt)
    rw [hrd] at hrdLt hform
    obtain ⟨hresNan, hresInf, hsign, -, -⟩ := encode_value (decide (v < 0)) rd hrdLt hform
    refine ⟨encodeMagnitude (decide (v < 0)) rd, hresNan, hresInf, hsign, ?_, ?_⟩
    · rw [scaledVal_encode hrdLt hform]
      simp only [decide_eq_true_eq]
    · simp only [hfma, hum, hftz, Bool.true_eq_false, Bool.false_eq_true, if_false]
      refine (hgradual hum).trans (if_neg ?_)
      rcases hdelivers with hpm | hexact
      · simp [hpm]
      · simp [hexact]
  · simp only [hfma, hum, Bool.true_eq_false, if_false]
    by_cases hftz : c.ftz = true
    · rw [if_pos hftz, hflush hum, hpm]
      rfl
    · have hne' : (rd != m) = true := bne_iff_ne.2 (hinexact.resolve_left hftz)
      rw [if_neg hftz]
      refine (hgradual hum).trans ?_
      rw [hne', hpm]
      rfl

/-! ### The flag combinations of one operation (R159) -/

/-- The two lists of R159. -/
def flagCombinationList : List FpFlags :=
  [{}, { ie := true }, { de := true }, { pe := true }, { de := true, pe := true }, { oe := true, pe := true },
    { de := true, oe := true, pe := true }, { ue := true, pe := true }, { de := true, ue := true, pe := true },
    { oe := true }, { de := true, oe := true }, { ue := true }, { de := true, ue := true }]

/-- What R159 says of an outcome: its flags are listed, those of a result with OE or UE have PE, and the operation is stopped
exactly where a flag is unmasked. -/
structure ListedOutcome (m : FpMasks) (out : FmaOutcome) : Prop where
  listed : out.flags ∈ flagCombinationList
  pe : ∀ res fl, out = .done res fl → (fl.oe = true ∨ fl.ue = true) → fl.pe = true
  stopped : ∀ fl, out = .stopped fl → fl.unmasked m = true
  done : ∀ res fl, out = .done res fl → fl.unmasked m = false

theorem listedOutcome_deliver {m : FpMasks} {fl : FpFlags} (hlisted : fl ∈ flagCombinationList)
    (hpe : fl.oe = true ∨ fl.ue = true → fl.pe = true) (res : Single) : ListedOutcome m (deliver m res fl) := by
  rcases deliver_spec m res fl with ⟨hmasked, h⟩ | ⟨hunmasked, h⟩ <;> rw [h]
  · exact ⟨hlisted, fun _ _ e => (by cases e; exact hpe), fun _ e => (by cases e), fun _ _ e => (by cases e; exact hmasked)⟩
  · exact ⟨hlisted, fun _ _ e => (by cases e), fun _ e => (by cases e; exact hunmasked), fun _ _ e => (by cases e)⟩

theorem listedOutcome_stopped {m : FpMasks} {fl : FpFlags} (hlisted : fl ∈ flagCombinationList)
    (hunmasked : fl.unmasked m = true) : ListedOutcome m (.stopped fl) :=
  ⟨hlisted, fun _ _ e => (by cases e), fun _ e => (by cases e; exact hunmasked), fun _ _ e => (by cases e)⟩

/-- Rounding a finite result of the operands' DE, under the switches of the spec. -/
theorem listedOutcome_round (c : FpControl) (neg : Bool) (m : Nat) (den : Bool) (inexact : Bool) :
    ListedOutcome c.masks (roundOutcome .ofSpec c neg m { de := den } inexact) := by
  have hswitch : Switches.ofSpec.peWithUnmaskedOu = false := rfl
  simp only [roundOutcome]
  split
  · simp only [overflowOutcome, hswitch, Bool.false_and]
    split
    next hom => exact listedOutcome_stopped (by revert den; decide) (by simp [FpFlags.unmasked, hom])
    · exact listedOutcome_deliver (by revert den; decide) (fun _ => rfl) _
  · split
    · simp only [tinyOutcome, hswitch, Bool.false_and]
      split
      next hum => exact listedOutcome_stopped (by revert den; decide) (by simp [FpFlags.unmasked, hum])
      · split
        · exact listedOutcome_deliver (by revert den; decide) (fun _ => rfl) _
        · generalize (roundDenormal c.rounding neg m != m) = changed
          exact listedOutcome_deliver (by revert den changed; decide) (fun h => by simpa using h) _
    · generalize (round24 c.rounding neg m != m) = changed
      exact listedOutcome_deliver (by revert den changed; decide) (fun h => by simp at h) _

theorem listedOutcome_fma32 (c : FpControl) (x y z : Single) : ListedOutcome c.masks (fma32 .ofSpec c x y z) := by
  cases hnan : anyNaN x y z with
  | true =>
    rw [fma32_nan hnan]
    generalize anySNaN x y z = signalling
    exact listedOutcome_deliver (by revert signalling; decide) (fun h => by simp at h) _
  | false =>
    cases hinvalid : invalidOp (applyDaz c.daz x) (applyDaz c.daz y) (applyDaz c.daz z) with
    | true =>
      rw [fma32_invalid hnan hinvalid]
      exact listedOutcome_deliver (by decide) (fun h => by simp at h) _
    | false =>
      rw [fma32, fmaAfterDaz, anyNaN_applyDaz, hnan, hinvalid, if_neg Bool.false_ne_true, if_neg Bool.false_ne_true]
      generalize anyDen (applyDaz c.daz x) (applyDaz c.daz y) (applyDaz c.daz z) = den
      have hde : ({ de := den } : FpFlags) ∈ flagCombinationList := by
        revert den
        decide
      split
      next hdm =>
        simp only [Bool.and_eq_true] at hdm
        exact listedOutcome_stopped (by decide) (by simp [FpFlags.unmasked, hdm.2])
      · split
        · exact listedOutcome_deliver hde (fun h => by simp at h) _
        · simp only [finiteOutcome]
          split
          · exact listedOutcome_deliver hde (fun h => by simp at h) _
          · exact listedOutcome_round ..

/-- Settles O46. -/
theorem flagCombinations : Obligations.FlagCombinations := by
  unfold Obligations.FlagCombinations
  intro c x y z
  obtain ⟨hlisted, hpe, hstopped, hdone⟩ := listedOutcome_fma32 c x y z
  exact ⟨hlisted, hpe, hstopped, hdone⟩

end Sys2Proof.Machine
end

section
/-! PROOFS. The arithmetic: the laws of R162. Where a NaN result comes from, the exchange of the factors, the mirror of a change of
sign, and the product and the sum as special cases. -/

namespace Sys2Proof.Machine

/-! ### Where a NaN result comes from (R162 (e)) -/

/-- More bits leave a NaN a NaN. -/
theorem isNaN_or {p q : Single} (h : isNaN p = true ∨ isNaN q = true) : isNaN (p ||| q) = true := by
  have hrest : ((p ||| q).extractLsb' 0 31).toNat = (p.extractLsb' 0 31).toNat ||| (q.extractLsb' 0 31).toNat := by
    rw [BitVec.extractLsb'_or, BitVec.toNat_or]
  rw [isNaN_iff, hrest]
  simp only [isNaN_iff] at h
  rcases h with hp | hq
  · exact hp.trans_le Nat.left_le_or
  · exact hq.trans_le Nat.right_le_or

/-- The result that a NaN operand gives is a NaN under either rule. -/
theorem isNaN_nanResult {x y z : Single} (h : anyNaN x y z = true) (rule : NanRule) :
    isNaN (nanResult rule x y z) = true := by
  cases rule with
  | firstQuieted => exact isNaN_or (.inl (isNaN_firstNaN h))
  | anyQuiet => exact isNaN_or (.inr (by decide))

theorem isNaN_withSign (neg : Bool) (rest : BitVec 31) :
    isNaN (withSign neg rest) = decide (0x7F800000 < rest.toNat) := by
  rw [Bool.eq_iff_iff, isNaN_iff, rest_withSign, decide_eq_true_eq]

theorem isNaN_withSign_zero (neg : Bool) : isNaN (withSign neg 0#31) = false := isNaN_withSign neg 0#31

theorem isNaN_withSign_infinity (neg : Bool) : isNaN (withSign neg infinity) = false := isNaN_withSign neg infinity

theorem isNaN_overflowResult (rm : Rounding) (neg : Bool) : isNaN (overflowResult rm neg) = false := by
  rw [overflowResult, isNaN_withSign]
  split <;> rfl

/-- An outcome that does not deliver a NaN. -/
def FmaOutcome.NoNaN (out : FmaOutcome) : Prop := ∀ res fl, out = .done res fl → isNaN res = false

theorem noNaN_stopped (fl : FpFlags) : (FmaOutcome.stopped fl).NoNaN := fun _ _ h => by cases h

/-- What `deliver` hands over is its argument. -/
theorem eq_of_deliver_eq_done {m : FpMasks} {given res : Single} {fl fl' : FpFlags}
    (h : deliver m given fl = .done res fl') : res = given := by
  rcases deliver_spec m given fl with ⟨-, hd⟩ | ⟨-, hs⟩
  · rw [hd] at h
    exact (FmaOutcome.done.inj h).1.symm
  · rw [hs] at h
    cases h

theorem noNaN_deliver {res : Single} (h : isNaN res = false) (m : FpMasks) (fl : FpFlags) : (deliver m res fl).NoNaN := by
  intro res' fl' hdone
  rw [eq_of_deliver_eq_done hdone]
  exact h

/-- A tiny exact value is below 2^-126, before and after rounding. -/
theorem lt_of_isTiny {t : Tininess} {rm : Rounding} {neg : Bool} {m : Nat} (h : isTiny t m (round24 rm neg m) = true) :
    m < 2 ^ 172 := by
  cases t with
  | afterRounding => exact lt_of_round24_lt (of_decide_eq_true h)
  | beforeRounding => exact of_decide_eq_true h

/-- A value that is not tiny is rounded to 2^-126 or more. -/
theorem round24_ge_of_not_isTiny {t : Tininess} {rm : Rounding} {neg : Bool} {m : Nat}
    (h : ¬ isTiny t m (round24 rm neg m) = true) : 2 ^ 172 ≤ round24 rm neg m := by
  cases t with
  | afterRounding => simpa [isTiny] using h
  | beforeRounding => exact round24_ge rm neg m 172 (by decide) (by simpa [isTiny] using h)

/-- Rounding a finite value gives a finite value or an infinity. -/
theorem noNaN_roundOutcome (sw : Switches) (c : FpControl) (neg : Bool) (m : Nat) (fl : FpFlags) (inexact : Bool) :
    (roundOutcome sw c neg m fl inexact).NoNaN := by
  simp only [roundOutcome]
  split
  · rw [overflowOutcome]
    split
    · exact noNaN_stopped _
    · exact noNaN_deliver (isNaN_overflowResult _ _) _ _
  next hlt =>
    split
    next htiny =>
      obtain ⟨hrdLt, hform⟩ := roundDenormal_form c.rounding neg m (lt_of_isTiny htiny)
      simp only [tinyOutcome]
      split
      · exact noNaN_stopped _
      · split
        · exact noNaN_deliver (isNaN_withSign_zero _) _ _
        · exact noNaN_deliver (encode_value neg _ hrdLt hform).1 _ _
    next htiny =>
      have hform := round24_normal c.rounding neg m (round24_ge_of_not_isTiny htiny)
      exact noNaN_deliver (encode_value neg _ (Nat.lt_of_not_le hlt) hform).1 _ _

theorem noNaN_finiteOutcome (sw : Switches) (c : FpControl) (x y z : Single) (fl : FpFlags) :
    (finiteOutcome sw c x y z fl).NoNaN := by
  simp only [finiteOutcome]
  split
  · exact noNaN_deliver (isNaN_withSign_zero _) _ _
  · exact noNaN_roundOutcome _ _ _ _ _ _

theorem noNaN_infiniteOutcome {x y z : Single} (h : isNaN z = false) (m : FpMasks) (fl : FpFlags) :
    (infiniteOutcome m x y z fl).NoNaN := by
  rw [infiniteOutcome]
  refine noNaN_deliver ?_ _ _
  split
  · exact isNaN_withSign_infinity _
  · exact h

/-- Without a NaN operand and an invalid operation no result is a NaN. -/
theorem noNaN_fmaAfterDaz {x y z : Single} (hnan : anyNaN x y z = false) (hvalid : invalidOp x y z = false) (sw : Switches)
    (c : FpControl) : (fmaAfterDaz sw c x y z).NoNaN := by
  have hz : isNaN z = false := by
    simp only [anyNaN, Bool.or_eq_false_iff] at hnan
    exact hnan.2
  simp only [fmaAfterDaz, hnan, hvalid, Bool.false_eq_true, if_false]
  split
  · exact noNaN_stopped _
  · split
    · exact noNaN_infiniteOutcome hz _ _
    · exact noNaN_finiteOutcome _ _ _ _ _ _

/-- Settles O59: a NaN operand and an invalid operation deliver a NaN, and no other step does. -/
theorem nanResultsComeFromNansOrInvalid : Obligations.NanResultsComeFromNansOrInvalid := by
  unfold Obligations.NanResultsComeFromNansOrInvalid
  intro sw c x y z res fl hdone
  have hany := anyNaN_applyDaz c.daz x y z
  rw [← hany]
  rw [fma32] at hdone
  generalize applyDaz c.daz x = x' at *
  generalize applyDaz c.daz y = y' at *
  generalize applyDaz c.daz z = z' at *
  cases hnan : anyNaN x' y' z' with
  | true =>
    rw [fmaAfterDaz, if_pos hnan] at hdone
    rw [eq_of_deliver_eq_done hdone]
    exact iff_of_true (isNaN_nanResult hnan _) (.inl rfl)
  | false =>
    cases hinvalid : invalidOp x' y' z' with
    | true =>
      rw [fmaAfterDaz, hnan, if_neg Bool.false_ne_true, if_pos hinvalid] at hdone
      rw [eq_of_deliver_eq_done hdone]
      exact iff_of_true (by decide) (.inr rfl)
    | false =>
      rw [noNaN_fmaAfterDaz hnan hinvalid sw c res fl hdone]
      simp

/-! ### The factors may change places (R162 (a)) -/

theorem anyNaN_comm (x y z : Single) : anyNaN x y z = anyNaN y x z := by
  rw [anyNaN, anyNaN, Bool.or_comm (isNaN x)]

theorem anySNaN_comm (x y z : Single) : anySNaN x y z = anySNaN y x z := by
  rw [anySNaN, anySNaN, Bool.or_comm (isSNaN x)]

theorem anyDen_comm (x y z : Single) : anyDen x y z = anyDen y x z := by
  rw [anyDen, anyDen, Bool.or_comm (isDen x)]

theorem productSign_comm (x y : Single) : productSign x y = productSign y x := by
  rw [productSign, productSign, bne_comm]

theorem infTimesZero_comm (x y : Single) : infTimesZero x y = infTimesZero y x := by
  rw [infTimesZero, infTimesZero, Bool.or_comm, Bool.and_comm (isZero x), Bool.and_comm (isInf x)]

theorem invalidOp_comm (x y z : Single) : invalidOp x y z = invalidOp y x z := by
  rw [invalidOp, invalidOp, infTimesZero_comm, productSign_comm, Bool.or_comm (isInf x)]

theorem exactFma_comm (x y z : Single) : exactFma x y z = exactFma y x z := by
  rw [exactFma, exactFma, Int.mul_comm (scaledVal x)]

theorem zeroSign_comm (rm : Rounding) (x y z : Single) : zeroSign rm x y z = zeroSign rm y x z := by
  rw [zeroSign, zeroSign, productSign_comm, Bool.or_comm (isZero x)]

theorem infiniteOutcome_comm (m : FpMasks) (x y z : Single) (fl : FpFlags) :
    infiniteOutcome m x y z fl = infiniteOutcome m y x z fl := by
  rw [infiniteOutcome, infiniteOutcome, productSign_comm, Bool.or_comm (isInf x)]

/-- Two factors that are both NaNs are the one case in which their order is seen. -/
theorem firstNaN_comm {x y : Single} (h : ¬ (isNaN x = true ∧ isNaN y = true)) (z : Single) :
    firstNaN x y z = firstNaN y x z := by
  unfold firstNaN
  by_cases hx : isNaN x = true
  · have hy : ¬ isNaN y = true := fun hy => h ⟨hx, hy⟩
    rw [if_pos hx, if_neg hy, if_pos hx]
  · rw [if_neg hx, if_neg hx]

/-- Under the switches of the spec the free value of log entry 13 is not used. -/
theorem roundOutcome_ofSpec_inexact (c : FpControl) (neg : Bool) (m : Nat) (fl : FpFlags) (i j : Bool) :
    roundOutcome .ofSpec c neg m fl i = roundOutcome .ofSpec c neg m fl j := rfl

theorem finiteOutcome_comm (c : FpControl) (x y z : Single) (fl : FpFlags) :
    finiteOutcome .ofSpec c x y z fl = finiteOutcome .ofSpec c y x z fl := by
  simp only [finiteOutcome]
  rw [exactFma_comm, zeroSign_comm,
    roundOutcome_ofSpec_inexact c _ _ fl (Config.tinyFaultInexact x y z) (Config.tinyFaultInexact y x z)]

/-- Settles O57: each step treats the two factors alike, but for the choice between two NaNs. -/
theorem factorsCommute : Obligations.FactorsCommute := by
  unfold Obligations.FactorsCommute
  intro c x y z hboth
  cases hnan : anyNaN x y z with
  | true =>
    rw [fma32_nan hnan, fma32_nan (anyNaN_comm x y z ▸ hnan), firstNaN_comm hboth, anySNaN_comm]
  | false =>
    have hnan' := (anyNaN_comm y x z).trans hnan
    rw [fma32, fma32, fmaAfterDaz, fmaAfterDaz, anyNaN_applyDaz, anyNaN_applyDaz, hnan, hnan', invalidOp_comm, anyDen_comm,
      invalidOutcome_ofSpec, invalidOutcome_ofSpec, infiniteOutcome_comm, finiteOutcome_comm,
      Bool.or_comm (isInf (applyDaz c.daz x)), if_neg Bool.false_ne_true, if_neg Bool.false_ne_true]

/-! ### Negating a factor and the addend (R162 (b)) -/

theorem negated_eq (p : Single) : negated p = withSign (!signOf p) (p.extractLsb' 0 31) := by
  apply BitVec.eq_of_getLsbD_eq
  intro i hi
  have hmask : ∀ i, i < 32 → (0x80000000#32).getLsbD i = decide (i = 31) := by decide
  simp only [negated, withSign, signOf, BitVec.getLsbD_xor, BitVec.getLsbD_append, BitVec.getLsbD_ofBool,
    BitVec.getLsbD_extractLsb', hmask i hi, Nat.zero_add]
  by_cases h : i < 31
  · have hne : i ≠ 31 := by omega
    simp [h, hne]
  · have heq : i = 31 := by omega
    simp [heq]

@[simp] theorem signOf_negated (p : Single) : signOf (negated p) = !signOf p := by
  rw [negated_eq, signOf_withSign]

@[simp] theorem rest_negated (p : Single) : (negated p).extractLsb' 0 31 = p.extractLsb' 0 31 := by
  rw [negated_eq, rest_withSign]

theorem negated_withSign (neg : Bool) (rest : BitVec 31) : negated (withSign neg rest) = withSign (!neg) rest := by
  rw [negated_eq, signOf_withSign, rest_withSign]

@[simp] theorem isNaN_negated (p : Single) : isNaN (negated p) = isNaN p := by
  rw [Bool.eq_iff_iff, isNaN_iff, isNaN_iff, rest_negated]

@[simp] theorem isInf_negated (p : Single) : isInf (negated p) = isInf p := by
  rw [Bool.eq_iff_iff, isInf_iff, isInf_iff, rest_negated]

@[simp] theorem isDen_negated (p : Single) : isDen (negated p) = isDen p := by
  rw [Bool.eq_iff_iff, isDen_iff, isDen_iff, rest_negated]

@[simp] theorem isZero_negated (p : Single) : isZero (negated p) = isZero p := by
  rw [Bool.eq_iff_iff, isZero_iff, isZero_iff, rest_negated]

theorem applyDaz_negated (daz : Bool) (p : Single) : applyDaz daz (negated p) = negated (applyDaz daz p) := by
  simp only [applyDaz, isDen_negated, signOf_negated]
  split
  · exact (negated_withSign ..).symm
  · rfl

theorem scaledVal_negated (p : Single) : scaledVal (negated p) = -scaledVal p := by
  rw [scaledVal, scaledVal, magnitude_eq, magnitude_eq, rest_negated, signOf_negated]
  cases signOf p <;> simp

theorem exactFma_negated (x y z : Single) : exactFma (negated x) y (negated z) = -exactFma x y z := by
  rw [exactFma, exactFma, scaledVal_negated, scaledVal_negated]
  ring

@[simp] theorem productSign_negated (x y : Single) : productSign (negated x) y = !productSign x y := by
  rw [productSign, productSign, signOf_negated, Bool.not_bne]

/-- Whether an operation is invalid depends on the signs of the product and of the addend only by their difference. -/
theorem invalidOp_negated (x y z : Single) : invalidOp (negated x) y (negated z) = invalidOp x y z := by
  simp only [invalidOp, infTimesZero, isInf_negated, isZero_negated, signOf_negated, productSign_negated,
    Bool.not_bne_not]

theorem deliver_negated (m : FpMasks) (res : Single) (fl : FpFlags) :
    deliver m (negated res) fl = (deliver m res fl).mirror := by
  unfold deliver
  split <;> rfl

theorem infiniteOutcome_negated (m : FpMasks) (x y z : Single) (fl : FpFlags) :
    infiniteOutcome m (negated x) y (negated z) fl = (infiniteOutcome m x y z fl).mirror := by
  simp only [infiniteOutcome, ← deliver_negated, isInf_negated, productSign_negated, ← negated_withSign]
  rw [apply_ite negated]

/-! #### Rounding in the mirrored mode -/

theorem roundsUp_mirror (rm : Rounding) (neg : Bool) (k n rem : Nat) :
    roundsUp rm.mirror (!neg) k n rem = roundsUp rm neg k n rem := by
  cases rm
  case rd => exact Bool.not_not neg
  all_goals rfl

theorem roundTo_mirror (rm : Rounding) (neg : Bool) (m k : Nat) : roundTo rm.mirror (!neg) m k = roundTo rm neg m k := by
  rw [roundTo, roundTo, roundsUp_mirror]

theorem round24_mirror (rm : Rounding) (neg : Bool) (m : Nat) : round24 rm.mirror (!neg) m = round24 rm neg m :=
  roundTo_mirror ..

theorem roundDenormal_mirror (rm : Rounding) (neg : Bool) (m : Nat) :
    roundDenormal rm.mirror (!neg) m = roundDenormal rm neg m :=
  roundTo_mirror ..

theorem encodeMagnitude_not (neg : Bool) (q : Nat) : encodeMagnitude (!neg) q = negated (encodeMagnitude neg q) := by
  unfold encodeMagnitude
  split
  · exact (negated_withSign ..).symm
  · exact (negated_withSign ..).symm

theorem overflowResult_mirror (rm : Rounding) (neg : Bool) :
    overflowResult rm.mirror (!neg) = negated (overflowResult rm neg) := by
  rw [overflowResult, overflowResult, negated_withSign]
  cases rm <;> cases neg <;> rfl

/-- Rounding the value of the other sign in the mirrored mode. -/
theorem roundOutcome_mirror (sw : Switches) (c : FpControl) (neg : Bool) (m : Nat) (fl : FpFlags) (inexact : Bool) :
    roundOutcome sw { c with rounding := c.rounding.mirror } (!neg) m fl inexact =
      (roundOutcome sw c neg m fl inexact).mirror := by
  simp only [roundOutcome, overflowOutcome, tinyOutcome, round24_mirror, roundDenormal_mirror, encodeMagnitude_not,
    overflowResult_mirror, ← negated_withSign, deliver_negated]
  split
  · split <;> rfl
  · split
    · split
      · rfl
      · split <;> rfl
    · rfl

/-- The sign of a value that is not zero changes with the value. -/
theorem decide_neg_lt_zero {v : Int} (h : v ≠ 0) : decide (-v < 0) = !decide (v < 0) := by
  rw [Bool.eq_iff_iff]
  simp only [decide_eq_true_eq, Bool.not_eq_true', decide_eq_false_iff_not]
  omega

theorem finiteOutcome_negated (c : FpControl) {x y z : Single} (h : exactFma x y z ≠ 0) (fl : FpFlags) :
    finiteOutcome .ofSpec { c with rounding := c.rounding.mirror } (negated x) y (negated z) fl =
      (finiteOutcome .ofSpec c x y z fl).mirror := by
  simp only [finiteOutcome, exactFma_negated, neg_eq_zero, if_neg h, Int.natAbs_neg, decide_neg_lt_zero h]
  exact roundOutcome_mirror ..

theorem fmaAfterDaz_negated (c : FpControl) {x y z : Single} (hnan : anyNaN x y z = false)
    (hvalid : invalidOp x y z = false)
    (hne : isInf x = true ∨ isInf y = true ∨ isInf z = true ∨ exactFma x y z ≠ 0) :
    fmaAfterDaz .ofSpec { c with rounding := c.rounding.mirror } (negated x) y (negated z) =
      (fmaAfterDaz .ofSpec c x y z).mirror := by
  have hnan' : anyNaN (negated x) y (negated z) = false := by simpa only [anyNaN, isNaN_negated] using hnan
  have hden : anyDen (negated x) y (negated z) = anyDen x y z := by simp only [anyDen, isDen_negated]
  simp only [fmaAfterDaz, hnan, hnan', invalidOp_negated, hvalid, hden, isInf_negated, Bool.false_eq_true, if_false]
  split
  · rfl
  · split
    · exact infiniteOutcome_negated ..
    next hfinite =>
      have hexact : exactFma x y z ≠ 0 := by
        simp only [Bool.or_eq_true, not_or] at hfinite
        obtain ⟨⟨hx, hy⟩, hz⟩ := hfinite
        exact ((hne.resolve_left hx).resolve_left hy).resolve_left hz
      exact finiteOutcome_negated c hexact _

theorem fma32_negated (c : FpControl) {x y z : Single} (hnan : anyNaN x y z = false)
    (hvalid : invalidOp (applyDaz c.daz x) (applyDaz c.daz y) (applyDaz c.daz z) = false)
    (hne : isInf (applyDaz c.daz x) = true ∨ isInf (applyDaz c.daz y) = true ∨ isInf (applyDaz c.daz z) = true ∨
      exactFma (applyDaz c.daz x) (applyDaz c.daz y) (applyDaz c.daz z) ≠ 0) :
    fma32 .ofSpec { c with rounding := c.rounding.mirror } (negated x) y (negated z) = (fma32 .ofSpec c x y z).mirror := by
  simp only [fma32, applyDaz_negated]
  exact fmaAfterDaz_negated c ((anyNaN_applyDaz ..).trans hnan) hvalid hne

/-- Settles O58: the other factor may be negated in place of the first, since the two commute. -/
theorem negationMirrorsTheResult : Obligations.NegationMirrorsTheResult := by
  unfold Obligations.NegationMirrorsTheResult
  intro c x y z hnan x' y' z' hvalid hne
  refine ⟨fma32_negated c hnan hvalid hne, ?_⟩
  have hx : isNaN x = false := by
    simp only [anyNaN, Bool.or_eq_false_iff] at hnan
    exact hnan.1.1
  have hbothNaN {p : Single} : ¬ (isNaN x = true ∧ isNaN p = true) := by simp [hx]
  have hne' : isInf y' = true ∨ isInf x' = true ∨ isInf z' = true ∨ exactFma y' x' z' ≠ 0 := by
    rw [exactFma_comm]
    exact or_left_comm.1 hne
  calc fma32 .ofSpec { c with rounding := c.rounding.mirror } x (negated y) (negated z)
      = fma32 .ofSpec { c with rounding := c.rounding.mirror } (negated y) x (negated z) := factorsCommute _ _ _ _ hbothNaN
    _ = (fma32 .ofSpec c y x z).mirror :=
        fma32_negated c ((anyNaN_comm y x z).trans hnan) ((invalidOp_comm y' x' z').trans hvalid) hne'
    _ = (fma32 .ofSpec c x y z).mirror := by rw [factorsCommute c x y z hbothNaN]

/-! ### A product and a sum as special cases (R162 (c) and (d)) -/

theorem scaledVal_of_isZero {p : Single} (h : isZero p = true) : scaledVal p = 0 := by
  have hzero : magnitude p = 0 := by rw [magnitude_eq, (isZero_iff p).1 h, if_pos (by decide)]
  simp [scaledVal, hzero]

theorem scaledVal_one : scaledVal 0x3F800000#32 = 2 ^ 149 := by decide

/-- The exact product, where the addend is a zero. -/
theorem exactFma_of_isZero {z : Single} (h : isZero z = true) (x y : Single) :
    exactFma x y z = scaledVal x * scaledVal y := by
  rw [exactFma, scaledVal_of_isZero h, Int.zero_mul, Int.add_zero]

/-- The zero that cannot decide the sign of a zero product in the rounding mode. -/
def neutralZero (rm : Rounding) : Single := if rm = .rd then 0x00000000#32 else 0x80000000#32

theorem neutralZero_classes (rm : Rounding) :
    isZero (neutralZero rm) = true ∧ isNaN (neutralZero rm) = false ∧ isInf (neutralZero rm) = false ∧
      isDen (neutralZero rm) = false ∧ signOf (neutralZero rm) = !(rm == .rd) := by
  cases rm <;> decide

/-- A zero product keeps its sign. -/
theorem zeroSign_neutralZero {x y : Single} (h : isZero x = true ∨ isZero y = true) (rm : Rounding) :
    zeroSign rm x y (neutralZero rm) = productSign x y := by
  obtain ⟨hz, -, -, -, hsign⟩ := neutralZero_classes rm
  have hfactor : (isZero x || isZero y) = true := by simpa using h
  rw [zeroSign, hz, hsign, hfactor]
  cases productSign x y <;> cases (rm == .rd) <;> rfl

/-- Settles O60. -/
theorem productAndSumAreSpecialCases : Obligations.ProductAndSumAreSpecialCases := by
  unfold Obligations.ProductAndSumAreSpecialCases
  intro x y z
  refine ⟨⟨exactFma_of_isZero (by decide) x y, exactFma_of_isZero (by decide) x y, ?_⟩, ?_⟩
  · rw [exactFma, scaledVal_one, Int.add_mul]
  · intro sw c hdaz hxNan hyNan hx hy hden hfactor
    obtain ⟨hz, hzNan, hzInf, hzDen, -⟩ := neutralZero_classes c.rounding
    have hanyDen : anyDen x y (neutralZero c.rounding) = (isDen x || isDen y) := by rw [anyDen, hzDen, Bool.or_false]
    have hfinite : FiniteOperands c x y (neutralZero c.rounding) :=
      ⟨hdaz, by rw [anyNaN, hxNan, hyNan, hzNan]; rfl, hx, hy, hzInf, by simpa [hanyDen] using hden⟩
    have hexact : exactFma x y (neutralZero c.rounding) = 0 := by
      rw [exactFma_of_isZero hz, mul_eq_zero]
      exact hfactor.imp scaledVal_of_isZero scaledVal_of_isZero
    have hfma := hfinite.fma32_zero sw hexact
    rw [zeroSign_neutralZero hfactor, withSign_zero, hanyDen] at hfma
    exact hfma

end Sys2Proof.Machine
end
